-- ==== Sys2Proof/Word.lean ====
section
/-! DEFINITION. The two widths of data the processor moves: bytes and 16-bit words (20_memory.md R141). -/

namespace Sys2Proof

/-- What one address names: 8 bits (R141). -/
abbrev Byte := BitVec 8

/-- A register, an address, an instruction word, an internal value: 16 bits (R141, 40_operands.md R200). -/
abbrev Word := BitVec 16

end Sys2Proof
end

