-- ==== Sys2Proof/Machine/Bytes.lean ====
section
/-! DEFINITION. The byte order of words, and the extension and truncation of bytes. -/

namespace Sys2Proof.Machine

/-- The byte of a word at the even address: bits 7..0 (20_memory.md R142, little-endian). -/
def lowByte (v : Word) : Byte := v.extractLsb' 0 8

/-- The byte of a word at the odd address: bits 15..8 (R142). -/
def highByte (v : Word) : Byte := v.extractLsb' 8 8

/-- The word whose bytes at the even and at the odd address are `lo` and `hi` (R142). -/
def wordOfBytes (lo hi : Byte) : Word := hi ++ lo

/-- A byte read enters the processor zero-extended (40_operands.md R209). -/
def zeroExtend (b : Byte) : Word := b.setWidth 16

/-- The bytes of words in ascending address order (R142, 30_encoding.md R170). -/
def bytesOfWords : List Word → List Byte
  | [] => []
  | w :: ws => lowByte w :: highByte w :: bytesOfWords ws

/-- The words of bytes in ascending address order; a last single byte is no word (R142). -/
def wordsOfBytes : List Byte → List Word
  | lo :: hi :: bs => wordOfBytes lo hi :: wordsOfBytes bs
  | _ => []

end Sys2Proof.Machine
end

