-- ==== Sys2Proof/Syntax.lean ====
section
/-! DEFINITION. The instructions: one constructor of `Instr` for each row of spec/opcode_table.json, with decoded operands. -/

namespace Sys2Proof

/-- The b/w bit of a memory operand: '1' for byte-wide access, '0' for word access (30_encoding.md R178). -/
inductive Width where
  | word
  | byte
  deriving DecidableEq, Repr

/-- A general register, `r0` to `r15` (10_state.md R111). -/
abbrev RegNum := Fin 16

/-- The register field `rrr ≠ 111` of the Indirect and Auto Increment modes: `p` names `r(8 + p)`, one of `r8` to
`r14`; `r15` cannot be written in these modes (30_encoding.md R179). -/
abbrev PtrReg := Fin 7

/-- The register field `rrr` of the Index mode: `p` names `r(8 + p)`, one of `r8` to `r15` (R179). -/
abbrev BaseReg := Fin 8

/-- An operand with its extension word, if its mode has one (R178 to R182, 40_operands.md R203 to R211). -/
inductive Operand where
  /-- Register mode: `r5` (R203). -/
  | reg (r : RegNum)
  /-- Immediate mode: the extension word is the value (R204). -/
  | imm (v : Word)
  /-- Indirect through `r15`, `[r15]`: push when written, pop when read; always a word (R207). -/
  | stack
  /-- Indirect mode: `[r10]`, `b[r10]` (R206). -/
  | ind (w : Width) (p : PtrReg)
  /-- Direct mode: the extension word is the address; `[0x400]`, `b[0x400]` (R205). -/
  | direct (w : Width) (a : Word)
  /-- Indirect with Auto Increment: `[r10++]`, `b[r10++]` (R210). -/
  | autoInc (w : Width) (p : PtrReg)
  /-- Indirect with Index: the extension word is the offset; `[r11 + 0x600]` (R211). -/
  | index (w : Width) (p : BaseReg) (off : Word)
  deriving DecidableEq, Repr

/-- The conditions of the `cccc` field; 1110 is "(not used)" and has no constructor (42_program_control.md R250). -/
inductive Cond where
  | z | nz | c | nc | s | ns | o | no | a | be | g | ge | l | le
  /-- `cccc = 1111`, unconditional. -/
  | always
  deriving DecidableEq, Repr

/-- An instruction. Operands stand in the order of the instruction word's fields, source before destination
(the assembler writes the destination first, 45_assembler_and_macros.md R300). The field `n` of the shifts, ADDI and
SUBI holds the count less one, as the instruction word does (30_encoding.md R185). -/
inductive Instr where
  -- format D (41_dual_operand.md R233 to R242)
  | mov (src dst : Operand)
  | add (src dst : Operand)
  | addc (src dst : Operand)
  | sub (src dst : Operand)
  | subb (src dst : Operand)
  | cmp (src dst : Operand)
  | and (src dst : Operand)
  | test (src dst : Operand)
  | or (src dst : Operand)
  | xor (src dst : Operand)
  -- format J (42_program_control.md R251): `off` is the 7-bit signed word offset
  | jz (off : BitVec 7)
  | jnz (off : BitVec 7)
  | jc (off : BitVec 7)
  | jnc (off : BitVec 7)
  | js (off : BitVec 7)
  | jns (off : BitVec 7)
  | jo (off : BitVec 7)
  | jno (off : BitVec 7)
  | ja (off : BitVec 7)
  | jbe (off : BitVec 7)
  | jg (off : BitVec 7)
  | jge (off : BitVec 7)
  | jl (off : BitVec 7)
  | jle (off : BitVec 7)
  | jmp (off : BitVec 7)
  -- format L, opcode 1100 (R252)
  | jzl (target : Operand)
  | jnzl (target : Operand)
  | jcl (target : Operand)
  | jncl (target : Operand)
  | jsl (target : Operand)
  | jnsl (target : Operand)
  | jol (target : Operand)
  | jnol (target : Operand)
  | jal (target : Operand)
  | jbel (target : Operand)
  | jgl (target : Operand)
  | jgel (target : Operand)
  | jll (target : Operand)
  | jlel (target : Operand)
  | jmpl (target : Operand)
  -- format R (R253)
  | rz | rnz | rc | rnc | rs | rns | ro | rno | ra | rbe | rg | rge | rl | rle | ret
  -- format L, opcode 1010 (R254)
  | cz (target : Operand)
  | cnz (target : Operand)
  | cc (target : Operand)
  | cnc (target : Operand)
  | cs (target : Operand)
  | cns (target : Operand)
  | co (target : Operand)
  | cno (target : Operand)
  | ca (target : Operand)
  | cbe (target : Operand)
  | cg (target : Operand)
  | cge (target : Operand)
  | cl (target : Operand)
  | cle (target : Operand)
  | call (target : Operand)
  -- format V (R255)
  | int (v : Fin 128)
  -- format S (43_single_operand.md R271 to R276)
  | shr (n : Fin 8) (dst : Operand)
  | shl (n : Fin 8) (dst : Operand)
  | ror (n : Fin 8) (dst : Operand)
  | rol (n : Fin 8) (dst : Operand)
  | addi (n : Fin 8) (dst : Operand)
  | subi (n : Fin 8) (dst : Operand)
  -- format U (R277 to R279)
  | not (dst : Operand)
  | neg (dst : Operand)
  | cbw (dst : Operand)
  -- format M (44_miscellaneous.md R290 to R293)
  | sti | cli | stc | clc
  deriving DecidableEq, Repr

end Sys2Proof
end

