-- ==== Sys2Proof/WellFormed.lean ====
section
/-! DEFINITION. Which instructions an instruction word can hold: the checks the types of `Syntax` do not make. -/

namespace Sys2Proof

/-- "Immediate mode not valid as a destination" (30_encoding.md R178; a destination field 011111 is reserved,
R186 class E-h). -/
def Operand.destinationOk : Operand → Bool
  | .imm _ => false
  | _ => true

/-- The operand of a JccL is not `[r15]`: those words are the Rcc instructions, which the decoding takes first
(R175, R188). -/
def Operand.jumpTargetOk : Operand → Bool
  | .stack => false
  | _ => true

/-- The instruction is one that the encoding can express, in the one constructor its words decode to. -/
def Instr.wellFormed : Instr → Bool
  | .mov _ d | .add _ d | .addc _ d | .sub _ d | .subb _ d | .cmp _ d | .and _ d | .test _ d | .or _ d | .xor _ d =>
    d.destinationOk
  | .jz _ | .jnz _ | .jc _ | .jnc _ | .js _ | .jns _ | .jo _ | .jno _ | .ja _ | .jbe _ | .jg _ | .jge _ | .jl _
  | .jle _ | .jmp _ => true
  | .jzl t | .jnzl t | .jcl t | .jncl t | .jsl t | .jnsl t | .jol t | .jnol t | .jal t | .jbel t | .jgl t | .jgel t
  | .jll t | .jlel t | .jmpl t => t.jumpTargetOk
  | .rz | .rnz | .rc | .rnc | .rs | .rns | .ro | .rno | .ra | .rbe | .rg | .rge | .rl | .rle | .ret => true
  | .cz _ | .cnz _ | .cc _ | .cnc _ | .cs _ | .cns _ | .co _ | .cno _ | .ca _ | .cbe _ | .cg _ | .cge _ | .cl _
  | .cle _ | .call _ => true
  | .int _ => true
  | .shr _ d | .shl _ d | .ror _ d | .rol _ d | .addi _ d | .subi _ d => d.destinationOk
  | .not d | .neg d | .cbw d => d.destinationOk
  | .sti | .cli | .stc | .clc => true

end Sys2Proof
end

