-- ==== Sys2Proof/Decode.lean ====
section
/-! DEFINITION. Decoding (30_encoding.md R170 to R188): total on any words and bytes, rejecting by name; then the encoder,
written from the same tables. -/

namespace Sys2Proof

/-- The classes of reserved instruction words (R186). -/
inductive ReservedClass where
  /-- E-a: primary opcode 1011, 1110 or 1111. -/
  | unassignedOpcode
  /-- E-b: `1101 110x xxxx xxxx`. -/
  | unassignedSubOpcode
  /-- E-c: `1101 111 ppp dddddd`, `ppp` in 010, 011, 101, 110. -/
  | unassignedParameter
  /-- E-d: `1101 111 111 ffffff`, `ffffff ≥ 000100`. -/
  | unassignedMiscellaneous
  /-- E-e: `1010 cccc 0 vvvvvvv`, `cccc ≠ 1111`. -/
  | conditionalInt
  /-- E-f: bit 6 set in format L. -/
  | formatLBitSix
  /-- E-g: `cccc = 1110`. -/
  | unusedCondition
  /-- E-h: the destination field of formats D, S, U is 011111 (Immediate). -/
  | immediateDestination
  deriving DecidableEq, Repr

/-- Why bytes are no instruction. -/
inductive DecodeError where
  /-- The words end before the instruction does. -/
  | truncated
  /-- The instruction word is reserved (R186). -/
  | reserved (c : ReservedClass)
  deriving DecidableEq, Repr

/-- Bits 15..12: the primary opcode (R171). -/
def opcodeField (w : Word) : BitVec 4 := w.extractLsb' 12 4
/-- Bits 11..8: `cccc` (R173, R174). -/
def condField (w : Word) : BitVec 4 := w.extractLsb' 8 4
/-- Bits 11..9: the sub-opcode of format S, U, M (R177). -/
def subField (w : Word) : BitVec 3 := w.extractLsb' 9 3
/-- Bits 11..6: the source operand field (R172). -/
def srcField (w : Word) : BitVec 6 := w.extractLsb' 6 6
/-- Bits 8..6: the parameter of format S, U, M (R177). -/
def paramField (w : Word) : BitVec 3 := w.extractLsb' 6 3
/-- Bits 6..0: the offset or vector of formats J and V (R173, R176). -/
def lowField (w : Word) : BitVec 7 := w.extractLsb' 0 7
/-- Bits 5..0: the destination operand field (R171). -/
def dstField (w : Word) : BitVec 6 := w.extractLsb' 0 6

/-- The field 011111, Immediate mode (R179). -/
def immediateField : BitVec 6 := 0x1F#6
/-- The field 010111, `[r15]` (R179). -/
def stackField : BitVec 6 := 0x17#6

/-- How many extension words an operand field needs: one for Immediate, Direct and Index, else none (R180). -/
def extWords (f : BitVec 6) : Nat :=
  let n := f.toNat
  if n = 0x1F ∨ n = 0x27 ∨ n = 0x2F ∨ 0x30 ≤ n then 1 else 0

/-- The operand an operand field stands for, with `e` as its extension word where its mode has one (R179's table). -/
def operandOfField (f : BitVec 6) (e : Word) : Operand :=
  let n := f.toNat
  if h : n < 0x10 then .reg ⟨n, h⟩
  else if h : n < 0x17 then .ind .word ⟨n - 0x10, by omega⟩
  else if n = 0x17 then .stack
  else if h : n < 0x1F then .ind .byte ⟨n - 0x18, by omega⟩
  else if n = 0x1F then .imm e
  else if h : n < 0x27 then .autoInc .word ⟨n - 0x20, by omega⟩
  else if n = 0x27 then .direct .word e
  else if h : n < 0x2F then .autoInc .byte ⟨n - 0x28, by omega⟩
  else if n = 0x2F then .direct .byte e
  else if h : n < 0x38 then .index .word ⟨n - 0x30, by omega⟩ e
  else .index .byte ⟨n - 0x38, by have := f.isLt; omega⟩ e

/-- An operand field's operand, its extension word taken from the front of the words that follow (R170, R180). -/
def takeOperand (f : BitVec 6) (ws : List Word) : Except DecodeError (Operand × List Word) :=
  if extWords f = 0 then .ok (operandOfField f 0, ws)
  else match ws with
    | [] => .error .truncated
    | e :: ws' => .ok (operandOfField f e, ws')

/-- The condition of a `cccc` field; 1110 has none (42_program_control.md R250). -/
def condOfField (f : BitVec 4) : Option Cond :=
  match f.toNat with
  | 0 => some .z
  | 1 => some .nz
  | 2 => some .c
  | 3 => some .nc
  | 4 => some .s
  | 5 => some .ns
  | 6 => some .o
  | 7 => some .no
  | 8 => some .a
  | 9 => some .be
  | 10 => some .g
  | 11 => some .ge
  | 12 => some .l
  | 13 => some .le
  | 15 => some .always
  | _ => none

/-- Jcc, the jump relative on a condition (R251). -/
def jumpInstr (cnd : Cond) (off : BitVec 7) : Instr :=
  match cnd with
  | .z => .jz off
  | .nz => .jnz off
  | .c => .jc off
  | .nc => .jnc off
  | .s => .js off
  | .ns => .jns off
  | .o => .jo off
  | .no => .jno off
  | .a => .ja off
  | .be => .jbe off
  | .g => .jg off
  | .ge => .jge off
  | .l => .jl off
  | .le => .jle off
  | .always => .jmp off

/-- JccL, the jump to an operand's value on a condition (R252). -/
def jumpLongInstr (cnd : Cond) (t : Operand) : Instr :=
  match cnd with
  | .z => .jzl t
  | .nz => .jnzl t
  | .c => .jcl t
  | .nc => .jncl t
  | .s => .jsl t
  | .ns => .jnsl t
  | .o => .jol t
  | .no => .jnol t
  | .a => .jal t
  | .be => .jbel t
  | .g => .jgl t
  | .ge => .jgel t
  | .l => .jll t
  | .le => .jlel t
  | .always => .jmpl t

/-- Rcc, the return on a condition (R253). -/
def returnInstr (cnd : Cond) : Instr :=
  match cnd with
  | .z => .rz
  | .nz => .rnz
  | .c => .rc
  | .nc => .rnc
  | .s => .rs
  | .ns => .rns
  | .o => .ro
  | .no => .rno
  | .a => .ra
  | .be => .rbe
  | .g => .rg
  | .ge => .rge
  | .l => .rl
  | .le => .rle
  | .always => .ret

/-- Ccc, the call on a condition (R254). -/
def callInstr (cnd : Cond) (t : Operand) : Instr :=
  match cnd with
  | .z => .cz t
  | .nz => .cnz t
  | .c => .cc t
  | .nc => .cnc t
  | .s => .cs t
  | .ns => .cns t
  | .o => .co t
  | .no => .cno t
  | .a => .ca t
  | .be => .cbe t
  | .g => .cg t
  | .ge => .cge t
  | .l => .cl t
  | .le => .cle t
  | .always => .call t

/-- Format D: the source's extension word comes before the destination's (R170, R172). -/
def decodeDual (mk : Operand → Operand → Instr) (w : Word) (ws : List Word) : Except DecodeError (Instr × List Word) :=
  if dstField w = immediateField then .error (.reserved .immediateDestination)
  else do
    let (src, ws) ← takeOperand (srcField w) ws
    let (dst, ws) ← takeOperand (dstField w) ws
    pure (mk src dst, ws)

/-- Formats S and U: one destination field (R177). -/
def decodeSingle (mk : Operand → Instr) (w : Word) (ws : List Word) : Except DecodeError (Instr × List Word) :=
  if dstField w = immediateField then .error (.reserved .immediateDestination)
  else do
    let (dst, ws) ← takeOperand (dstField w) ws
    pure (mk dst, ws)

/-- Primary opcode 1010: Ccc (format L) and INT (format V); R186 classes E-e, E-f, E-g. -/
def decodeCall (w : Word) (ws : List Word) : Except DecodeError (Instr × List Word) :=
  if w.getLsbD 7 then
    match condOfField (condField w) with
    | none => .error (.reserved .unusedCondition)
    | some cnd =>
      if w.getLsbD 6 then .error (.reserved .formatLBitSix)
      else do
        let (t, ws) ← takeOperand (dstField w) ws
        pure (callInstr cnd t, ws)
  else if condField w = 0xF#4 then .ok (.int (lowField w).toFin, ws)
  else .error (.reserved .conditionalInt)

/-- Primary opcode 1100: Jcc (format J), Rcc (format R) before JccL (format L); R186 classes E-f, E-g, R188. -/
def decodeJump (w : Word) (ws : List Word) : Except DecodeError (Instr × List Word) :=
  match condOfField (condField w) with
  | none => .error (.reserved .unusedCondition)
  | some cnd =>
    if w.getLsbD 7 then
      if w.getLsbD 6 then .error (.reserved .formatLBitSix)
      else if dstField w = stackField then .ok (returnInstr cnd, ws)
      else do
        let (t, ws) ← takeOperand (dstField w) ws
        pure (jumpLongInstr cnd t, ws)
    else .ok (jumpInstr cnd (lowField w), ws)

/-- Sub-opcode 111 of primary opcode 1101: formats U and M (R177; R186 classes E-c, E-d). -/
def decodeUnary (w : Word) (ws : List Word) : Except DecodeError (Instr × List Word) :=
  match (paramField w).toNat with
  | 0 => decodeSingle .not w ws
  | 1 => decodeSingle .neg w ws
  | 4 => decodeSingle .cbw w ws
  | 7 =>
    match (dstField w).toNat with
    | 0 => .ok (.sti, ws)
    | 1 => .ok (.cli, ws)
    | 2 => .ok (.stc, ws)
    | 3 => .ok (.clc, ws)
    | _ => .error (.reserved .unassignedMiscellaneous)
  | _ => .error (.reserved .unassignedParameter)

/-- Primary opcode 1101 (R177; R186 class E-b). -/
def decodeSingles (w : Word) (ws : List Word) : Except DecodeError (Instr × List Word) :=
  let n := (paramField w).toFin
  match (subField w).toNat with
  | 0 => decodeSingle (.shr n) w ws
  | 1 => decodeSingle (.shl n) w ws
  | 2 => decodeSingle (.ror n) w ws
  | 3 => decodeSingle (.rol n) w ws
  | 4 => decodeSingle (.addi n) w ws
  | 5 => decodeSingle (.subi n) w ws
  | 7 => decodeUnary w ws
  | _ => .error (.reserved .unassignedSubOpcode)

/-- One instruction from the front of words: the opcode map of section 5 (R188). -/
def decodeWords : List Word → Except DecodeError (Instr × List Word)
  | [] => .error .truncated
  | w :: ws =>
    match (opcodeField w).toNat with
    | 0 => decodeDual .mov w ws
    | 1 => decodeDual .add w ws
    | 2 => decodeDual .addc w ws
    | 3 => decodeDual .sub w ws
    | 4 => decodeDual .subb w ws
    | 5 => decodeDual .cmp w ws
    | 6 => decodeDual .and w ws
    | 7 => decodeDual .test w ws
    | 8 => decodeDual .or w ws
    | 9 => decodeDual .xor w ws
    | 10 => decodeCall w ws
    | 12 => decodeJump w ws
    | 13 => decodeSingles w ws
    | _ => .error (.reserved .unassignedOpcode)

/-- How many extension words follow an instruction word that is not reserved (R180). -/
def extWordsOf (w : Word) : Nat :=
  let op := (opcodeField w).toNat
  if op < 10 then extWords (srcField w) + extWords (dstField w)
  else if op = 10 ∨ op = 12 then (if w.getLsbD 7 then extWords (dstField w) else 0)
  else if op = 13 ∧ ¬ (subField w = 7#3 ∧ paramField w = 7#3) then extWords (dstField w)
  else 0

/-- One instruction from the front of bytes, each word in the hardware's byte order (20_memory.md R142), and the bytes
after it. -/
def decode (bs : List Byte) : Except DecodeError (Instr × List Byte) := do
  let ws := Machine.wordsOfBytes bs
  let (i, rest) ← decodeWords ws
  pure (i, bs.drop (2 * (ws.length - rest.length)))

/-- The instruction the decoder reads from an instruction whose bits are `w`, bit 0 the least significant bit of the first
word: the words laid out as the hardware stores them, every bit from `nbits` up zero, three words in all. -/
def decodeTableWord (nbits w : Nat) : Option Instr :=
  let v := w % 2 ^ nbits
  let bs : List Byte := [0, 1, 2, 3, 4, 5].map (fun k => BitVec.ofNat 8 (v >>> (8 * k)))
  match decode bs with
  | .ok (i, _) => some i
  | .error _ => none

/-! The encoder. -/

/-- The b/w bit (30_encoding.md R178). -/
def Width.bit : Width → BitVec 1
  | .word => 0#1
  | .byte => 1#1

/-- The operand field of an operand: the rows of PG Table 1-2 (R178). -/
def Operand.field : Operand → BitVec 6
  | .reg r => 0b00#2 ++ BitVec.ofNat 4 r
  | .imm _ => 0b011111#6
  | .stack => 0b010111#6
  | .ind w p => 0b01#2 ++ w.bit ++ BitVec.ofNat 3 p
  | .direct w _ => 0b10#2 ++ w.bit ++ 0b111#3
  | .autoInc w p => 0b10#2 ++ w.bit ++ BitVec.ofNat 3 p
  | .index w p _ => 0b11#2 ++ w.bit ++ BitVec.ofNat 3 p

/-- The extension word of an operand, if its mode has one (R180 to R182). -/
def Operand.ext : Operand → List Word
  | .imm v => [v]
  | .direct _ a => [a]
  | .index _ _ off => [off]
  | .reg _ | .stack | .ind _ _ | .autoInc _ _ => []

/-- The `cccc` field of a condition (42_program_control.md R250). -/
def Cond.field : Cond → BitVec 4
  | .z => 0b0000#4
  | .nz => 0b0001#4
  | .c => 0b0010#4
  | .nc => 0b0011#4
  | .s => 0b0100#4
  | .ns => 0b0101#4
  | .o => 0b0110#4
  | .no => 0b0111#4
  | .a => 0b1000#4
  | .be => 0b1001#4
  | .g => 0b1010#4
  | .ge => 0b1011#4
  | .l => 0b1100#4
  | .le => 0b1101#4
  | .always => 0b1111#4

/-- Format D: `oooo ssssss dddddd`, then the extension words, the source's first (30_encoding.md R170, R172). -/
def encodeDual (op : BitVec 4) (src dst : Operand) : List Word :=
  (op ++ src.field ++ dst.field : BitVec 16) :: (src.ext ++ dst.ext)

/-- Format J: `1100 cccc 0 ooooooo` (R173). -/
def encodeJump (cnd : Cond) (off : BitVec 7) : List Word := [0b1100#4 ++ cnd.field ++ 0#1 ++ off]

/-- Format L: `oooo cccc 10 dddddd`, then the operand's extension word (R174). -/
def encodeLong (op : BitVec 4) (cnd : Cond) (t : Operand) : List Word :=
  (op ++ cnd.field ++ 0b10#2 ++ t.field : BitVec 16) :: t.ext

/-- Format R: `1100 cccc 10 010111` (R175). -/
def encodeReturn (cnd : Cond) : List Word := [0b1100#4 ++ cnd.field ++ 0b10010111#8]

/-- Format S: `1101 ooo nnn dddddd`, then the extension word (R177, R185). -/
def encodeCount (op : BitVec 3) (n : Fin 8) (dst : Operand) : List Word :=
  (0b1101#4 ++ op ++ BitVec.ofNat 3 n ++ dst.field : BitVec 16) :: dst.ext

/-- Format U: `1101 111 ppp dddddd`, then the extension word (R177). -/
def encodeUnary (p : BitVec 3) (dst : Operand) : List Word :=
  (0b1101111#7 ++ p ++ dst.field : BitVec 16) :: dst.ext

/-- The words of an instruction in ascending address order (R170 to R177). -/
def encode : Instr → List Word
  | .mov s d => encodeDual 0b0000#4 s d
  | .add s d => encodeDual 0b0001#4 s d
  | .addc s d => encodeDual 0b0010#4 s d
  | .sub s d => encodeDual 0b0011#4 s d
  | .subb s d => encodeDual 0b0100#4 s d
  | .cmp s d => encodeDual 0b0101#4 s d
  | .and s d => encodeDual 0b0110#4 s d
  | .test s d => encodeDual 0b0111#4 s d
  | .or s d => encodeDual 0b1000#4 s d
  | .xor s d => encodeDual 0b1001#4 s d
  | .jz o => encodeJump .z o
  | .jnz o => encodeJump .nz o
  | .jc o => encodeJump .c o
  | .jnc o => encodeJump .nc o
  | .js o => encodeJump .s o
  | .jns o => encodeJump .ns o
  | .jo o => encodeJump .o o
  | .jno o => encodeJump .no o
  | .ja o => encodeJump .a o
  | .jbe o => encodeJump .be o
  | .jg o => encodeJump .g o
  | .jge o => encodeJump .ge o
  | .jl o => encodeJump .l o
  | .jle o => encodeJump .le o
  | .jmp o => encodeJump .always o
  | .jzl t => encodeLong 0b1100#4 .z t
  | .jnzl t => encodeLong 0b1100#4 .nz t
  | .jcl t => encodeLong 0b1100#4 .c t
  | .jncl t => encodeLong 0b1100#4 .nc t
  | .jsl t => encodeLong 0b1100#4 .s t
  | .jnsl t => encodeLong 0b1100#4 .ns t
  | .jol t => encodeLong 0b1100#4 .o t
  | .jnol t => encodeLong 0b1100#4 .no t
  | .jal t => encodeLong 0b1100#4 .a t
  | .jbel t => encodeLong 0b1100#4 .be t
  | .jgl t => encodeLong 0b1100#4 .g t
  | .jgel t => encodeLong 0b1100#4 .ge t
  | .jll t => encodeLong 0b1100#4 .l t
  | .jlel t => encodeLong 0b1100#4 .le t
  | .jmpl t => encodeLong 0b1100#4 .always t
  | .rz => encodeReturn .z
  | .rnz => encodeReturn .nz
  | .rc => encodeReturn .c
  | .rnc => encodeReturn .nc
  | .rs => encodeReturn .s
  | .rns => encodeReturn .ns
  | .ro => encodeReturn .o
  | .rno => encodeReturn .no
  | .ra => encodeReturn .a
  | .rbe => encodeReturn .be
  | .rg => encodeReturn .g
  | .rge => encodeReturn .ge
  | .rl => encodeReturn .l
  | .rle => encodeReturn .le
  | .ret => encodeReturn .always
  | .cz t => encodeLong 0b1010#4 .z t
  | .cnz t => encodeLong 0b1010#4 .nz t
  | .cc t => encodeLong 0b1010#4 .c t
  | .cnc t => encodeLong 0b1010#4 .nc t
  | .cs t => encodeLong 0b1010#4 .s t
  | .cns t => encodeLong 0b1010#4 .ns t
  | .co t => encodeLong 0b1010#4 .o t
  | .cno t => encodeLong 0b1010#4 .no t
  | .ca t => encodeLong 0b1010#4 .a t
  | .cbe t => encodeLong 0b1010#4 .be t
  | .cg t => encodeLong 0b1010#4 .g t
  | .cge t => encodeLong 0b1010#4 .ge t
  | .cl t => encodeLong 0b1010#4 .l t
  | .cle t => encodeLong 0b1010#4 .le t
  | .call t => encodeLong 0b1010#4 .always t
  | .int v => [0b10101111#8 ++ 0#1 ++ BitVec.ofNat 7 v]
  | .shr n d => encodeCount 0b000#3 n d
  | .shl n d => encodeCount 0b001#3 n d
  | .ror n d => encodeCount 0b010#3 n d
  | .rol n d => encodeCount 0b011#3 n d
  | .addi n d => encodeCount 0b100#3 n d
  | .subi n d => encodeCount 0b101#3 n d
  | .not d => encodeUnary 0b000#3 d
  | .neg d => encodeUnary 0b001#3 d
  | .cbw d => encodeUnary 0b100#3 d
  | .sti => [0xDFC0#16]
  | .cli => [0xDFC1#16]
  | .stc => [0xDFC2#16]
  | .clc => [0xDFC3#16]

end Sys2Proof
end

