-- ==== Sys2Proof/Config.lean ====
section
/-! DEFINITION. What the spec leaves to the implementation: its open parameters (00_scope.md section 4,
92_eei_decisions.md) as plain data, and the one that is a function as an opaque constant. -/

namespace Sys2Proof

/-- What backs an address: the five answers of `MEMMAP` (20_memory.md R148). -/
inductive RegionKind where
  /-- Internal RAM: read and written. -/
  | ram
  /-- Internal ROM: read, never written (R144). -/
  | rom
  /-- The control registers' region; the spec defines three of them (10_state.md R130). -/
  | control
  /-- Memory outside the chip: read and written like RAM (R140; log 13). -/
  | external
  /-- Nothing (R144). -/
  | absent
  deriving DecidableEq, Repr

/-- One run of addresses, `first` to `last` inclusive, of one kind. -/
structure Region where
  first : Nat
  last : Nat
  kind : RegionKind
  deriving DecidableEq, Repr

/-- `MEMMAP` as a table; an address no row covers is absent (R148). -/
abbrev MemMap := List Region

/-- The spec's open parameters that are plain data. The model takes them as an argument by holding them in its
state, so that a statement about every state holds for every value of them (log 1). -/
structure Params where
  /-- `MEMMAP` (20_memory.md R148). -/
  memMap : MemMap
  /-- `IRQ_VECTOR`: the vector number of each interrupt source (60_exceptions.md R321). -/
  irqVector : Vector (Fin 128) 48
  /-- `INTEN_LAYOUT`: the bit of 0xC00E that enables each source (R323). -/
  intEnableBit : Vector (Fin 16) 48
  /-- `REGBANK_LOW_READ`: whether bits 4..0 of REGBANK read back as written, or as zeros (10_state.md R116). -/
  regbankLowRead : Bool
  deriving DecidableEq, Repr

/-- `IRQ_PRIORITY`: the source taken among a set of simultaneously pending and enabled ones. The spec leaves the choice
open and asks that a proof hold for every choice function (60_exceptions.md R331): no body (log 14). Where the answer is
no member of the set the machine takes the spec's default, the lowest number (`Machine.chooseIrq`). -/
opaque Config.irqChoice : BitVec 48 → Fin 48

end Sys2Proof
end

