-- ==== Sys2Proof/Machine/Platform.lean ====
section
/-! DEFINITION. The values the model starts from where the spec gives none: the default of each open parameter and what
storage holds at reset. Each is named in the assumption log; no statement rests on one but `Obligations.ResetChoices`, which
is marked as the model's choice. -/

namespace Sys2Proof.Machine

/-- What a byte of memory that nothing has written reads as. The spec gives RAM and ROM no contents (10_state.md R131,
70_reset_and_hazards.md R352). DESIGN CHOICE, unsafe: log 3. -/
def unlistedByte : Byte := 0x00#8

/-- `MEMMAP` at reset: the family's map (93_implementation_defined.md G3), within R148's minimum. PRESUMED, unsafe: log 2. -/
def defaultMemMap : MemMap :=
  [ { first := 0x0000, last := 0x3FFF, kind := .ram },
    { first := 0x4000, last := 0xBFFF, kind := .external },
    { first := 0xC000, last := 0xC0FF, kind := .control },
    { first := 0xC100, last := 0xDFFF, kind := .external },
    { first := 0xE000, last := 0xFFFF, kind := .rom } ]

/-- The open parameters at reset: `MEMMAP` (log 2); `IRQ_VECTOR`, the spec's default that source `n` uses vector `n`
(60_exceptions.md R321), and `INTEN_LAYOUT`, source `n` enabled by bit `n mod 16` (log 16); `REGBANK_LOW_READ`, bits 4..0
read back as written (log 17). DESIGN CHOICE, unsafe. -/
def defaultParams : Params :=
  { memMap := defaultMemMap
    irqVector := #v[
      0, 1, 2, 3, 4, 5, 6, 7, 8, 9, 10, 11, 12, 13, 14, 15,
      16, 17, 18, 19, 20, 21, 22, 23, 24, 25, 26, 27, 28, 29, 30, 31,
      32, 33, 34, 35, 36, 37, 38, 39, 40, 41, 42, 43, 44, 45, 46, 47]
    intEnableBit := #v[
      0, 1, 2, 3, 4, 5, 6, 7, 8, 9, 10, 11, 12, 13, 14, 15,
      0, 1, 2, 3, 4, 5, 6, 7, 8, 9, 10, 11, 12, 13, 14, 15,
      0, 1, 2, 3, 4, 5, 6, 7, 8, 9, 10, 11, 12, 13, 14, 15]
    regbankLowRead := true }

/-- `RESET_SP`: what `r15` holds at reset, the top of the family's start-up stack (10_state.md R131; PG "initializes R15 to
the top of the software Call Stack"). PRESUMED, unsafe: log 4. -/
def resetStackPointer : Word := 0x0400#16

end Sys2Proof.Machine
end

