-- ==== Sys2Proof/Machine/State.lean ====
section
/-! DEFINITION. The machine's state as plain data (10_state.md R110), the reasons a step stops, and the state after reset. -/

namespace Sys2Proof.Machine

/-- The five flags (10_state.md R117 to R122). Bits 15..5 of the flags register are no state: they read as 0. -/
structure Flags where
  /-- Zero, bit 0 (R118). -/
  z : Bool
  /-- Carry or borrow, bit 1 (R119). -/
  c : Bool
  /-- Signed overflow, bit 2 (R120). -/
  o : Bool
  /-- Sign, bit 3 (R121). -/
  s : Bool
  /-- Global interrupt enable, bit 4 (R122). -/
  i : Bool
  deriving DecidableEq, Repr

/-- Memory: the bytes that differ from `unlistedByte`, addresses strictly rising (20_memory.md R140; `Memory.wf`). -/
abbrev Memory := List Host.Cell

/-- The state of the machine: what 10_state.md R110 lists, and the two fields of the model's own, `params` and `irqInputs`.
The registers `r0` to `r15` are words of `mem` (R112, R113). -/
structure State where
  /-- The unified memory, the register banks and the vector table within it (20_memory.md R140). -/
  mem : Memory
  /-- The program counter (10_state.md R125). -/
  pc : Word
  /-- REGBANK, 0xC002 (R116). -/
  regbank : Word
  /-- The flags register, 0xC000 (R117). -/
  flags : Flags
  /-- The Interrupt Enable register, 0xC00E (R128). -/
  intEnable : Word
  /-- The pending latches: bit `n` is `pend[n]` (R129, 60_exceptions.md R324). -/
  pend : BitVec 48
  /-- The model's own: the interrupt sources that make a request at each instruction boundary to come (R321, R335; log 15). -/
  irqInputs : List (BitVec 48)
  /-- The model's own: the spec's open parameters, which no step changes (00_scope.md section 4; log 1). -/
  params : Params
  deriving DecidableEq, Repr

/-- Why the machine stops: the ModelFault causes of 60_exceptions.md R320. None is an event of the hardware; each marks the
edge of what the spec defines, and no state follows it. All are safe: the model stops where the hardware does something the
spec does not say. -/
inductive Fault where
  /-- The fetched word is reserved (30_encoding.md R186). Raised by fetching, safe. `truncated` never arises in a step, which
  fetches every word of an instruction. -/
  | reservedEncoding (why : DecodeError)
  /-- The destination is Immediate (30_encoding.md R186 E-h, 40_operands.md R202). Raised by locating a destination, safe; no
  decoded instruction reaches it. -/
  | immediateDestination
  /-- A word access at an odd address, odd `pc` and odd `r15` among them (20_memory.md R143). Raised by every word access, safe. -/
  | misalignedWord (a : Word)
  /-- A byte access to 0xC000, 0xC002 or 0xC00E or the byte after one (R145). Raised by byte accesses, safe. -/
  | byteControlAccess (a : Word)
  /-- An address MEMMAP does not back (R144, R148). Raised by every access, safe. -/
  | unbackedAddress (a : Word)
  /-- A write to ROM (R144). Raised by writes, safe. -/
  | romWrite (a : Word)
  /-- A control register the spec does not define (R144, 10_state.md R130). Raised by every access, safe. -/
  | undefinedControlRegister (a : Word)
  /-- A register of a bank that is not read-write memory (93_implementation_defined.md U14). Raised by register accesses, safe. -/
  | bankNotMemory (a : Word)
  /-- The flags register as the destination of an instruction that itself sets flags (10_state.md R123). Raised by every such
  instruction, CMP and TEST among them, safe. -/
  | flagsDestination
  /-- `[r15]` as a destination that is read and written (40_operands.md R207). Raised by locating a destination, safe. -/
  | readModifyWriteStack
  /-- A taken Ccc whose operand names `r15` (42_program_control.md R254). Raised by calls, safe. -/
  | callThroughStackPointer
  /-- An odd control-transfer target (R257). Raised by JccL, Rcc, Ccc, INT and interrupt entry, safe. -/
  | oddTarget (t : Word)
  deriving DecidableEq, Repr

/-- Why the model has no meaning for an instruction. -/
inductive Refusal where
  /-- The instruction has no meaning in the model; raised by `exec`'s arm alone, safe. No arm raises it now. -/
  | notModelled (mnemonic : String)
  deriving DecidableEq, Repr

/-- The machine right after a hardware reset (10_state.md R131, 70_reset_and_hazards.md R350): `pc` and REGBANK as the spec
gives them; every other value named in the log (3 to 6, 15). Memory lists nothing but `r15`, whose word is at 0x011E (log 4). -/
def State.reset : State :=
  { mem := [(0x011F, highByte resetStackPointer)]
    pc := 0xFFF0#16
    regbank := 0x0100#16
    flags := { z := false, c := false, o := false, s := false, i := false }
    intEnable := 0x0000#16
    pend := 0#48
    irqInputs := []
    params := defaultParams }

end Sys2Proof.Machine
end

