-- ==== Sys2Proof/Machine/Flags.lean ====
section
/-! DEFINITION. The flags register as a word, the flags each kind of operation computes, and the conditions. -/

namespace Sys2Proof.Machine

/-- What a word read of 0xC000 returns: `I S O C Z` in bits 4..0, zeros above (10_state.md R123). -/
def Flags.toWord (f : Flags) : Word :=
  0#11 ++ BitVec.ofBool f.i ++ BitVec.ofBool f.s ++ BitVec.ofBool f.o ++ BitVec.ofBool f.c ++ BitVec.ofBool f.z

/-- What a word write of `v` to 0xC000 sets; bits 15..5 are discarded (R123). -/
def Flags.ofWord (v : Word) : Flags :=
  { z := v.getLsbD 0, c := v.getLsbD 1, o := v.getLsbD 2, s := v.getLsbD 3, i := v.getLsbD 4 }

/-- `Z` and `S` of a 16-bit result; the other flags stay (R118, R121, R124; 41_dual_operand.md R232). -/
def Flags.setZS (f : Flags) (r : Word) : Flags := { f with z := r == 0#16, s := r.msb }

/-- Whether an exact signed result lies in -32768 .. 32767 (10_state.md R120). -/
def fitsSigned (x : Int) : Bool := decide (-32768 ≤ x ∧ x ≤ 32767)

/-- The addition law, `d + s + cin` (41_dual_operand.md R230). -/
def addLaw (d s : Word) (cin : Bool) (f : Flags) : Word × Flags :=
  let t := d.toNat + s.toNat + cin.toNat
  let r := BitVec.ofNat 16 t
  (r, { f.setZS r with c := decide (2 ^ 16 ≤ t), o := !fitsSigned (d.toInt + s.toInt + cin.toNat) })

/-- The subtraction law, `d - s - bin`; `C` is a borrow (R231). -/
def subLaw (d s : Word) (bin : Bool) (f : Flags) : Word × Flags :=
  let t : Int := d.toNat - s.toNat - bin.toNat
  let r := BitVec.ofInt 16 t
  (r, { f.setZS r with c := decide (t < 0), o := !fitsSigned (d.toInt - s.toInt - bin.toNat) })

/-- The logic law: `Z` and `S` of the result `r`; `C` and `O` stay (R232). ADDI, SUBI, NOT and CBW write the same flags
(43_single_operand.md R275 to R279). -/
def logicLaw (r : Word) (f : Flags) : Word × Flags := (r, f.setZS r)

/-- `Z`, `S` of a shifted or rotated value and `C`, the last bit moved out; `O` stays (R271 to R274). -/
def shiftLaw (r : Word) (last : Bool) (f : Flags) : Word × Flags := (r, { f.setZS r with c := last })

/-- SHR: arithmetic shift right by `k` in 1..8, `C = d[k - 1]` (R271). -/
def shiftRight (k : Nat) (d : Word) (f : Flags) : Word × Flags := shiftLaw (d.sshiftRight k) (d.getLsbD (k - 1)) f

/-- SHL: shift left by `k`, `C = d[16 - k]` (R272). -/
def shiftLeft (k : Nat) (d : Word) (f : Flags) : Word × Flags := shiftLaw (d <<< k) (d.getLsbD (16 - k)) f

/-- ROR: 16-bit rotate right by `k`, not through `C`; `C = d[k - 1]` (R273). -/
def rotateRight (k : Nat) (d : Word) (f : Flags) : Word × Flags :=
  shiftLaw ((d >>> k) ||| (d <<< (16 - k))) (d.getLsbD (k - 1)) f

/-- ROL: 16-bit rotate left by `k`, not through `C`; `C = d[16 - k]` (R274). -/
def rotateLeft (k : Nat) (d : Word) (f : Flags) : Word × Flags :=
  shiftLaw ((d <<< k) ||| (d >>> (16 - k))) (d.getLsbD (16 - k)) f

/-- CBW's result: the low byte sign-extended (R279). -/
def signExtendByte (d : Word) : Word := (d.extractLsb' 0 8).signExtend 16

/-- The count of format S: the field plus one, 1..8 (30_encoding.md R185). -/
def countOf (n : Fin 8) : Nat := n.val + 1

/-- `cond(cccc)` (42_program_control.md R250); `I` takes no part. -/
def condHolds (cnd : Cond) (f : Flags) : Bool :=
  match cnd with
  | .z => f.z
  | .nz => !f.z
  | .c => f.c
  | .nc => !f.c
  | .s => f.s
  | .ns => !f.s
  | .o => f.o
  | .no => !f.o
  | .a => !f.z && !f.c
  | .be => f.z || f.c
  | .g => f.o == f.s && !f.z
  | .ge => f.o == f.s
  | .l => f.o != f.s
  | .le => f.o != f.s || f.z
  | .always => true

end Sys2Proof.Machine
end

