-- ==== Sys2Proof/Machine/Ops.lean ====
section
/-! DEFINITION. The named operations: memory, the access primitives, registers, the stack, control transfer, and taking a
hardware interrupt. Every operation that can stop answers `Except Fault`. -/

namespace Sys2Proof.Machine

/-! Updates of one field. -/

/-- The state with another `pc`. -/
def State.setPc (s : State) (v : Word) : State := { s with pc := v }

/-- The state with other flags. -/
def State.setFlags (s : State) (f : Flags) : State := { s with flags := f }

/-- The state with the pending latch of source `n` cleared (60_exceptions.md R326). -/
def State.clearPend (s : State) (n : Fin 48) : State := { s with pend := s.pend &&& ~~~(1#48 <<< n.val) }

/-! Memory as a list of cells. -/

/-- One byte of memory; an unlisted address reads as `unlistedByte`. -/
def Memory.read : Memory → Nat → Byte
  | [], _ => unlistedByte
  | (k, b) :: m, a => if k = a then b else Memory.read m a

/-- One byte written, keeping the canonical form: addresses rising, no cell equal to `unlistedByte`. -/
def Memory.write : Memory → Nat → Byte → Memory
  | [], a, v => if v = unlistedByte then [] else [(a, v)]
  | (k, b) :: m, a, v =>
    if a < k then (if v = unlistedByte then (k, b) :: m else (a, v) :: (k, b) :: m)
    else if a = k then (if v = unlistedByte then m else (a, v) :: m)
    else (k, b) :: Memory.write m a v

/-- The canonical form: addresses strictly rising within the 65,536 of the space (20_memory.md R140), no cell holding what
an unlisted address reads as. -/
abbrev Memory.wf (m : Memory) : Prop :=
  m.Pairwise (fun x y => x.1 < y.1) ∧ ∀ c ∈ m, c.1 < 65536 ∧ c.2 ≠ unlistedByte

/-- The byte of memory at a 16-bit address, whatever MEMMAP says of it. -/
def byteAt (s : State) (a : Word) : Byte := s.mem.read a.toNat

/-- Memory with the byte at a 16-bit address replaced. -/
def State.putByte (s : State) (a : Word) (v : Byte) : State := { s with mem := s.mem.write a.toNat v }

/-! MEMMAP and the control registers. -/

/-- What `MEMMAP` says of an address: the first row that covers it; none is absent (20_memory.md R148). -/
def kindAt (m : MemMap) (a : Word) : RegionKind :=
  match m.find? (fun r => decide (r.first ≤ a.toNat) && decide (a.toNat ≤ r.last)) with
  | some r => r.kind
  | none => .absent

/-- The flags register (10_state.md R117). -/
def flagsAddr : Word := 0xC000#16
/-- REGBANK (R116). -/
def regbankAddr : Word := 0xC002#16
/-- Interrupt Enable (R128). -/
def intEnableAddr : Word := 0xC00E#16

/-- The three control registers the spec defines (20_memory.md R144). -/
def isControlWord (a : Word) : Bool := a == flagsAddr || a == regbankAddr || a == intEnableAddr

/-- Their six bytes (R145). -/
def isControlByte (a : Word) : Bool := isControlWord a || isControlWord (a - 1)

/-- Why one byte of storage cannot be read, if it cannot (R144, R148). -/
def byteReadFault (s : State) (a : Word) : Option Fault :=
  match kindAt s.params.memMap a with
  | .ram | .rom | .external => none
  | .control => some (.undefinedControlRegister a)
  | .absent => some (.unbackedAddress a)

/-- Why one byte of storage cannot be written, if it cannot (R144, R148). -/
def byteWriteFault (s : State) (a : Word) : Option Fault :=
  match kindAt s.params.memMap a with
  | .ram | .external => none
  | .rom => some (.romWrite a)
  | .control => some (.undefinedControlRegister a)
  | .absent => some (.unbackedAddress a)

/-- Why a read of width `w` stops, if it stops: the checks of MemRead in their order (R143, R144, R145). -/
def readFault (w : Width) (a : Word) (s : State) : Option Fault :=
  match w with
  | .byte => if isControlByte a then some (.byteControlAccess a) else byteReadFault s a
  | .word =>
    if a.getLsbD 0 then some (.misalignedWord a)
    else if isControlWord a then none
    else (byteReadFault s a).or (byteReadFault s (a + 1))

/-- Why a write of width `w` stops, if it stops: the checks of MemWrite in their order (R143, R144, R145). -/
def writeFault (w : Width) (a : Word) (s : State) : Option Fault :=
  match w with
  | .byte => if isControlByte a then some (.byteControlAccess a) else byteWriteFault s a
  | .word =>
    if a.getLsbD 0 then some (.misalignedWord a)
    else if isControlWord a then none
    else (byteWriteFault s a).or (byteWriteFault s (a + 1))

/-- What REGBANK reads as: bits 4..0 by `REGBANK_LOW_READ` (10_state.md R116). -/
def regbankRead (s : State) : Word :=
  if s.params.regbankLowRead then s.regbank else s.regbank &&& 0xFFE0#16

/-- The value a read that does not stop delivers: a control register or bytes of memory, a byte zero-extended (20_memory.md
R142, R144; 40_operands.md R209). -/
def peek (w : Width) (a : Word) (s : State) : Word :=
  match w with
  | .byte => zeroExtend (byteAt s a)
  | .word =>
    if a = flagsAddr then s.flags.toWord
    else if a = regbankAddr then regbankRead s
    else if a = intEnableAddr then s.intEnable
    else wordOfBytes (byteAt s a) (byteAt s (a + 1))

/-- The state after a write that does not stop: a control register or bytes of memory; a byte write stores the low byte
(20_memory.md R142, R144; 40_operands.md R209). -/
def poke (w : Width) (a v : Word) (s : State) : State :=
  match w with
  | .byte => s.putByte a (lowByte v)
  | .word =>
    if a = flagsAddr then s.setFlags (Flags.ofWord v)
    else if a = regbankAddr then { s with regbank := v }
    else if a = intEnableAddr then { s with intEnable := v }
    else (s.putByte a (lowByte v)).putByte (a + 1) (highByte v)

/-- MemRead and Load: the 16-bit value at an address (20_memory.md R144, 40_operands.md R209). -/
def load (w : Width) (a : Word) (s : State) : Except Fault Word :=
  match readFault w a s with
  | some f => .error f
  | none => .ok (peek w a s)

/-- MemWrite and Store (20_memory.md R144, 40_operands.md R209). -/
def store (w : Width) (a v : Word) (s : State) : Except Fault State :=
  match writeFault w a s with
  | some f => .error f
  | none => .ok (poke w a v s)

/-! Registers. -/

/-- `regaddr(i)` (10_state.md R112). -/
def regAddr (i : RegNum) (s : State) : Word := (s.regbank &&& 0xFFE0#16) ||| (BitVec.ofNat 16 i.val <<< 1)

/-- Whether an address is read-write memory by MEMMAP. -/
def isReadWrite (s : State) (a : Word) : Bool :=
  match kindAt s.params.memMap a with
  | .ram | .external => true
  | .rom | .control | .absent => false

/-- Why a register cannot be accessed, if it cannot: registers are "mapped into RAM" (R112); a bank that overlays a control
register or is not read-write memory is refused (93_implementation_defined.md U14; log 11). -/
def regFault (i : RegNum) (s : State) : Option Fault :=
  let a := regAddr i s
  if !isControlWord a && isReadWrite s a && isReadWrite s (a + 1) then none else some (.bankNotMemory a)

/-- The value of register `i` where it can be accessed: the word of memory at `regaddr(i)` (R112, R113). -/
def peekReg (i : RegNum) (s : State) : Word := wordOfBytes (byteAt s (regAddr i s)) (byteAt s (regAddr i s + 1))

/-- The state with register `i` replaced (R112, R113). -/
def pokeReg (i : RegNum) (v : Word) (s : State) : State :=
  (s.putByte (regAddr i s) (lowByte v)).putByte (regAddr i s + 1) (highByte v)

/-- `x[i]` (R112). -/
def readReg (i : RegNum) (s : State) : Except Fault Word :=
  match regFault i s with
  | some f => .error f
  | none => .ok (peekReg i s)

/-- `x[i] <- v` (R112). -/
def writeReg (i : RegNum) (v : Word) (s : State) : Except Fault State :=
  match regFault i s with
  | some f => .error f
  | none => .ok (pokeReg i v s)

/-- The stack pointer `r15` (R114). -/
def spReg : RegNum := 15

/-- The register `r(8 + p)` of the Indirect and Auto Increment modes (30_encoding.md R178). -/
def ptrReg (p : PtrReg) : RegNum := ⟨8 + p.val, by omega⟩

/-- The register `r(8 + p)` of the Index mode (30_encoding.md R178). -/
def baseReg (p : BaseReg) : RegNum := ⟨8 + p.val, by omega⟩

/-- The size of an access in bytes (40_operands.md R209). -/
def sizeOf : Width → Word
  | .word => 2#16
  | .byte => 1#16

/-! The stack and control transfer. -/

/-- `Push(v)` (40_operands.md R214). -/
def push (v : Word) (s : State) : Except Fault State := do
  let sp ← readReg spReg s
  let s ← writeReg spReg (sp - 2#16) s
  store .word (sp - 2#16) v s

/-- `Pop()` (R214). -/
def pop (s : State) : Except Fault (Word × State) := do
  let sp ← readReg spReg s
  let v ← load .word sp s
  let s ← writeReg spReg (sp + 2#16) s
  pure (v, s)

/-- `pc <- t`; an odd target is a ModelFault (42_program_control.md R257). -/
def jumpTo (t : Word) (s : State) : Except Fault State :=
  if t.getLsbD 0 then .error (.oddTarget t) else .ok (s.setPc t)

/-- The return, which is also the return from a handler: `pc <- Pop()` (R253; 60_exceptions.md R328). It restores nothing
but `pc` and `r15`. -/
def returnFromStack (s : State) : Except Fault State := do
  let (t, s) ← pop s
  jumpTo t s

/-- The byte address of a vector's table entry, `2 * v` (30_encoding.md R184, 60_exceptions.md R322). -/
def vectorAddr (v : Fin 128) : Word := BitVec.ofNat 16 v.val * 2#16

/-- `pc` pushed and loaded from the vector table: INT (42_program_control.md R255). -/
def callVector (v : Fin 128) (s : State) : Except Fault State := do
  let s ← push s.pc s
  let t ← load .word (vectorAddr v) s
  jumpTo t s

/-! Hardware interrupts. -/

/-- A request is latched: the sources asking at this boundary join the pending ones, and the input moves on (60_exceptions.md
R324, R335; log 15, 26). -/
def latchRequests (s : State) : State :=
  match s.irqInputs with
  | [] => s
  | req :: rest => { s with pend := s.pend ||| req, irqInputs := rest }

/-- `enabled(n)`: the source's bit of the Interrupt Enable register, by `INTEN_LAYOUT` (R323). -/
def irqEnabled (s : State) (n : Fin 48) : Bool := s.intEnable.getLsbD (s.params.intEnableBit[n]).val

/-- The set `E` of pending and enabled sources, lowest number first (R325). -/
def readySources (s : State) : List (Fin 48) :=
  (List.finRange 48).filter (fun n => s.pend.getLsbD n.val && irqEnabled s n)

/-- `IRQ_PRIORITY(E)`: any member of the set; the spec's default, the lowest number, where `Config.irqChoice` names none of
its members (R331; log 14). -/
def chooseIrq : List (Fin 48) → Option (Fin 48)
  | [] => none
  | [n] => some n
  | n :: m :: e =>
    if Config.irqChoice (irqSet (n :: m :: e)) ∈ n :: m :: e then some (Config.irqChoice (irqSet (n :: m :: e))) else some n
where
  /-- The set as 48 bits. -/
  irqSet (e : List (Fin 48)) : BitVec 48 := e.foldl (fun acc k => acc ||| (1#48 <<< k.val)) 0#48

/-- The interrupt taken at an instruction boundary, if any (R325). -/
def recognise (s : State) : Option (Fin 48) := if s.flags.i then chooseIrq (readySources s) else none

/-- Taking hardware interrupt `n` (R326): its latch is cleared, `pc` pushed, `I` cleared, `pc` loaded from the vector table.
Nothing else changes; in particular the flags are not saved (R327). -/
def takeInterrupt (n : Fin 48) (s : State) : Except Fault State := do
  let s ← push s.pc (s.clearPend n)
  let s := s.setFlags { s.flags with i := false }
  let t ← load .word (vectorAddr s.params.irqVector[n]) s
  jumpTo t s

/-- The outcome of an operation that can stop. -/
def toOutcome : Except Fault State → Host.Outcome State Fault Refusal
  | .ok s => .next s
  | .error f => .fault f

end Sys2Proof.Machine
end

