-- ==== Sys2Proof/Machine/Operands.lean ====
section
/-! DEFINITION. The operand forms (40_operands.md R200 to R213) and the shapes of instruction built on them. -/

namespace Sys2Proof.Machine

/-- How an instruction uses an operand: MOV writes its destination, a source and the destination of CMP and TEST are read, the
other destinations are read and written (R202). -/
inductive Access where
  | write
  | read
  | readWrite
  deriving DecidableEq, Repr

/-- The address of an operand: the effective address of a memory mode (R205 to R211), two below `r15` where `[r15]` is written
(R207), and `regaddr(i)` of a register (10_state.md R112). An Immediate has none. -/
def operandAddress (acc : Access) (op : Operand) (s : State) : Except Fault Word :=
  match op with
  | .reg r => .ok (regAddr r s)
  | .imm _ => .error .immediateDestination
  | .stack => do
    let sp ← readReg spReg s
    pure (if acc = .write then sp - 2#16 else sp)
  | .ind _ p => readReg (ptrReg p) s
  | .direct _ a => .ok a
  | .autoInc _ p => readReg (ptrReg p) s
  | .index _ p off => do
    let b ← readReg (baseReg p) s
    pure (b + off)

/-- `ReadOperand`: the value of an operand that is read, and the state after its side effect (R201, R203 to R211). -/
def readOperand (op : Operand) (s : State) : Except Fault (Word × State) :=
  match op with
  | .reg r => do
    let v ← readReg r s
    pure (v, s)
  | .imm v => .ok (v, s)
  | .stack => pop s
  | .ind w _ | .direct w _ | .index w _ _ => do
    let a ← operandAddress .read op s
    let v ← load w a s
    pure (v, s)
  | .autoInc w p => do
    let a ← operandAddress .read op s
    let v ← load w a s
    let s ← writeReg (ptrReg p) (a + sizeOf w) s
    pure (v, s)

/-- Where a destination is (R202). -/
inductive Place where
  /-- A register. -/
  | reg (r : RegNum)
  /-- An address in memory, word or byte wide. -/
  | mem (w : Width) (a : Word)
  deriving DecidableEq, Repr

/-- A located destination: the place, and the register update that `LocFinish` still has to do (R202). -/
structure Located where
  place : Place
  pending : Option (RegNum × Word)
  deriving DecidableEq, Repr

/-- `Locate`: the place of a destination, and the state after the pre-decrement of a push (R202, R207). -/
def locate (acc : Access) (op : Operand) (s : State) : Except Fault (Located × State) :=
  match op with
  | .reg r => .ok (⟨.reg r, none⟩, s)
  | .imm _ => .error .immediateDestination
  | .stack =>
    match acc with
    | .write => do
      let a ← operandAddress .write .stack s
      let s ← writeReg spReg a s
      pure (⟨.mem .word a, none⟩, s)
    | .read => do
      let a ← operandAddress .read .stack s
      pure (⟨.mem .word a, some (spReg, a + 2#16)⟩, s)
    | .readWrite => .error .readModifyWriteStack
  | .ind w _ | .direct w _ | .index w _ _ => do
    let a ← operandAddress acc op s
    pure (⟨.mem w a, none⟩, s)
  | .autoInc w p => do
    let a ← operandAddress acc op s
    pure (⟨.mem w a, some (ptrReg p, a + sizeOf w)⟩, s)

/-- `LocRead` (R202). -/
def readPlace (p : Place) (s : State) : Except Fault Word :=
  match p with
  | .reg r => readReg r s
  | .mem w a => load w a s

/-- `LocWrite` (R202). -/
def writePlace (p : Place) (v : Word) (s : State) : Except Fault State :=
  match p with
  | .reg r => writeReg r v s
  | .mem w a => store w a v s

/-- `LocFinish`: the pending side effect, if there is one (R202). -/
def finishPlace (l : Located) (s : State) : Except Fault State :=
  match l.pending with
  | none => .ok s
  | some (r, v) => writeReg r v s

/-- A place that is the flags register (10_state.md R123). -/
def Place.isFlags (p : Place) : Bool := p == .mem .word flagsAddr

/-- What an instruction computes from the old flags and the destination's value: the result and the new flags. -/
abbrev AluOp := Flags → Word → Word × Flags

/-- A destination that is only written: MOV (R212 steps 5, 8, 9). -/
def writeDst (dst : Operand) (v : Word) (s : State) : Except Fault State := do
  let (l, s) ← locate .write dst s
  let s ← writePlace l.place v s
  finishPlace l s

/-- A destination that is read and written, once located (R212 steps 5 to 9, R213). The instruction sets flags, so the flags
register as the place is a ModelFault (10_state.md R123). -/
def modifyDst (f : AluOp) (dst : Operand) (s : State) : Except Fault State := do
  let (l, s) ← locate .readWrite dst s
  let d ← readPlace l.place s
  if l.place.isFlags then .error .flagsDestination
  else do
    let (r, fl) := f s.flags d
    let s ← writePlace l.place r (s.setFlags fl)
    finishPlace l s

/-- A destination that is only read: CMP, TEST; the result is discarded (R212 steps 5, 6, 7, 9). These set flags too, so the
flags register as the place is a ModelFault (10_state.md R123, 60_exceptions.md R320). -/
def compareDst (f : AluOp) (dst : Operand) (s : State) : Except Fault State := do
  let (l, s) ← locate .read dst s
  let d ← readPlace l.place s
  if l.place.isFlags then .error .flagsDestination
  else do
    let (_, fl) := f s.flags d
    finishPlace l (s.setFlags fl)

/-- A dual operand instruction that modifies its destination: the source is read first, with its side effect (R212). -/
def dualModify (f : Word → AluOp) (src dst : Operand) (s : State) : Except Fault State := do
  let (v, s) ← readOperand src s
  modifyDst (f v) dst s

/-- A dual operand instruction that only compares (R212). -/
def dualCompare (f : Word → AluOp) (src dst : Operand) (s : State) : Except Fault State := do
  let (v, s) ← readOperand src s
  compareDst (f v) dst s

/-- An operand field that names `r15`: 001111, 010111, 110111, 111111 (42_program_control.md R254). -/
def namesStackPointer : Operand → Bool
  | .reg r => r == spReg
  | .stack => true
  | .index _ p _ => baseReg p == spReg
  | .imm _ | .ind _ _ | .direct _ _ | .autoInc _ _ => false

end Sys2Proof.Machine
end

