-- ==== Sys2Proof/Machine/Calls.lean ====
section
/-! DEFINITION. The calls and the software interrupt (42_program_control.md R254, R255). -/

namespace Sys2Proof.Machine

/-- Ccc, "CALL cccc": the address of the next instruction is pushed, then the operand is read and its value is the target;
if the condition is false nothing is pushed and the operand is not evaluated (R254). A taken call whose operand names `r15`
is a ModelFault (R254). -/
def callOn (cnd : Cond) (target : Operand) (s : State) : Except Fault State :=
  if condHolds cnd s.flags then
    if namesStackPointer target then .error .callThroughStackPointer
    else do
      let s ← push s.pc s
      let (t, s) ← readOperand target s
      jumpTo t s
  else .ok s

/-- CZ (R254). -/
def execCz (target : Operand) (s : State) : Host.Outcome State Fault Refusal :=
  toOutcome (callOn .z target s)

/-- CNZ (R254). -/
def execCnz (target : Operand) (s : State) : Host.Outcome State Fault Refusal :=
  toOutcome (callOn .nz target s)

/-- CC (R254). -/
def execCc (target : Operand) (s : State) : Host.Outcome State Fault Refusal :=
  toOutcome (callOn .c target s)

/-- CNC (R254). -/
def execCnc (target : Operand) (s : State) : Host.Outcome State Fault Refusal :=
  toOutcome (callOn .nc target s)

/-- CS (R254). -/
def execCs (target : Operand) (s : State) : Host.Outcome State Fault Refusal :=
  toOutcome (callOn .s target s)

/-- CNS (R254). -/
def execCns (target : Operand) (s : State) : Host.Outcome State Fault Refusal :=
  toOutcome (callOn .ns target s)

/-- CO (R254). -/
def execCo (target : Operand) (s : State) : Host.Outcome State Fault Refusal :=
  toOutcome (callOn .o target s)

/-- CNO (R254). -/
def execCno (target : Operand) (s : State) : Host.Outcome State Fault Refusal :=
  toOutcome (callOn .no target s)

/-- CA (R254). -/
def execCa (target : Operand) (s : State) : Host.Outcome State Fault Refusal :=
  toOutcome (callOn .a target s)

/-- CBE (R254). -/
def execCbe (target : Operand) (s : State) : Host.Outcome State Fault Refusal :=
  toOutcome (callOn .be target s)

/-- CG (R254). -/
def execCg (target : Operand) (s : State) : Host.Outcome State Fault Refusal :=
  toOutcome (callOn .g target s)

/-- CGE (R254). -/
def execCge (target : Operand) (s : State) : Host.Outcome State Fault Refusal :=
  toOutcome (callOn .ge target s)

/-- CL (R254). -/
def execCl (target : Operand) (s : State) : Host.Outcome State Fault Refusal :=
  toOutcome (callOn .l target s)

/-- CLE (R254). -/
def execCle (target : Operand) (s : State) : Host.Outcome State Fault Refusal :=
  toOutcome (callOn .le target s)

/-- CALL (R254). -/
def execCall (target : Operand) (s : State) : Host.Outcome State Fault Refusal :=
  toOutcome (callOn .always target s)

/-- INT: a call through the vector table; no flag changes, `I` least of all (R255). -/
def execInt (v : Fin 128) (s : State) : Host.Outcome State Fault Refusal :=
  toOutcome (callVector v s)

end Sys2Proof.Machine
end

