-- ==== Sys2Proof/Machine/DualOperand.lean ====
section
/-! DEFINITION. The dual operand instructions (41_dual_operand.md R233 to R243). -/

namespace Sys2Proof.Machine

/-- MOV: Destination := Source; no flag is affected (R233). -/
def execMov (src dst : Operand) (s : State) : Host.Outcome State Fault Refusal :=
  toOutcome (do
    let (v, s) ← readOperand src s
    writeDst dst v s)

/-- ADD: Destination := Destination + Source (R234). -/
def execAdd (src dst : Operand) (s : State) : Host.Outcome State Fault Refusal :=
  toOutcome (dualModify (fun v fl d => addLaw d v false fl) src dst s)

/-- ADDC: Destination := Destination + Source + Carry, the carry as it was before (R235). -/
def execAddc (src dst : Operand) (s : State) : Host.Outcome State Fault Refusal :=
  toOutcome (dualModify (fun v fl d => addLaw d v fl.c fl) src dst s)

/-- SUB: Destination := Destination - Source (R236). -/
def execSub (src dst : Operand) (s : State) : Host.Outcome State Fault Refusal :=
  toOutcome (dualModify (fun v fl d => subLaw d v false fl) src dst s)

/-- SUBB: Destination := Destination - Source - Carry, the carry as it was before (R237). -/
def execSubb (src dst : Operand) (s : State) : Host.Outcome State Fault Refusal :=
  toOutcome (dualModify (fun v fl d => subLaw d v fl.c fl) src dst s)

/-- CMP: the flags of Destination - Source; the destination is not written (R238). -/
def execCmp (src dst : Operand) (s : State) : Host.Outcome State Fault Refusal :=
  toOutcome (dualCompare (fun v fl d => subLaw d v false fl) src dst s)

/-- AND: Destination := Destination & Source (R239). -/
def execAnd (src dst : Operand) (s : State) : Host.Outcome State Fault Refusal :=
  toOutcome (dualModify (fun v fl d => logicLaw (d &&& v) fl) src dst s)

/-- TEST: the flags of Destination & Source; the destination is not written (R240). -/
def execTest (src dst : Operand) (s : State) : Host.Outcome State Fault Refusal :=
  toOutcome (dualCompare (fun v fl d => logicLaw (d &&& v) fl) src dst s)

/-- OR: Destination := Destination | Source (R241). -/
def execOr (src dst : Operand) (s : State) : Host.Outcome State Fault Refusal :=
  toOutcome (dualModify (fun v fl d => logicLaw (d ||| v) fl) src dst s)

/-- XOR: Destination := Destination ^ Source (R242). -/
def execXor (src dst : Operand) (s : State) : Host.Outcome State Fault Refusal :=
  toOutcome (dualModify (fun v fl d => logicLaw (d ^^^ v) fl) src dst s)

end Sys2Proof.Machine
end

