-- ==== Sys2Proof/Machine/LongJumps.lean ====
section
/-! DEFINITION. The jumps to an operand's value (42_program_control.md R252). -/

namespace Sys2Proof.Machine

/-- JccL, "JUMP ABSOLUTE cccc": the operand is read and its value is the target; if the condition is false it is not
evaluated (R252). -/
def jumpLong (cnd : Cond) (target : Operand) (s : State) : Except Fault State :=
  if condHolds cnd s.flags then do
    let (t, s) ← readOperand target s
    jumpTo t s
  else .ok s

/-- JZL (R252). -/
def execJzl (target : Operand) (s : State) : Host.Outcome State Fault Refusal :=
  toOutcome (jumpLong .z target s)

/-- JNZL (R252). -/
def execJnzl (target : Operand) (s : State) : Host.Outcome State Fault Refusal :=
  toOutcome (jumpLong .nz target s)

/-- JCL (R252). -/
def execJcl (target : Operand) (s : State) : Host.Outcome State Fault Refusal :=
  toOutcome (jumpLong .c target s)

/-- JNCL (R252). -/
def execJncl (target : Operand) (s : State) : Host.Outcome State Fault Refusal :=
  toOutcome (jumpLong .nc target s)

/-- JSL (R252). -/
def execJsl (target : Operand) (s : State) : Host.Outcome State Fault Refusal :=
  toOutcome (jumpLong .s target s)

/-- JNSL (R252). -/
def execJnsl (target : Operand) (s : State) : Host.Outcome State Fault Refusal :=
  toOutcome (jumpLong .ns target s)

/-- JOL (R252). -/
def execJol (target : Operand) (s : State) : Host.Outcome State Fault Refusal :=
  toOutcome (jumpLong .o target s)

/-- JNOL (R252). -/
def execJnol (target : Operand) (s : State) : Host.Outcome State Fault Refusal :=
  toOutcome (jumpLong .no target s)

/-- JAL (R252). -/
def execJal (target : Operand) (s : State) : Host.Outcome State Fault Refusal :=
  toOutcome (jumpLong .a target s)

/-- JBEL (R252). -/
def execJbel (target : Operand) (s : State) : Host.Outcome State Fault Refusal :=
  toOutcome (jumpLong .be target s)

/-- JGL (R252). -/
def execJgl (target : Operand) (s : State) : Host.Outcome State Fault Refusal :=
  toOutcome (jumpLong .g target s)

/-- JGEL (R252). -/
def execJgel (target : Operand) (s : State) : Host.Outcome State Fault Refusal :=
  toOutcome (jumpLong .ge target s)

/-- JLL (R252). -/
def execJll (target : Operand) (s : State) : Host.Outcome State Fault Refusal :=
  toOutcome (jumpLong .l target s)

/-- JLEL (R252). -/
def execJlel (target : Operand) (s : State) : Host.Outcome State Fault Refusal :=
  toOutcome (jumpLong .le target s)

/-- JMPL (R252). -/
def execJmpl (target : Operand) (s : State) : Host.Outcome State Fault Refusal :=
  toOutcome (jumpLong .always target s)

end Sys2Proof.Machine
end

