-- ==== Sys2Proof/Machine/Miscellaneous.lean ====
section
/-! DEFINITION. STI, CLI, STC, CLC (44_miscellaneous.md R290 to R293). -/

namespace Sys2Proof.Machine

/-- STI: `I` is 1; a pending interrupt is taken at the boundary right after (R290). -/
def execSti (s : State) : Host.Outcome State Fault Refusal :=
  .next (s.setFlags { s.flags with i := true })

/-- CLI: `I` is 0 (R291). -/
def execCli (s : State) : Host.Outcome State Fault Refusal :=
  .next (s.setFlags { s.flags with i := false })

/-- STC: `C` is 1 (R292). -/
def execStc (s : State) : Host.Outcome State Fault Refusal :=
  .next (s.setFlags { s.flags with c := true })

/-- CLC: `C` is 0 (R293). -/
def execClc (s : State) : Host.Outcome State Fault Refusal :=
  .next (s.setFlags { s.flags with c := false })

end Sys2Proof.Machine
end

