-- ==== Sys2Proof/Machine/RelativeJumps.lean ====
section
/-! DEFINITION. The relative jumps (42_program_control.md R251). -/

namespace Sys2Proof.Machine

/-- `pc` moved by a signed 7-bit count of words from the address of the next instruction (R251, 30_encoding.md R183). -/
def relativeTarget (off : BitVec 7) (pc : Word) : Word := pc + 2#16 * off.signExtend 16

/-- Jcc, "JUMP RELATIVE cccc": taken or not, nothing but `pc` changes (R251). -/
def jumpRelative (cnd : Cond) (off : BitVec 7) (s : State) : State :=
  if condHolds cnd s.flags then s.setPc (relativeTarget off s.pc) else s

/-- JZ (R251). -/
def execJz (off : BitVec 7) (s : State) : Host.Outcome State Fault Refusal :=
  .next (jumpRelative .z off s)

/-- JNZ (R251). -/
def execJnz (off : BitVec 7) (s : State) : Host.Outcome State Fault Refusal :=
  .next (jumpRelative .nz off s)

/-- JC (R251). -/
def execJc (off : BitVec 7) (s : State) : Host.Outcome State Fault Refusal :=
  .next (jumpRelative .c off s)

/-- JNC (R251). -/
def execJnc (off : BitVec 7) (s : State) : Host.Outcome State Fault Refusal :=
  .next (jumpRelative .nc off s)

/-- JS (R251). -/
def execJs (off : BitVec 7) (s : State) : Host.Outcome State Fault Refusal :=
  .next (jumpRelative .s off s)

/-- JNS (R251). -/
def execJns (off : BitVec 7) (s : State) : Host.Outcome State Fault Refusal :=
  .next (jumpRelative .ns off s)

/-- JO (R251). -/
def execJo (off : BitVec 7) (s : State) : Host.Outcome State Fault Refusal :=
  .next (jumpRelative .o off s)

/-- JNO (R251). -/
def execJno (off : BitVec 7) (s : State) : Host.Outcome State Fault Refusal :=
  .next (jumpRelative .no off s)

/-- JA (R251). -/
def execJa (off : BitVec 7) (s : State) : Host.Outcome State Fault Refusal :=
  .next (jumpRelative .a off s)

/-- JBE (R251). -/
def execJbe (off : BitVec 7) (s : State) : Host.Outcome State Fault Refusal :=
  .next (jumpRelative .be off s)

/-- JG (R251). -/
def execJg (off : BitVec 7) (s : State) : Host.Outcome State Fault Refusal :=
  .next (jumpRelative .g off s)

/-- JGE (R251). -/
def execJge (off : BitVec 7) (s : State) : Host.Outcome State Fault Refusal :=
  .next (jumpRelative .ge off s)

/-- JL (R251). -/
def execJl (off : BitVec 7) (s : State) : Host.Outcome State Fault Refusal :=
  .next (jumpRelative .l off s)

/-- JLE (R251). -/
def execJle (off : BitVec 7) (s : State) : Host.Outcome State Fault Refusal :=
  .next (jumpRelative .le off s)

/-- JMP (R251). -/
def execJmp (off : BitVec 7) (s : State) : Host.Outcome State Fault Refusal :=
  .next (jumpRelative .always off s)

end Sys2Proof.Machine
end

