-- ==== Sys2Proof/Machine/Returns.lean ====
section
/-! DEFINITION. The returns (42_program_control.md R253). -/

namespace Sys2Proof.Machine

/-- Rcc, "RET cccc": the return address is popped into `pc`; if the condition is false nothing is popped (R253). -/
def returnOn (cnd : Cond) (s : State) : Except Fault State :=
  if condHolds cnd s.flags then returnFromStack s else .ok s

/-- RZ (R253). -/
def execRz (s : State) : Host.Outcome State Fault Refusal :=
  toOutcome (returnOn .z s)

/-- RNZ (R253). -/
def execRnz (s : State) : Host.Outcome State Fault Refusal :=
  toOutcome (returnOn .nz s)

/-- RC (R253). -/
def execRc (s : State) : Host.Outcome State Fault Refusal :=
  toOutcome (returnOn .c s)

/-- RNC (R253). -/
def execRnc (s : State) : Host.Outcome State Fault Refusal :=
  toOutcome (returnOn .nc s)

/-- RS (R253). -/
def execRs (s : State) : Host.Outcome State Fault Refusal :=
  toOutcome (returnOn .s s)

/-- RNS (R253). -/
def execRns (s : State) : Host.Outcome State Fault Refusal :=
  toOutcome (returnOn .ns s)

/-- RO (R253). -/
def execRo (s : State) : Host.Outcome State Fault Refusal :=
  toOutcome (returnOn .o s)

/-- RNO (R253). -/
def execRno (s : State) : Host.Outcome State Fault Refusal :=
  toOutcome (returnOn .no s)

/-- RA (R253). -/
def execRa (s : State) : Host.Outcome State Fault Refusal :=
  toOutcome (returnOn .a s)

/-- RBE (R253). -/
def execRbe (s : State) : Host.Outcome State Fault Refusal :=
  toOutcome (returnOn .be s)

/-- RG (R253). -/
def execRg (s : State) : Host.Outcome State Fault Refusal :=
  toOutcome (returnOn .g s)

/-- RGE (R253). -/
def execRge (s : State) : Host.Outcome State Fault Refusal :=
  toOutcome (returnOn .ge s)

/-- RL (R253). -/
def execRl (s : State) : Host.Outcome State Fault Refusal :=
  toOutcome (returnOn .l s)

/-- RLE (R253). -/
def execRle (s : State) : Host.Outcome State Fault Refusal :=
  toOutcome (returnOn .le s)

/-- RET (R253). -/
def execRet (s : State) : Host.Outcome State Fault Refusal :=
  toOutcome (returnOn .always s)

end Sys2Proof.Machine
end

