-- ==== Sys2Proof/Machine/SingleOperand.lean ====
section
/-! DEFINITION. The single operand instructions (43_single_operand.md R270 to R279). -/

namespace Sys2Proof.Machine

/-- SHR: arithmetic shift right (R271). -/
def execShr (n : Fin 8) (dst : Operand) (s : State) : Host.Outcome State Fault Refusal :=
  toOutcome (modifyDst (fun fl d => shiftRight (countOf n) d fl) dst s)

/-- SHL: shift left (R272). -/
def execShl (n : Fin 8) (dst : Operand) (s : State) : Host.Outcome State Fault Refusal :=
  toOutcome (modifyDst (fun fl d => shiftLeft (countOf n) d fl) dst s)

/-- ROR: rotate right (R273). -/
def execRor (n : Fin 8) (dst : Operand) (s : State) : Host.Outcome State Fault Refusal :=
  toOutcome (modifyDst (fun fl d => rotateRight (countOf n) d fl) dst s)

/-- ROL: rotate left (R274). -/
def execRol (n : Fin 8) (dst : Operand) (s : State) : Host.Outcome State Fault Refusal :=
  toOutcome (modifyDst (fun fl d => rotateLeft (countOf n) d fl) dst s)

/-- ADDI: Destination := Destination + n; `C` and `O` stay (R275). -/
def execAddi (n : Fin 8) (dst : Operand) (s : State) : Host.Outcome State Fault Refusal :=
  toOutcome (modifyDst (fun fl d => logicLaw (d + BitVec.ofNat 16 (countOf n)) fl) dst s)

/-- SUBI: Destination := Destination - n; `C` and `O` stay (R276). -/
def execSubi (n : Fin 8) (dst : Operand) (s : State) : Host.Outcome State Fault Refusal :=
  toOutcome (modifyDst (fun fl d => logicLaw (d - BitVec.ofNat 16 (countOf n)) fl) dst s)

/-- NOT: 1's complement; `C` and `O` stay (R277). -/
def execNot (dst : Operand) (s : State) : Host.Outcome State Fault Refusal :=
  toOutcome (modifyDst (fun fl d => logicLaw (~~~d) fl) dst s)

/-- NEG: 2's complement, with the flags of `0 - d` (R278). -/
def execNeg (dst : Operand) (s : State) : Host.Outcome State Fault Refusal :=
  toOutcome (modifyDst (fun fl d => subLaw 0#16 d false fl) dst s)

/-- CBW: the low byte sign-extended; `C` and `O` stay (R279). -/
def execCbw (dst : Operand) (s : State) : Host.Outcome State Fault Refusal :=
  toOutcome (modifyDst (fun fl d => logicLaw (signExtendByte d) fl) dst s)

end Sys2Proof.Machine
end

