-- ==== Sys2Proof/Machine/Dispatch.lean ====
section
/-! DEFINITION. What each instruction does: one arm for each row of spec/opcode_table.json. The state given to `exec` has `pc`
past the instruction's words (10_state.md R126). -/

namespace Sys2Proof.Machine

def exec (i : Instr) (s : State) : Host.Outcome State Fault Refusal :=
  match i with
  | .mov src dst => Sys2Proof.Machine.execMov src dst s
  | .add src dst => Sys2Proof.Machine.execAdd src dst s
  | .addc src dst => Sys2Proof.Machine.execAddc src dst s
  | .sub src dst => Sys2Proof.Machine.execSub src dst s
  | .subb src dst => Sys2Proof.Machine.execSubb src dst s
  | .cmp src dst => Sys2Proof.Machine.execCmp src dst s
  | .and src dst => Sys2Proof.Machine.execAnd src dst s
  | .test src dst => Sys2Proof.Machine.execTest src dst s
  | .or src dst => Sys2Proof.Machine.execOr src dst s
  | .xor src dst => Sys2Proof.Machine.execXor src dst s
  | .jz off => Sys2Proof.Machine.execJz off s
  | .jnz off => Sys2Proof.Machine.execJnz off s
  | .jc off => Sys2Proof.Machine.execJc off s
  | .jnc off => Sys2Proof.Machine.execJnc off s
  | .js off => Sys2Proof.Machine.execJs off s
  | .jns off => Sys2Proof.Machine.execJns off s
  | .jo off => Sys2Proof.Machine.execJo off s
  | .jno off => Sys2Proof.Machine.execJno off s
  | .ja off => Sys2Proof.Machine.execJa off s
  | .jbe off => Sys2Proof.Machine.execJbe off s
  | .jg off => Sys2Proof.Machine.execJg off s
  | .jge off => Sys2Proof.Machine.execJge off s
  | .jl off => Sys2Proof.Machine.execJl off s
  | .jle off => Sys2Proof.Machine.execJle off s
  | .jmp off => Sys2Proof.Machine.execJmp off s
  | .jzl target => Sys2Proof.Machine.execJzl target s
  | .jnzl target => Sys2Proof.Machine.execJnzl target s
  | .jcl target => Sys2Proof.Machine.execJcl target s
  | .jncl target => Sys2Proof.Machine.execJncl target s
  | .jsl target => Sys2Proof.Machine.execJsl target s
  | .jnsl target => Sys2Proof.Machine.execJnsl target s
  | .jol target => Sys2Proof.Machine.execJol target s
  | .jnol target => Sys2Proof.Machine.execJnol target s
  | .jal target => Sys2Proof.Machine.execJal target s
  | .jbel target => Sys2Proof.Machine.execJbel target s
  | .jgl target => Sys2Proof.Machine.execJgl target s
  | .jgel target => Sys2Proof.Machine.execJgel target s
  | .jll target => Sys2Proof.Machine.execJll target s
  | .jlel target => Sys2Proof.Machine.execJlel target s
  | .jmpl target => Sys2Proof.Machine.execJmpl target s
  | .rz => Sys2Proof.Machine.execRz s
  | .rnz => Sys2Proof.Machine.execRnz s
  | .rc => Sys2Proof.Machine.execRc s
  | .rnc => Sys2Proof.Machine.execRnc s
  | .rs => Sys2Proof.Machine.execRs s
  | .rns => Sys2Proof.Machine.execRns s
  | .ro => Sys2Proof.Machine.execRo s
  | .rno => Sys2Proof.Machine.execRno s
  | .ra => Sys2Proof.Machine.execRa s
  | .rbe => Sys2Proof.Machine.execRbe s
  | .rg => Sys2Proof.Machine.execRg s
  | .rge => Sys2Proof.Machine.execRge s
  | .rl => Sys2Proof.Machine.execRl s
  | .rle => Sys2Proof.Machine.execRle s
  | .ret => Sys2Proof.Machine.execRet s
  | .cz target => Sys2Proof.Machine.execCz target s
  | .cnz target => Sys2Proof.Machine.execCnz target s
  | .cc target => Sys2Proof.Machine.execCc target s
  | .cnc target => Sys2Proof.Machine.execCnc target s
  | .cs target => Sys2Proof.Machine.execCs target s
  | .cns target => Sys2Proof.Machine.execCns target s
  | .co target => Sys2Proof.Machine.execCo target s
  | .cno target => Sys2Proof.Machine.execCno target s
  | .ca target => Sys2Proof.Machine.execCa target s
  | .cbe target => Sys2Proof.Machine.execCbe target s
  | .cg target => Sys2Proof.Machine.execCg target s
  | .cge target => Sys2Proof.Machine.execCge target s
  | .cl target => Sys2Proof.Machine.execCl target s
  | .cle target => Sys2Proof.Machine.execCle target s
  | .call target => Sys2Proof.Machine.execCall target s
  | .int v => Sys2Proof.Machine.execInt v s
  | .shr n dst => Sys2Proof.Machine.execShr n dst s
  | .shl n dst => Sys2Proof.Machine.execShl n dst s
  | .ror n dst => Sys2Proof.Machine.execRor n dst s
  | .rol n dst => Sys2Proof.Machine.execRol n dst s
  | .addi n dst => Sys2Proof.Machine.execAddi n dst s
  | .subi n dst => Sys2Proof.Machine.execSubi n dst s
  | .not dst => Sys2Proof.Machine.execNot dst s
  | .neg dst => Sys2Proof.Machine.execNeg dst s
  | .cbw dst => Sys2Proof.Machine.execCbw dst s
  | .sti => Sys2Proof.Machine.execSti s
  | .cli => Sys2Proof.Machine.execCli s
  | .stc => Sys2Proof.Machine.execStc s
  | .clc => Sys2Proof.Machine.execClc s

end Sys2Proof.Machine
end

