-- ==== Sys2Proof/Machine/Fetch.lean ====
section
/-! DEFINITION. Fetching an instruction (30_encoding.md R170, R180, R188), and placing one where it will be fetched. -/

namespace Sys2Proof.Machine

/-- `Fetch16()`: the word at `pc`, and `pc` moved past it (R170, 10_state.md R126). -/
def fetchWord (s : State) : Except Fault (Word × State) := do
  let w ← load .word s.pc s
  pure (w, s.setPc (s.pc + 2#16))

/-- `n` words fetched in ascending address order (R170). -/
def fetchWords : Nat → State → Except Fault (List Word × State)
  | 0, s => .ok ([], s)
  | n + 1, s => do
    let (w, s) ← fetchWord s
    let (ws, s) ← fetchWords n s
    pure (w :: ws, s)

/-- One instruction fetched and decoded: a reserved instruction word stops before any extension word is fetched, the words it
needs are fetched, source first, before any operand is accessed (R170, R186, R188). -/
def fetchInstr (s : State) : Except Fault (Instr × State) := do
  let (w, s) ← fetchWord s
  match decodeWords [w, 0#16, 0#16] with
  | .error e => .error (.reservedEncoding e)
  | .ok _ => do
    let (es, s) ← fetchWords (extWordsOf w) s
    match decodeWords (w :: es) with
    | .error e => .error (.reservedEncoding e)
    | .ok (i, _) => pure (i, s)

/-- Bytes stored from an address upward, whatever MEMMAP says of it: how a program comes into memory from outside the machine
(log 21). -/
def State.putBytes (s : State) (a : Word) : List Byte → State
  | [] => s
  | b :: bs => State.putBytes (s.putByte a b) (a + 1) bs

/-- The state with no interrupt recognised at the coming boundary: where one would be, the latches and the boundary's requests
are emptied; else nothing changes (log 21). -/
def withoutInterrupt (s : State) : State :=
  match recognise (latchRequests s) with
  | none => s
  | some _ => { s with pend := 0#48, irqInputs := s.irqInputs.drop 1 }

end Sys2Proof.Machine
end

