-- ==== Sys2Proof/Machine/Step.lean ====
section
/-! DEFINITION. One step of the machine (70_reset_and_hazards.md R356). -/

namespace Sys2Proof.Machine

/-- One step: the requests of this boundary are latched; an interrupt that is recognised is taken and ends the step; else one
instruction is fetched and executed (R356, 60_exceptions.md R325). -/
def step (s : State) : Host.Outcome State Fault Refusal :=
  let s := latchRequests s
  match recognise s with
  | some n => toOutcome (takeInterrupt n s)
  | none =>
    match fetchInstr s with
    | .error f => .fault f
    | .ok (i, s) => exec i s

/-- The state with the instruction whose bits are `w` (bit 0 the least significant bit of the first word, the bits from `nbits`
up zero) stored in the six bytes at `pc`, each word in the hardware's byte order, and no interrupt recognised before it
(log 21). -/
def State.withFetchWord (s : State) (nbits w : Nat) : State :=
  let v := w % 2 ^ nbits
  (withoutInterrupt s).putBytes s.pc ([0, 1, 2, 3, 4, 5].map (fun k => BitVec.ofNat 8 (v >>> (8 * k))))

end Sys2Proof.Machine
end

