-- ==== Sys2Proof/Machine/Run.lean ====
section
/-! DEFINITION. The end of a run (70_reset_and_hazards.md R357). The hardware has no halt: a finished state still steps. -/

namespace Sys2Proof.Machine

/-- `JMP $`, the jump to itself: `1100 1111 0 1111111` (R357). -/
def selfJump : Word := 0xCF7F#16

/-- The run is finished: `pc` is at the designated address, which holds `JMP $`, with `I` 0 or no interrupt pending (R357). A
request that arrives at this boundary is pending (DESIGN CHOICE: log 30). -/
def finished (stop : Word) (s : State) : Bool :=
  s.pc == stop && (!s.flags.i || (latchRequests s).pend == 0#48) &&
    match load .word stop s with
    | .ok w => w == selfJump
    | .error _ => false

/-- The state after `k` steps, where none of them stops (R356). -/
def run : Nat → State → Option State
  | 0, s => some s
  | k + 1, s =>
    match step s with
    | .next t => run k t
    | .fault _ | .refused _ => none

/-- The end state of a run: the first finished state, within `k` steps (R357). None where the run needs more steps or stops. -/
def endState (stop : Word) : Nat → State → Option State
  | 0, s => if finished stop s then some s else none
  | k + 1, s =>
    if finished stop s then some s
    else
      match step s with
      | .next t => endState stop k t
      | .fault _ | .refused _ => none

end Sys2Proof.Machine
end

