-- ==== Sys2Proof/Machine/Timing.lean ====
section
/-! DEFINITION. What the spec gives of time (70_reset_and_hazards.md R360 to R365): clock cycles as a cost computed beside the
machine. No instruction can read it and no rule depends on it (60_exceptions.md R334), so it is no part of the state (log 22). -/

namespace Sys2Proof.Machine

/-- The clocks an addressing mode adds (R361). -/
def modeAdder : Operand → Nat
  | .reg _ | .imm _ => 0
  | .direct _ _ | .ind _ _ => 1
  | .autoInc _ _ | .stack => 2
  | .index _ _ _ => 3

/-- The GPIO register of PG's example, which is an internal register whatever MEMMAP says of it (R363, 10_state.md R130). -/
def gpioAddr : Word := 0xC024#16

/-- The internal registers: flags, Interrupt Enable and the GPIO register 0xC024 always (R363); REGBANK, and every address that
MEMMAP marks as a control register (DESIGN CHOICE: log 22). -/
def isInternalRegister (s : State) (a : Word) : Bool :=
  a == flagsAddr || a == intEnableAddr || a == gpioAddr || a == regbankAddr || kindAt s.params.memMap a == .control

/-- The wait state of an internal register: one clock where the operand's address is one (R363). -/
def registerWait (acc : Access) (op : Operand) (s : State) : Nat :=
  match op with
  | .reg _ | .imm _ => 0
  | .stack | .ind _ _ | .direct _ _ | .autoInc _ _ | .index _ _ _ =>
    match operandAddress acc op s with
    | .error _ => 0
    | .ok a => if isInternalRegister s a then 1 else 0

/-- What one operand adds to an instruction's clocks (R361, R363). -/
def operandCost (acc : Access) (op : Operand) (s : State) : Nat := modeAdder op + registerWait acc op s

/-- A dual operand instruction: 5 and both operands, the destination's address taken after the source's side effect (R360). -/
def dualCost (acc : Access) (src dst : Operand) (s : State) : Nat :=
  let s' := match readOperand src s with
    | .ok (_, s') => s'
    | .error _ => s
  5 + operandCost .read src s + operandCost acc dst s'

/-- A conditional instruction whose operand is evaluated only when taken: 4 when not taken (R364). -/
def takenCost (cnd : Cond) (taken : Nat) (s : State) : Nat := if condHolds cnd s.flags then taken else 4

/-- JccL: 4 and the operand (R360). -/
def jumpLongCost (cnd : Cond) (target : Operand) (s : State) : Nat := takenCost cnd (4 + operandCost .read target s) s

/-- Rcc, which is JccL with the operand `[r15]`: 4 and the operand, 6 where `[r15]` is no internal register (R253, R360, R361,
R363). -/
def returnCost (cnd : Cond) (s : State) : Nat := jumpLongCost cnd .stack s

/-- Ccc: 7 and the operand, which is read after the push (R254, R360). The push itself is no operand and adds nothing (DEDUCED:
log 22). -/
def callCost (cnd : Cond) (target : Operand) (s : State) : Nat :=
  let s' := match push s.pc s with
    | .ok s' => s'
    | .error _ => s
  takenCost cnd (7 + operandCost .read target s') s

/-- A shift or rotate: two clocks and two for each place, and the destination (R362). -/
def shiftCost (n : Fin 8) (dst : Operand) (s : State) : Nat := 2 + 2 * countOf n + operandCost .readWrite dst s

/-- The clock cycles of an instruction under the spec's assumption of zero wait states (R360 to R364). -/
def cycles (i : Instr) (s : State) : Nat :=
  match i with
  | .mov a b => dualCost .write a b s
  | .cmp a b | .test a b => dualCost .read a b s
  | .add a b | .addc a b | .sub a b | .subb a b | .and a b | .or a b | .xor a b => dualCost .readWrite a b s
  | .jz _ | .jnz _ | .jc _ | .jnc _ | .js _ | .jns _ | .jo _ | .jno _ | .ja _ | .jbe _ | .jg _ | .jge _ | .jl _
  | .jle _ | .jmp _ => 3
  | .jzl t => jumpLongCost .z t s
  | .jnzl t => jumpLongCost .nz t s
  | .jcl t => jumpLongCost .c t s
  | .jncl t => jumpLongCost .nc t s
  | .jsl t => jumpLongCost .s t s
  | .jnsl t => jumpLongCost .ns t s
  | .jol t => jumpLongCost .o t s
  | .jnol t => jumpLongCost .no t s
  | .jal t => jumpLongCost .a t s
  | .jbel t => jumpLongCost .be t s
  | .jgl t => jumpLongCost .g t s
  | .jgel t => jumpLongCost .ge t s
  | .jll t => jumpLongCost .l t s
  | .jlel t => jumpLongCost .le t s
  | .jmpl t => jumpLongCost .always t s
  | .rz => returnCost .z s
  | .rnz => returnCost .nz s
  | .rc => returnCost .c s
  | .rnc => returnCost .nc s
  | .rs => returnCost .s s
  | .rns => returnCost .ns s
  | .ro => returnCost .o s
  | .rno => returnCost .no s
  | .ra => returnCost .a s
  | .rbe => returnCost .be s
  | .rg => returnCost .g s
  | .rge => returnCost .ge s
  | .rl => returnCost .l s
  | .rle => returnCost .le s
  | .ret => returnCost .always s
  | .cz t => callCost .z t s
  | .cnz t => callCost .nz t s
  | .cc t => callCost .c t s
  | .cnc t => callCost .nc t s
  | .cs t => callCost .s t s
  | .cns t => callCost .ns t s
  | .co t => callCost .o t s
  | .cno t => callCost .no t s
  | .ca t => callCost .a t s
  | .cbe t => callCost .be t s
  | .cg t => callCost .g t s
  | .cge t => callCost .ge t s
  | .cl t => callCost .l t s
  | .cle t => callCost .le t s
  | .call t => callCost .always t s
  | .int _ => 7
  | .shr n d | .shl n d | .ror n d | .rol n d => shiftCost n d s
  | .addi _ d | .subi _ d | .not d | .neg d | .cbw d => 4 + operandCost .readWrite d s
  | .sti | .cli | .stc | .clc => 3

/-- The cycles of a step that runs an instruction to a next state. None where the step takes an interrupt, whose cost the spec
does not give (R365), and none where it ends in a fault, of which the spec says nothing (DESIGN CHOICE: log 22). -/
def stepCost (s : State) : Option Nat :=
  let s := latchRequests s
  match recognise s with
  | some _ => none
  | none =>
    match fetchInstr s with
    | .error _ => none
    | .ok (i, s) =>
      match exec i s with
      | .next _ => some (cycles i s)
      | .fault _ | .refused _ => none

end Sys2Proof.Machine
end

