-- ==== Sys2Proof/Safety.lean ====
section
/-! DEFINITION. The terms claims use: when an operand can be accessed, what an operand delivers and leaves, what a write leaves
behind, which bytes an instruction may store to, the machine's invariant, and a safe run. -/

namespace Sys2Proof.Machine

/-! When an access goes through. -/

/-- Register `i` can be read and written: its word lies in read-write memory (10_state.md R112). -/
abbrev RegReady (i : RegNum) (s : State) : Prop := regFault i s = none

/-- A read of this width at this address goes through (20_memory.md R144). -/
abbrev Readable (w : Width) (a : Word) (s : State) : Prop := readFault w a s = none

/-- A write of this width at this address goes through (R144). -/
abbrev Writable (w : Width) (a : Word) (s : State) : Prop := writeFault w a s = none

/-- The stack pointer's value. -/
abbrev stackPointer (s : State) : Word := peekReg spReg s

/-- An operand that is read can be read: its address register and its address, word operands aligned (40_operands.md R203 to
R211). -/
def SourceReady (op : Operand) (s : State) : Prop :=
  match op with
  | .reg r => RegReady r s
  | .imm _ => True
  | .stack => RegReady spReg s ∧ Readable .word (stackPointer s) s
  | .ind w p | .autoInc w p => RegReady (ptrReg p) s ∧ Readable w (peekReg (ptrReg p) s) s
  | .direct w a => Readable w a s
  | .index w p off => RegReady (baseReg p) s ∧ Readable w (peekReg (baseReg p) s + off) s

/-- The value an operand delivers (R203 to R211). -/
def sourceValue (op : Operand) (s : State) : Word :=
  match op with
  | .reg r => peekReg r s
  | .imm v => v
  | .stack => peek .word (stackPointer s) s
  | .ind w p | .autoInc w p => peek w (peekReg (ptrReg p) s) s
  | .direct w a => peek w a s
  | .index w p off => peek w (peekReg (baseReg p) s + off) s

/-- The state after an operand is read: `[r15]` and Auto Increment move their register (R207, R210). -/
def sourceAfter (op : Operand) (s : State) : State :=
  match op with
  | .stack => pokeReg spReg (stackPointer s + 2#16) s
  | .autoInc w p => pokeReg (ptrReg p) (peekReg (ptrReg p) s + sizeOf w) s
  | .reg _ | .imm _ | .ind _ _ | .direct _ _ | .index _ _ _ => s

/-- The state after `v` is written to a destination, its register's side effect with it (R202, R207, R210). -/
def written (op : Operand) (v : Word) (s : State) : State :=
  match op with
  | .reg r => pokeReg r v s
  | .imm _ => s
  | .stack => poke .word (stackPointer s - 2#16) v (pokeReg spReg (stackPointer s - 2#16) s)
  | .ind w p => poke w (peekReg (ptrReg p) s) v s
  | .direct w a => poke w a v s
  | .autoInc w p =>
    pokeReg (ptrReg p) (peekReg (ptrReg p) s + sizeOf w) (poke w (peekReg (ptrReg p) s) v s)
  | .index w p off => poke w (peekReg (baseReg p) s + off) v s

/-- A destination can be written with `v`. Where the write itself moves the register bank (a store to REGBANK), the register an
Auto Increment still has to move is one of the new bank (R210, 10_state.md R115; log 19). -/
def DstWritable (op : Operand) (v : Word) (s : State) : Prop :=
  match op with
  | .reg r => RegReady r s
  | .imm _ => False
  | .stack => RegReady spReg s ∧ Writable .word (stackPointer s - 2#16) s
  | .ind w p => RegReady (ptrReg p) s ∧ Writable w (peekReg (ptrReg p) s) s
  | .direct w a => Writable w a s
  | .autoInc w p =>
    RegReady (ptrReg p) s ∧ Writable w (peekReg (ptrReg p) s) s ∧
      RegReady (ptrReg p) (poke w (peekReg (ptrReg p) s) v s)
  | .index w p off => RegReady (baseReg p) s ∧ Writable w (peekReg (baseReg p) s + off) s

/-- A destination can be read and then written with `v` by an instruction that sets flags: it is not `[r15]` and not the flags
register (R207, 10_state.md R123). -/
def DstModifiable (op : Operand) (v : Word) (s : State) : Prop :=
  op ≠ .stack ∧ SourceReady op s ∧ DstWritable op v s ∧ operandAddress .readWrite op s ≠ .ok flagsAddr

/-- A destination that is only read, by CMP and TEST, can be read: Immediate is no destination (R202), and the flags register is
none of an instruction that sets flags (10_state.md R123). -/
def DstComparable (op : Operand) (s : State) : Prop :=
  op.destinationOk = true ∧ SourceReady op s ∧ operandAddress .read op s ≠ .ok flagsAddr

/-! What an encoding rule says: the words of a format decode to the instruction, its operands taken from the words that
follow, the source's extension word before the destination's (30_encoding.md R170, R172 to R177). -/

/-- Format D: `oooo ssssss dddddd` (R172). -/
def DualEncoding (op : BitVec 4) (mk : Operand → Operand → Instr) : Prop :=
  ∀ (f g : BitVec 6) (src dst : Operand) (ws ws' rest : List Word), g ≠ immediateField →
    takeOperand f ws = .ok (src, ws') → takeOperand g ws' = .ok (dst, rest) →
    decodeWords ((op ++ f ++ g) :: ws) = .ok (mk src dst, rest)

/-- Format L: `oooo cccc 10 dddddd`; with opcode 1100 the field 010111 is format R (R174, R175). -/
def LongEncoding (op : BitVec 4) (mk : Cond → Operand → Instr) : Prop :=
  ∀ (k : BitVec 4) (f : BitVec 6) (cnd : Cond) (t : Operand) (ws rest : List Word), condOfField k = some cnd →
    (op = 0b1100#4 → f ≠ stackField) → takeOperand f ws = .ok (t, rest) →
    decodeWords ((op ++ k ++ 0b10#2 ++ f) :: ws) = .ok (mk cnd t, rest)

/-- Format S: `1101 ooo nnn dddddd`, `nnn` the count less one (R177, R185). -/
def CountEncoding (op : BitVec 3) (mk : Fin 8 → Operand → Instr) : Prop :=
  ∀ (n : Fin 8) (f : BitVec 6) (dst : Operand) (ws rest : List Word), f ≠ immediateField →
    takeOperand f ws = .ok (dst, rest) →
    decodeWords ((0b1101#4 ++ op ++ BitVec.ofNat 3 n.val ++ f) :: ws) = .ok (mk n dst, rest)

/-- Format U: `1101 111 ppp dddddd` (R177). -/
def UnaryEncoding (p : BitVec 3) (mk : Operand → Instr) : Prop :=
  ∀ (f : BitVec 6) (dst : Operand) (ws rest : List Word), f ≠ immediateField → takeOperand f ws = .ok (dst, rest) →
    decodeWords ((0b1101111#7 ++ p ++ f) :: ws) = .ok (mk dst, rest)

/-! Which bytes an instruction may store to. -/

/-- The bytes of an access. -/
def accessBytes (w : Width) (a : Word) : List Word :=
  match w with
  | .word => [a, a + 1]
  | .byte => [a]

/-- The two bytes of a register. -/
def regBytes (i : RegNum) (s : State) : List Word := accessBytes .word (regAddr i s)

/-- The width of an operand's access; registers and `[r15]` are words (40_operands.md R203, R207). -/
def operandWidth : Operand → Width
  | .reg _ | .imm _ | .stack => .word
  | .ind w _ | .direct w _ | .autoInc w _ | .index w _ _ => w

/-- The bytes of the register that reading or writing an operand moves: `r15` for `[r15]`, the address register for Auto
Increment (R207, R210). -/
def sideEffectBytes (op : Operand) (s : State) : List Word :=
  match op with
  | .stack => regBytes spReg s
  | .autoInc _ p => regBytes (ptrReg p) s
  | .reg _ | .imm _ | .ind _ _ | .direct _ _ | .index _ _ _ => []

/-- What no instruction ever changes: the pending latches, the requests to come, the open parameters (60_exceptions.md R324). -/
def SameInterruptInputs (s t : State) : Prop :=
  t.pend = s.pend ∧ t.irqInputs = s.irqInputs ∧ t.params = s.params

/-! The invariant and safe runs. -/

/-- The invariant of the machine: memory is in its canonical form and `pc` is even (10_state.md R127). -/
def MachineInv (s : State) : Prop := s.mem.wf ∧ s.pc.getLsbD 0 = false

/-- The least that MEMMAP must say (20_memory.md R148), and IRQ_VECTOR injective (60_exceptions.md R321). -/
def paramsMinimal (p : Params) : Prop :=
  (∀ a : Word, a.toNat ≤ 0x011F → kindAt p.memMap a = .ram) ∧ kindAt p.memMap 0x0400#16 = .ram ∧
    kindAt p.memMap flagsAddr = .control ∧ kindAt p.memMap regbankAddr = .control ∧
    kindAt p.memMap intEnableAddr = .control ∧ kindAt p.memMap 0xFFF0#16 = .rom ∧ p.irqVector.toList.Nodup

/-- The machine makes `k` steps with no fault: what a proof about a program has to show (60_exceptions.md R320). -/
def safeFor : Nat → State → Bool
  | 0, _ => true
  | k + 1, s =>
    match step s with
    | .next t => safeFor k t
    | .fault _ | .refused _ => false

end Sys2Proof.Machine
end

