-- ==== Sys2Proof/Certificates/Slice0/Obligations.lean ====
section
/-! DEFINITION. The statements for the provers. Each says what an instruction or the machine does by the spec's rules; the
vocabulary (`SourceReady`, `sourceValue`, `sourceAfter`, `written`, …) is that of `Safety.lean`. -/

open Sys2Proof Sys2Proof.Machine

/-! Encoding. -/

/-- Decoding the words of a well-formed instruction gives the instruction back, whatever follows them: every operand at every
value its encoding admits (30_encoding.md R170 to R185). -/
def Obligations.DecodeOfEncode : Prop :=
  ∀ (i : Instr) (ws : List Word), i.wellFormed = true → decodeWords (encode i ++ ws) = .ok (i, ws)

/-- What decodes is well-formed, and its encoding is the words it was decoded from: one instruction for each defined word, no
two words for one instruction (R171 to R188). -/
def Obligations.EncodeOfDecode : Prop :=
  ∀ (ws rest : List Word) (i : Instr), decodeWords ws = .ok (i, rest) → i.wellFormed = true ∧ encode i ++ rest = ws

/-- The same round trip over bytes, each word in the hardware's byte order (20_memory.md R142). -/
def Obligations.DecodeOfEncodedBytes : Prop :=
  ∀ (i : Instr) (bs : List Byte), i.wellFormed = true → decode (bytesOfWords (encode i) ++ bs) = .ok (i, bs)

/-- Exactly the words of classes E-a to E-h are refused as reserved, each class written with the masks of R186's table. -/
def Obligations.ReservedWordsRefused : Prop :=
  ∀ (w : Word) (ws : List Word),
    (∃ c, decodeWords (w :: ws) = .error (.reserved c)) ↔
      (w &&& 0xF000#16 = 0xB000#16 ∨ w &&& 0xF000#16 = 0xE000#16 ∨ w &&& 0xF000#16 = 0xF000#16) ∨
      w &&& 0xFE00#16 = 0xDC00#16 ∨
      (w &&& 0xFFC0#16 = 0xDE80#16 ∨ w &&& 0xFFC0#16 = 0xDEC0#16 ∨ w &&& 0xFFC0#16 = 0xDF40#16 ∨
        w &&& 0xFFC0#16 = 0xDF80#16) ∨
      (w &&& 0xFFC0#16 = 0xDFC0#16 ∧ 4 ≤ w.toNat % 64) ∨
      (w &&& 0xF080#16 = 0xA000#16 ∧ w &&& 0x0F00#16 ≠ 0x0F00#16) ∨
      (w &&& 0xF0C0#16 = 0xA0C0#16 ∨ w &&& 0xF0C0#16 = 0xC0C0#16) ∨
      (w &&& 0xFF00#16 = 0xCE00#16 ∨ w &&& 0xFF80#16 = 0xAE80#16) ∨
      (w &&& 0x003F#16 = 0x001F#16 ∧
        (w.toNat < 0xA000 ∨ (0xD000 ≤ w.toNat ∧ w.toNat < 0xDC00) ∨ w &&& 0xFFC0#16 = 0xDE00#16 ∨
          w &&& 0xFFC0#16 = 0xDE40#16 ∨ w &&& 0xFFC0#16 = 0xDF00#16))

/-- The number of words decoding takes is R180's length of the instruction word. -/
def Obligations.InstructionLength : Prop :=
  ∀ (w : Word) (ws rest : List Word) (i : Instr), decodeWords (w :: ws) = .ok (i, rest) →
    let n := w.toNat
    let ext : Nat → Nat := fun f => if f = 0x1F ∨ f = 0x27 ∨ f = 0x2F ∨ (0x30 ≤ f ∧ f ≤ 0x3F) then 1 else 0
    ws.length = rest.length +
      (if n / 4096 ≤ 9 then ext (n / 64 % 64) + ext (n % 64)
       else if n / 4096 = 0b1010 ∨ n / 4096 = 0b1100 then (if n / 128 % 2 = 1 then ext (n % 64) else 0)
       else if n / 64 = 0b1101111111 then 0
       else ext (n % 64))

/-- Words written out from the spec's encodings decode to the instructions they stand for, one of each format (R172 to R177). -/
def Obligations.SampleWordsDecode : Prop :=
  decodeWords [0x09E7#16, 0x0400#16, 0x0402#16] = .ok (.mov (.direct .word 0x0400#16) (.direct .word 0x0402#16), []) ∧
    decodeWords [0x1A41#16] = .ok (.add (.autoInc .byte 1) (.reg 1), []) ∧
    decodeWords [0xC17C#16] = .ok (.jnz 0b1111100#7, []) ∧
    decodeWords [0xCFB1#16, 0x0600#16] = .ok (.jmpl (.index .word 1 0x0600#16), []) ∧
    decodeWords [0xC397#16] = .ok (.rnc, []) ∧
    decodeWords [0xA09F#16, 0x0520#16] = .ok (.cz (.imm 0x0520#16), []) ∧
    decodeWords [0xAF48#16] = .ok (.int 72, []) ∧
    decodeWords [0xD029#16] = .ok (.shr 0 (.autoInc .byte 1), []) ∧
    decodeWords [0xDF00#16] = .ok (.cbw (.reg 0), []) ∧
    decodeWords [0xDFC0#16] = .ok (.sti, [])

/-! Reset. -/

/-- `pc` and REGBANK after reset, the two values the spec gives (70_reset_and_hazards.md R350, 10_state.md R131). -/
def Obligations.ResetValues : Prop :=
  State.reset.pc = 0xFFF0#16 ∧ State.reset.regbank = 0x0100#16

/-- The model's choices at reset, where the spec gives no value (logs 3 to 6, 15): every register but `r15` is 0, `r15` is
0x0400, flags, Interrupt Enable and latches are 0, no request is to come. -/
def Obligations.ResetChoices : Prop :=
  (∀ i : RegNum, readReg i State.reset = .ok (if i = spReg then 0x0400#16 else 0x0000#16)) ∧
    State.reset.flags.toWord = 0#16 ∧ State.reset.intEnable = 0#16 ∧ State.reset.pend = 0#48 ∧ State.reset.irqInputs = []

/-- The state after reset meets the invariant. -/
def Obligations.ResetMeetsInvariant : Prop := MachineInv State.reset

/-! Invariants of every step. -/

/-- Every step keeps the invariant: memory stays in its canonical form and `pc` stays even (10_state.md R127). -/
def Obligations.StepKeepsInvariant : Prop :=
  ∀ s t : State, MachineInv s → step s = .next t → MachineInv t

/-- No step changes the open parameters (log 1). -/
def Obligations.StepKeepsParameters : Prop :=
  ∀ s t : State, step s = .next t → t.params = s.params

/-- No instruction changes a pending latch, a request to come or a parameter: "PG gives software no way to read or clear the
latches" (60_exceptions.md R324). -/
def Obligations.InstructionsKeepLatches : Prop :=
  ∀ (i : Instr) (s t : State), exec i s = .next t → SameInterruptInputs s t

/-- "I is changed by STI, CLI, by interrupt entry, by a word write to 0xC000, and by nothing else" (R323): an instruction that
changes `I` is STI, CLI, a MOV whose destination is 0xC000, or one that pushes onto 0xC000. -/
def Obligations.InterruptFlagWriters : Prop :=
  ∀ (i : Instr) (s t : State), exec i s = .next t → t.flags.i ≠ s.flags.i →
    i = .sti ∨ i = .cli ∨
      (∃ src dst, i = .mov src dst ∧ operandAddress .write dst (sourceAfter src s) = .ok flagsAddr) ∨
      (((∃ cnd target, i = callInstr cnd target) ∨ ∃ v, i = .int v) ∧ operandAddress .write .stack s = .ok flagsAddr)

/-! Memory and control registers. -/

/-- What is written is read back. A word at an even address that is no control register: its low byte at that address, its
high byte at the next (20_memory.md R142). A byte: zero-extended, the other bytes staying (R146, 40_operands.md R209). -/
def Obligations.StoreThenLoad : Prop :=
  ∀ (s : State) (a v : Word), s.mem.wf →
    (isControlWord a = false → Writable .word a s →
      ∃ t, store .word a v s = .ok t ∧ load .word a t = .ok v ∧ load .byte a t = .ok (v &&& 0x00FF#16) ∧
        load .byte (a + 1) t = .ok (v >>> 8)) ∧
    (Writable .byte a s →
      ∃ t, store .byte a v s = .ok t ∧ load .byte a t = .ok (v &&& 0x00FF#16) ∧
        ∀ b : Word, b ≠ a → byteAt t b = byteAt s b)

/-- A store changes no byte but its own, and nothing else of the machine but the control register it names (R144). -/
def Obligations.StoreFrame : Prop :=
  ∀ (w : Width) (a v : Word) (s t : State), store w a v s = .ok t →
    (∀ b : Word, b ∉ accessBytes w a → byteAt t b = byteAt s b) ∧
      (isControlWord a = true → t.mem = s.mem) ∧ t.pc = s.pc ∧ SameInterruptInputs s t ∧
      (a ≠ flagsAddr → t.flags = s.flags) ∧ (a ≠ regbankAddr → t.regbank = s.regbank) ∧
      (a ≠ intEnableAddr → t.intEnable = s.intEnable)

/-- A register is the word of memory at `(REGBANK & 0xFFE0) | (i << 1)`, for reading and for writing (10_state.md R112). -/
def Obligations.RegisterIsItsMemoryWord : Prop :=
  ∀ (i : RegNum) (s : State),
    (regAddr i s).toNat = s.regbank.toNat / 32 * 32 + 2 * i.val ∧
      (RegReady i s → readReg i s = load .word (regAddr i s) s ∧
        ∀ v : Word, writeReg i v s = store .word (regAddr i s) v s)

/-- A register bank in RAM or external memory is ready; one that is not, or that overlays a control register, stops every
register access (93_implementation_defined.md U14; the model's reading, log 11). -/
def Obligations.RegisterBankMustBeMemory : Prop :=
  ∀ (i : RegNum) (s : State),
    ((isControlWord (regAddr i s) = false ∧
        ∀ a ∈ regBytes i s, kindAt s.params.memMap a = .ram ∨ kindAt s.params.memMap a = .external) → RegReady i s) ∧
      ((isControlWord (regAddr i s) = true ∨
        ∃ a ∈ regBytes i s, kindAt s.params.memMap a ≠ .ram ∧ kindAt s.params.memMap a ≠ .external) →
        readReg i s = .error (.bankNotMemory (regAddr i s)) ∧
          ∀ v : Word, writeReg i v s = .error (.bankNotMemory (regAddr i s)))

/-- REGBANK is 0x0100 after reset. A word write to 0xC002 goes through from every state and moves the bank at once, by the upper
11 bits, copying nothing; they read back, and bits 4..0 read back as written or as zeros by REGBANK_LOW_READ (10_state.md R115,
R116; U11). The same through every operand whose address is 0xC002, for reading and for writing. -/
def Obligations.RegbankSwitch : Prop :=
  State.reset.regbank = 0x0100#16 ∧
  (∀ (s : State) (v : Word), ∃ t u, store .word regbankAddr v s = .ok t ∧ t.mem = s.mem ∧
    (∀ i : RegNum, (regAddr i t).toNat = v.toNat / 32 * 32 + 2 * i.val) ∧
    load .word regbankAddr t = .ok u ∧ u.toNat / 32 = v.toNat / 32 ∧
    (s.params.regbankLowRead = true → u = v) ∧ (s.params.regbankLowRead = false → u.toNat % 32 = 0)) ∧
  (∀ (op : Operand) (s t : State) (v : Word), operandAddress .write op s = .ok regbankAddr → writeDst op v s = .ok t →
    t.regbank = v ∧ (∀ i : RegNum, (regAddr i t).toNat = v.toNat / 32 * 32 + 2 * i.val) ∧
    ∀ b : Word, b ∉ sideEffectBytes op s → b ∉ sideEffectBytes op t → byteAt t b = byteAt s b) ∧
  ∀ (op : Operand) (s t : State) (u : Word), operandAddress .read op s = .ok regbankAddr → readOperand op s = .ok (u, t) →
    u.toNat / 32 = s.regbank.toNat / 32 ∧ t.regbank = s.regbank ∧
    (s.params.regbankLowRead = true → u = s.regbank) ∧ (s.params.regbankLowRead = false → u.toNat % 32 = 0)

/-- Reading 0xC000 gives the flags in bits 4..0 and zeros above; writing it sets them and discards the rest (R117, R123). -/
def Obligations.FlagsRegister : Prop :=
  ∀ (s : State) (v : Word),
    load .word flagsAddr s = .ok (BitVec.ofNat 16 (s.flags.z.toNat + 2 * s.flags.c.toNat + 4 * s.flags.o.toNat +
      8 * s.flags.s.toNat + 16 * s.flags.i.toNat)) ∧
    ∃ t, store .word flagsAddr v s = .ok t ∧ load .word flagsAddr t = .ok (v &&& 0x001F#16) ∧ t.mem = s.mem ∧
      t.regbank = s.regbank ∧ t.intEnable = s.intEnable

/-- Interrupt Enable is a 16-bit read/write word at 0xC00E; writing it changes nothing else (10_state.md R128). -/
def Obligations.InterruptEnableRegister : Prop :=
  ∀ (s : State) (v : Word), ∃ t, store .word intEnableAddr v s = .ok t ∧ load .word intEnableAddr t = .ok v ∧
    t.mem = s.mem ∧ t.flags = s.flags ∧ t.regbank = s.regbank ∧ SameInterruptInputs s t

/-- A word access at an odd address is a ModelFault: an operand's, a fetch with odd `pc`, a push or pop with odd `r15`; the
addresses of registers and of vector table entries are always even; no byte access stops for its alignment (20_memory.md
R143, by the spec's decision D4). -/
def Obligations.MisalignedWordStops : Prop :=
  (∀ (a v : Word) (s : State), a.toNat % 2 = 1 →
    load .word a s = .error (.misalignedWord a) ∧ store .word a v s = .error (.misalignedWord a)) ∧
  (∀ s : State, s.pc.toNat % 2 = 1 → recognise (latchRequests s) = none → step s = .fault (.misalignedWord s.pc)) ∧
  (∀ (v : Word) (s : State), RegReady spReg s → (stackPointer s).toNat % 2 = 1 →
    pop s = .error (.misalignedWord (stackPointer s)) ∧ push v s = .error (.misalignedWord (stackPointer s - 2#16))) ∧
  (∀ (i : RegNum) (s : State), (regAddr i s).toNat % 2 = 0) ∧ (∀ v : Fin 128, (vectorAddr v).toNat % 2 = 0) ∧
  ∀ (a b v : Word) (s : State),
    load .byte a s ≠ .error (.misalignedWord b) ∧ store .byte a v s ≠ .error (.misalignedWord b)

/-- A byte access to 0xC000, 0xC001, 0xC002, 0xC003, 0xC00E or 0xC00F is a ModelFault (R145, which
PG does not describe: the spec's treatment U13). -/
def Obligations.ControlByteAccessStops : Prop :=
  ∀ (a v : Word) (s : State), a ∈ [0xC000#16, 0xC001#16, 0xC002#16, 0xC003#16, 0xC00E#16, 0xC00F#16] →
    load .byte a s = .error (.byteControlAccess a) ∧ store .byte a v s = .error (.byteControlAccess a)

/-- Beyond the three control registers MEMMAP decides: an absent address and an undefined control register stop every access,
ROM is read and not written, RAM and external memory are both (R144, R148). A word access, the width of every fetch, stack
access and table read, goes through where both of its bytes do; the one at the even address is asked first (the model's choice,
log 23). -/
def Obligations.MemoryMapDecidesAccess : Prop :=
  (∀ (a v : Word) (s : State), isControlByte a = false →
    match kindAt s.params.memMap a with
    | .absent => load .byte a s = .error (.unbackedAddress a) ∧ store .byte a v s = .error (.unbackedAddress a)
    | .control =>
      load .byte a s = .error (.undefinedControlRegister a) ∧ store .byte a v s = .error (.undefinedControlRegister a)
    | .rom => (∃ u, load .byte a s = .ok u) ∧ store .byte a v s = .error (.romWrite a)
    | .ram | .external => (∃ u, load .byte a s = .ok u) ∧ ∃ t, store .byte a v s = .ok t) ∧
  ∀ (a v : Word) (s : State), a.toNat % 2 = 0 → isControlWord a = false →
    let stopAt : Bool → Word → Option Fault := fun writes b =>
      match kindAt s.params.memMap b with
      | .absent => some (.unbackedAddress b)
      | .control => some (.undefinedControlRegister b)
      | .rom => if writes then some (.romWrite b) else none
      | .ram | .external => none
    (stopAt false a = none → stopAt false (a + 1) = none → ∃ u, load .word a s = .ok u) ∧
    (stopAt true a = none → stopAt true (a + 1) = none → ∃ t, store .word a v s = .ok t) ∧
    ∀ f, (stopAt false a = some f → load .word a s = .error f) ∧ (stopAt true a = some f → store .word a v s = .error f) ∧
      (stopAt false a = none → stopAt false (a + 1) = some f → load .word a s = .error f) ∧
      (stopAt true a = none → stopAt true (a + 1) = some f → store .word a v s = .error f)

/-! Flag laws. -/

/-- The addition law: result, carry, overflow by both of its formulas, zero and sign (41_dual_operand.md R230, which the spec
derives from PG's flag definitions). -/
def Obligations.AdditionLaw : Prop :=
  ∀ (d s : Word) (cin : Bool) (f : Flags),
    let t := d.toNat + s.toNat + cin.toNat
    let r := (addLaw d s cin f).1
    let g := (addLaw d s cin f).2
    r.toNat = t % 2 ^ 16 ∧ (g.c = true ↔ 2 ^ 16 ≤ t) ∧
      (g.o = true ↔ d.toInt + s.toInt + cin.toNat < -32768 ∨ 32767 < d.toInt + s.toInt + cin.toNat) ∧
      g.o = (~~~(d ^^^ s) &&& (d ^^^ r)).getLsbD 15 ∧ (g.z = true ↔ r.toNat = 0) ∧ g.s = r.getLsbD 15 ∧ g.i = f.i

/-- The subtraction law; `C` is a borrow (R231, which the spec derives from PG's flag definitions). -/
def Obligations.SubtractionLaw : Prop :=
  ∀ (d s : Word) (bin : Bool) (f : Flags),
    let r := (subLaw d s bin f).1
    let g := (subLaw d s bin f).2
    (r.toNat : Int) = ((d.toNat : Int) - s.toNat - bin.toNat) % 2 ^ 16 ∧ (g.c = true ↔ d.toNat < s.toNat + bin.toNat) ∧
      (g.o = true ↔ d.toInt - s.toInt - bin.toNat < -32768 ∨ 32767 < d.toInt - s.toInt - bin.toNat) ∧
      g.o = ((d ^^^ s) &&& (d ^^^ r)).getLsbD 15 ∧ (g.z = true ↔ r.toNat = 0) ∧ g.s = r.getLsbD 15 ∧ g.i = f.i

/-- The condition codes and their predicates over `Z`, `C`, `O`, `S`; 1110 has none, words with it are reserved, and `I` takes
no part. After `CMP d, s` they compare `d` with `s`: A, BE, C, NC as unsigned numbers, G, GE, L, LE as signed ones, Z and NZ
for equality (42_program_control.md R250). -/
def Obligations.Conditions : Prop :=
  (∀ z c o s i : Bool,
    let holds : BitVec 4 → Option Bool := fun k => (condOfField k).map (fun cnd => condHolds cnd ⟨z, c, o, s, i⟩)
    holds 0b0000#4 = some z ∧ holds 0b0001#4 = some (!z) ∧ holds 0b0010#4 = some c ∧ holds 0b0011#4 = some (!c) ∧
      holds 0b0100#4 = some s ∧ holds 0b0101#4 = some (!s) ∧ holds 0b0110#4 = some o ∧ holds 0b0111#4 = some (!o) ∧
      holds 0b1000#4 = some (!z && !c) ∧ holds 0b1001#4 = some (z || c) ∧ holds 0b1010#4 = some (decide (o = s) && !z) ∧
      holds 0b1011#4 = some (decide (o = s)) ∧ holds 0b1100#4 = some (decide (o ≠ s)) ∧
      holds 0b1101#4 = some (decide (o ≠ s) || z) ∧ holds 0b1110#4 = none ∧ holds 0b1111#4 = some true) ∧
  (∀ (w : Word) (ws : List Word), w &&& 0xFF00#16 = 0xCE00#16 ∨ w &&& 0xFF80#16 = 0xAE80#16 →
    decodeWords (w :: ws) = .error (.reserved .unusedCondition)) ∧
  ∀ (d s : Word) (f : Flags),
    let g := (subLaw d s false f).2
    (condHolds .a g = true ↔ s.toNat < d.toNat) ∧ (condHolds .be g = true ↔ d.toNat ≤ s.toNat) ∧
      (condHolds .c g = true ↔ d.toNat < s.toNat) ∧ (condHolds .nc g = true ↔ s.toNat ≤ d.toNat) ∧
      (condHolds .g g = true ↔ s.toInt < d.toInt) ∧ (condHolds .ge g = true ↔ s.toInt ≤ d.toInt) ∧
      (condHolds .l g = true ↔ d.toInt < s.toInt) ∧ (condHolds .le g = true ↔ d.toInt ≤ s.toInt) ∧
      (condHolds .z g = true ↔ d = s) ∧ (condHolds .nz g = true ↔ d ≠ s)

/-! What the dual operand instructions do: every source form and every destination form that goes through. -/

/-- MOV: opcode 0000; it writes the source's value to the destination and touches no flag, unless the destination is the flags
register; 5 clocks between registers (41_dual_operand.md R233). -/
def Obligations.MovResult : Prop :=
  DualEncoding 0b0000#4 .mov ∧ (∀ (a b : RegNum) (s : State), cycles (.mov (.reg a) (.reg b)) s = 5) ∧
  ∀ (src dst : Operand) (s : State), SourceReady src s → DstWritable dst (sourceValue src s) (sourceAfter src s) →
    exec (.mov src dst) s = .next (written dst (sourceValue src s) (sourceAfter src s))

/-- ADD and ADDC; the carry is the one before the instruction (R234, R235; the law is R230's, which the spec derives). -/
def Obligations.AddAddcResult : Prop :=
  ∀ (src dst : Operand) (s : State), SourceReady src s →
    let v := sourceValue src s
    let u := sourceAfter src s
    let d := sourceValue dst u
    let flagsOf : Word → Nat → Flags := fun r cin =>
      { s.flags with
        z := decide (r = 0#16)
        c := decide (2 ^ 16 ≤ d.toNat + v.toNat + cin)
        o := decide (d.toInt + v.toInt + cin < -32768 ∨ 32767 < d.toInt + v.toInt + cin)
        s := r.getLsbD 15 }
    let cin := s.flags.c.toNat
    (DstModifiable dst (d + v) u →
      exec (.add src dst) s = .next (written dst (d + v) (u.setFlags (flagsOf (d + v) 0)))) ∧
    (DstModifiable dst (d + v + BitVec.ofNat 16 cin) u →
      exec (.addc src dst) s =
        .next (written dst (d + v + BitVec.ofNat 16 cin) (u.setFlags (flagsOf (d + v + BitVec.ofNat 16 cin) cin))))

/-- SUB and SUBB; the borrow is the carry before the instruction (R236, R237; the law is R231's, which the spec derives). -/
def Obligations.SubSubbResult : Prop :=
  ∀ (src dst : Operand) (s : State), SourceReady src s →
    let v := sourceValue src s
    let u := sourceAfter src s
    let d := sourceValue dst u
    let flagsOf : Word → Nat → Flags := fun r bin =>
      { s.flags with
        z := decide (r = 0#16)
        c := decide (d.toNat < v.toNat + bin)
        o := decide (d.toInt - v.toInt - bin < -32768 ∨ 32767 < d.toInt - v.toInt - bin)
        s := r.getLsbD 15 }
    let bin := s.flags.c.toNat
    (DstModifiable dst (d - v) u →
      exec (.sub src dst) s = .next (written dst (d - v) (u.setFlags (flagsOf (d - v) 0)))) ∧
    (DstModifiable dst (d - v - BitVec.ofNat 16 bin) u →
      exec (.subb src dst) s =
        .next (written dst (d - v - BitVec.ofNat 16 bin) (u.setFlags (flagsOf (d - v - BitVec.ofNat 16 bin) bin))))

/-- CMP writes flags alone, those of destination less source; the destination is read and its side effect happens (R238; the
law is R231's, which the spec derives). A destination at 0xC000 is not comparable: FlagsDestinationStops. -/
def Obligations.CmpResult : Prop :=
  ∀ (src dst : Operand) (s : State), SourceReady src s → DstComparable dst (sourceAfter src s) →
    let v := sourceValue src s
    let u := sourceAfter src s
    let d := sourceValue dst u
    exec (.cmp src dst) s = .next ((sourceAfter dst u).setFlags
      { s.flags with
        z := decide (d = v)
        c := decide (d.toNat < v.toNat)
        o := decide (d.toInt - v.toInt < -32768 ∨ 32767 < d.toInt - v.toInt)
        s := (d - v).getLsbD 15 })

/-- AND, TEST, OR and XOR: opcodes 0110 to 1001; `Z` and `S` of the 16-bit result, `C` and `O` stay; TEST reads its destination,
with its side effect, and does not write it; 5 clocks between registers (R232, R239 to R242). A destination at 0xC000 is
neither modifiable nor comparable: FlagsDestinationStops. -/
def Obligations.AndTestOrXorResult : Prop :=
  (DualEncoding 0b0110#4 .and ∧ DualEncoding 0b0111#4 .test ∧ DualEncoding 0b1000#4 .or ∧ DualEncoding 0b1001#4 .xor) ∧
  (∀ mk ∈ [Instr.and, Instr.test, Instr.or, Instr.xor], ∀ (a b : RegNum) (s : State), cycles (mk (.reg a) (.reg b)) s = 5) ∧
  ∀ (src dst : Operand) (s : State), SourceReady src s →
    let v := sourceValue src s
    let u := sourceAfter src s
    let d := sourceValue dst u
    let flagsOf : Word → Flags := fun r => { s.flags with z := decide (r = 0#16), s := r.getLsbD 15 }
    (DstModifiable dst (d &&& v) u → exec (.and src dst) s = .next (written dst (d &&& v) (u.setFlags (flagsOf (d &&& v))))) ∧
    (DstComparable dst u → exec (.test src dst) s = .next ((sourceAfter dst u).setFlags (flagsOf (d &&& v)))) ∧
    (DstModifiable dst (d ||| v) u → exec (.or src dst) s = .next (written dst (d ||| v) (u.setFlags (flagsOf (d ||| v))))) ∧
    (DstModifiable dst (d ^^^ v) u → exec (.xor src dst) s = .next (written dst (d ^^^ v) (u.setFlags (flagsOf (d ^^^ v)))))

/-! What the single operand instructions do. -/

/-- SHR and SHL by `k` in 1..8, the field plus one, their words `1101 000 nnn dddddd` and `1101 001 nnn dddddd`: SHR divides
the signed value rounding down, `C` is the last bit moved out, `O` stays (43_single_operand.md R271, R272). -/
def Obligations.ShrShlResult : Prop :=
  (CountEncoding 0b000#3 .shr ∧ CountEncoding 0b001#3 .shl) ∧
  ∀ (n : Fin 8) (dst : Operand) (s : State),
    let k := n.val + 1
    let d := sourceValue dst s
    let after : Word → Nat → State := fun r last =>
      written dst r (s.setFlags { s.flags with z := decide (r = 0#16), c := decide (last = 1), s := r.getLsbD 15 })
    (DstModifiable dst (BitVec.ofInt 16 (d.toInt / 2 ^ k)) s →
      exec (.shr n dst) s = .next (after (BitVec.ofInt 16 (d.toInt / 2 ^ k)) (d.toNat / 2 ^ (k - 1) % 2))) ∧
    (DstModifiable dst (BitVec.ofNat 16 (d.toNat * 2 ^ k)) s →
      exec (.shl n dst) s = .next (after (BitVec.ofNat 16 (d.toNat * 2 ^ k)) (d.toNat / 2 ^ (16 - k) % 2)))

/-- ROR and ROL by `k` in 1..8, their words `1101 010 nnn dddddd` and `1101 011 nnn dddddd`, over the 16 bits, not through `C`;
`C` is the last bit moved, `O` stays (R273, R274). That ROR writes `C` so is the spec's own inference ("PG lists C as affected
and defines ROR by reference to SHR", R273). -/
def Obligations.RorRolResult : Prop :=
  (CountEncoding 0b010#3 .ror ∧ CountEncoding 0b011#3 .rol) ∧
  ∀ (n : Fin 8) (dst : Operand) (s : State),
    let k := n.val + 1
    let d := sourceValue dst s
    let right := BitVec.ofNat 16 (d.toNat / 2 ^ k + d.toNat % 2 ^ k * 2 ^ (16 - k))
    let left := BitVec.ofNat 16 (d.toNat * 2 ^ k % 2 ^ 16 + d.toNat / 2 ^ (16 - k))
    let after : Word → Bool → State := fun r last =>
      written dst r (s.setFlags { s.flags with z := decide (r = 0#16), c := last, s := r.getLsbD 15 })
    (DstModifiable dst right s → exec (.ror n dst) s = .next (after right (right.getLsbD 15))) ∧
    (DstModifiable dst left s → exec (.rol n dst) s = .next (after left (left.getLsbD 0)))

/-- ADDI and SUBI by 1..8, their words `1101 100 nnn dddddd` and `1101 101 nnn dddddd`: `Z` and `S`; `C` and `O` stay (R275,
R276). -/
def Obligations.AddiSubiResult : Prop :=
  (CountEncoding 0b100#3 .addi ∧ CountEncoding 0b101#3 .subi) ∧
  ∀ (n : Fin 8) (dst : Operand) (s : State),
    let d := sourceValue dst s
    let sum := BitVec.ofNat 16 (d.toNat + (n.val + 1))
    let difference := BitVec.ofInt 16 ((d.toNat : Int) - (n.val + 1))
    let after : Word → State := fun r =>
      written dst r (s.setFlags { s.flags with z := decide (r = 0#16), s := r.getLsbD 15 })
    (DstModifiable dst sum s → exec (.addi n dst) s = .next (after sum)) ∧
    (DstModifiable dst difference s → exec (.subi n dst) s = .next (after difference))

/-- NOT, NEG and CBW, their words `1101 111 ppp dddddd` with 000, 001, 100; NOT and CBW keep `C` and `O` (R277, R279), NEG has
the flags of `0 - d` (R278, by the spec's decision D9, log 7). -/
def Obligations.NotNegCbwResult : Prop :=
  (UnaryEncoding 0b000#3 .not ∧ UnaryEncoding 0b001#3 .neg ∧ UnaryEncoding 0b100#3 .cbw) ∧
  ∀ (dst : Operand) (s : State),
    let d := sourceValue dst s
    let inverse := BitVec.ofNat 16 (65535 - d.toNat)
    let negative := BitVec.ofNat 16 (65536 - d.toNat)
    let extended := BitVec.ofNat 16 (if d.toNat % 256 < 128 then d.toNat % 256 else 0xFF00 + d.toNat % 256)
    (DstModifiable dst inverse s → exec (.not dst) s = .next (written dst inverse
      (s.setFlags { s.flags with z := decide (inverse = 0#16), s := inverse.getLsbD 15 }))) ∧
    (DstModifiable dst negative s → exec (.neg dst) s = .next (written dst negative
      (s.setFlags { s.flags with
        z := decide (d = 0#16), c := decide (d ≠ 0#16), o := decide (d = 0x8000#16), s := negative.getLsbD 15 }))) ∧
    (DstModifiable dst extended s → exec (.cbw dst) s = .next (written dst extended
      (s.setFlags { s.flags with z := decide (extended = 0#16), s := d.getLsbD 7 })))

/-! What the program control and miscellaneous instructions do. -/

/-- Jcc, the fifteen relative jumps: the word `1100 cccc 0 ooooooo`, whatever follows it, is the jump on `cccc`; it moves `pc` by
twice the signed offset from the next instruction when the condition holds, and else leaves it there; nothing else changes, from
an even `pc` the target is even, and it takes 3 clocks (42_program_control.md R251; the base is the spec's decision D3). -/
def Obligations.RelativeJumpResult : Prop :=
  (∀ (k : BitVec 4) (cnd : Cond) (off : BitVec 7) (ws : List Word), condOfField k = some cnd →
    decodeWords ((0b1100#4 ++ k ++ 0#1 ++ off) :: ws) = .ok (jumpInstr cnd off, ws)) ∧
  ∀ (cnd : Cond) (off : BitVec 7) (s : State),
    let target := if condHolds cnd s.flags then BitVec.ofInt 16 (s.pc.toNat + 2 * off.toInt) else s.pc
    exec (jumpInstr cnd off) s = .next (s.setPc target) ∧ (s.pc.toNat % 2 = 0 → target.toNat % 2 = 0) ∧
      cycles (jumpInstr cnd off) s = 3

/-- JccL, the fifteen jumps to an operand's value, `1100 cccc 10 dddddd`: taken, the operand is read with its side effect and is
the target; not taken, nothing changes (R252; by the spec's decisions D7, D23 and D24). -/
def Obligations.LongJumpResult : Prop :=
  LongEncoding 0b1100#4 jumpLongInstr ∧
  ∀ (cnd : Cond) (target : Operand) (s : State),
    (condHolds cnd s.flags = false → exec (jumpLongInstr cnd target) s = .next s) ∧
    (condHolds cnd s.flags = true → SourceReady target s → (sourceValue target s).toNat % 2 = 0 →
      exec (jumpLongInstr cnd target) s = .next ((sourceAfter target s).setPc (sourceValue target s)))

/-- Rcc, the fifteen returns: the word `1100 cccc 10 010111` is the return on `cccc`; taken, the word at `r15` is popped into
`pc`, an odd one being a ModelFault, in 6 clocks, and one more where `[r15]` is an internal register (R363; which addresses are, REGBANK among them, is in part
the model's choice, log 22); not taken, nothing changes. It is JccL with the operand `[r15]` (R253). -/
def Obligations.ReturnResult : Prop :=
  (∀ (k : BitVec 4) (cnd : Cond) (ws : List Word), condOfField k = some cnd →
    decodeWords ((0b1100#4 ++ k ++ 0b10010111#8) :: ws) = .ok (returnInstr cnd, ws)) ∧
  ∀ (cnd : Cond) (s : State),
    let target := peek .word (stackPointer s) s
    (condHolds cnd s.flags = false → exec (returnInstr cnd) s = .next s) ∧
    (condHolds cnd s.flags = true → RegReady spReg s → Readable .word (stackPointer s) s →
      (target.toNat % 2 = 0 →
        exec (returnInstr cnd) s = .next ((pokeReg spReg (stackPointer s + 2#16) s).setPc target)) ∧
      (target.toNat % 2 = 1 → exec (returnInstr cnd) s = .fault (.oddTarget target))) ∧
    (condHolds cnd s.flags = true → RegReady spReg s → cycles (returnInstr cnd) s =
      if isInternalRegister s (stackPointer s) = true then 7 else 6) ∧
    exec (returnInstr cnd) s = exec (jumpLongInstr cnd .stack) s

/-- Ccc, the fifteen calls, `1010 cccc 10 dddddd`: taken, `pc` (the next instruction) is pushed, then the operand is read and is
the target, an odd one being a ModelFault; an operand that names `r15` stops it; not taken, nothing changes. 7 clocks taken with a
register or an immediate, 4 not taken (R254). By the spec's own decisions: an operand not evaluated when not taken (D7), push
before read (D8), the operand's value as the target (D23), byte-wide operands too (D24, log 29), the stop on `r15` (U16). That
`pc` is past the extension word here is StepRunsDecodedInstruction's. -/
def Obligations.CallResult : Prop :=
  LongEncoding 0b1010#4 callInstr ∧
  ∀ (cnd : Cond) (target : Operand) (s : State),
    let u := written .stack s.pc s
    (condHolds cnd s.flags = false → exec (callInstr cnd target) s = .next s ∧ cycles (callInstr cnd target) s = 4) ∧
    (condHolds cnd s.flags = true →
      ((target = .reg 15 ∨ target = .stack ∨ ∃ w off, target = .index w 7 off) →
        exec (callInstr cnd target) s = .fault .callThroughStackPointer) ∧
      (namesStackPointer target = false → DstWritable .stack s.pc s → SourceReady target u →
        ((sourceValue target u).toNat % 2 = 0 →
          exec (callInstr cnd target) s = .next ((sourceAfter target u).setPc (sourceValue target u))) ∧
        ((sourceValue target u).toNat % 2 = 1 →
          exec (callInstr cnd target) s = .fault (.oddTarget (sourceValue target u)))) ∧
      (∀ (r : RegNum) (v : Word), target = .reg r ∨ target = .imm v → cycles (callInstr cnd target) s = 7))

/-- INT: the word `1010 1111 0 vvvvvvv`; `pc` is pushed and loaded from the vector table's word at `2 * v`, an odd one being a
ModelFault, in 7 clocks; no flag changes, `I` least of all, and neither `I` nor any enable bit is asked (R255). -/
def Obligations.IntResult : Prop :=
  (∀ (v : Fin 128) (ws : List Word), decodeWords ((0b101011110#9 ++ BitVec.ofNat 7 v.val) :: ws) = .ok (.int v, ws)) ∧
  ∀ (v : Fin 128) (s : State),
    let u := written .stack s.pc s
    let entry := BitVec.ofNat 16 (2 * v.val)
    let target := peek .word entry u
    cycles (.int v) s = 7 ∧
    (DstWritable .stack s.pc s → Readable .word entry s →
      (target.toNat % 2 = 0 → exec (.int v) s = .next (u.setPc target)) ∧
      (target.toNat % 2 = 1 → exec (.int v) s = .fault (.oddTarget target)))

/-- STI, CLI, STC and CLC: the four words, whatever follows them; each completes in every state in 3 clocks, writing its one flag
and nothing else (44_miscellaneous.md R290 to R293). -/
def Obligations.FlagInstructionResult : Prop :=
  (∀ ws : List Word,
    decodeWords (0xDFC0#16 :: ws) = .ok (.sti, ws) ∧ decodeWords (0xDFC1#16 :: ws) = .ok (.cli, ws) ∧
      decodeWords (0xDFC2#16 :: ws) = .ok (.stc, ws) ∧ decodeWords (0xDFC3#16 :: ws) = .ok (.clc, ws)) ∧
  ∀ s : State,
    exec .sti s = .next (s.setFlags ⟨s.flags.z, s.flags.c, s.flags.o, s.flags.s, true⟩) ∧
    exec .cli s = .next (s.setFlags ⟨s.flags.z, s.flags.c, s.flags.o, s.flags.s, false⟩) ∧
    exec .stc s = .next (s.setFlags ⟨s.flags.z, true, s.flags.o, s.flags.s, s.flags.i⟩) ∧
    exec .clc s = .next (s.setFlags ⟨s.flags.z, false, s.flags.o, s.flags.s, s.flags.i⟩) ∧
    ∀ i ∈ [Instr.sti, .cli, .stc, .clc], cycles i s = 3

/-- Push and Pop (40_operands.md R214): a push stores at `r15 - 2` with `r15` moved there, a pop delivers the word at `r15` and
moves `r15` up by 2. What `CALL address` pushed, RET pops: `pc` and `r15` come back, where the stack word is plain memory apart
from `r15`'s own word. -/
def Obligations.PushPopCallReturn : Prop :=
  (∀ (v : Word) (s : State), DstWritable .stack v s →
    push v s = .ok (poke .word (stackPointer s - 2#16) v (pokeReg spReg (stackPointer s - 2#16) s))) ∧
  (∀ s : State, SourceReady .stack s →
    pop s = .ok (peek .word (stackPointer s) s, pokeReg spReg (stackPointer s + 2#16) s)) ∧
  ∀ (s u : State) (target : Word), MachineInv s → exec (.call (.imm target)) s = .next u →
    isControlWord (stackPointer s - 2#16) = false →
    (∀ b ∈ accessBytes .word (stackPointer s - 2#16), b ∉ regBytes spReg s) →
    load .word (stackPointer u) u = .ok s.pc ∧ stackPointer u = stackPointer s - 2#16 ∧
      ∃ t, exec .ret u = .next t ∧ t.pc = s.pc ∧ stackPointer t = stackPointer s ∧ t.flags = s.flags

/-! Where the spec raises ModelFault. -/

/-- An odd target stops JccL, Rcc, Ccc, INT and interrupt entry; a relative jump from an even `pc` has an even target (R257,
by the spec's decision D4). -/
def Obligations.OddTargetStops : Prop :=
  (∀ (cnd : Cond) (target : Operand) (s : State), condHolds cnd s.flags = true → SourceReady target s →
    (sourceValue target s).toNat % 2 = 1 →
    exec (jumpLongInstr cnd target) s = .fault (.oddTarget (sourceValue target s))) ∧
  (∀ (cnd : Cond) (s : State), condHolds cnd s.flags = true → SourceReady .stack s →
    (sourceValue .stack s).toNat % 2 = 1 → exec (returnInstr cnd) s = .fault (.oddTarget (sourceValue .stack s))) ∧
  (∀ (cnd : Cond) (target : Operand) (s : State), condHolds cnd s.flags = true → namesStackPointer target = false →
    DstWritable .stack s.pc s → SourceReady target (written .stack s.pc s) →
    (sourceValue target (written .stack s.pc s)).toNat % 2 = 1 →
    exec (callInstr cnd target) s = .fault (.oddTarget (sourceValue target (written .stack s.pc s)))) ∧
  (∀ (v : Fin 128) (s : State), DstWritable .stack s.pc s → Readable .word (vectorAddr v) s →
    (peek .word (vectorAddr v) (written .stack s.pc s)).toNat % 2 = 1 →
    exec (.int v) s = .fault (.oddTarget (peek .word (vectorAddr v) (written .stack s.pc s)))) ∧
  (∀ (n : Fin 48) (s : State), DstWritable .stack s.pc s → Readable .word (vectorAddr s.params.irqVector[n]) s →
    (peek .word (vectorAddr s.params.irqVector[n]) (written .stack s.pc (s.clearPend n))).toNat % 2 = 1 →
    ∃ a, takeInterrupt n s = .error (.oddTarget a)) ∧
  ∀ (cnd : Cond) (off : BitVec 7) (s t : State), s.pc.toNat % 2 = 0 → exec (jumpInstr cnd off) s = .next t →
    t.pc.toNat % 2 = 0

/-- `[r15]` as a destination that is read and written stops each of the sixteen such instructions (40_operands.md R207). -/
def Obligations.ReadModifyWriteStackStops : Prop :=
  (∀ (src : Operand) (s : State), SourceReady src s →
    ∀ mk ∈ [Instr.add, Instr.addc, Instr.sub, Instr.subb, Instr.and, Instr.or, Instr.xor],
      exec (mk src .stack) s = .fault .readModifyWriteStack) ∧
  (∀ (n : Fin 8) (s : State), ∀ mk ∈ [Instr.shr, Instr.shl, Instr.ror, Instr.rol, Instr.addi, Instr.subi],
    exec (mk n .stack) s = .fault .readModifyWriteStack) ∧
  ∀ s : State, ∀ mk ∈ [Instr.not, Instr.neg, Instr.cbw], exec (mk .stack) s = .fault .readModifyWriteStack

/-- The flags register as the destination of an instruction that itself sets flags stops it, for each of the eighteen such
instructions, CMP and TEST among them, whatever mode names it (10_state.md R123; 93_implementation_defined.md U9; log 10). An
`[r15]` that is read and written stops all the same, by ReadModifyWriteStackStops. -/
def Obligations.FlagsDestinationStops : Prop :=
  (∀ (src dst : Operand) (s : State), dst ≠ .stack → SourceReady src s → SourceReady dst (sourceAfter src s) →
    operandAddress .readWrite dst (sourceAfter src s) = .ok flagsAddr →
    ∀ mk ∈ [Instr.add, Instr.addc, Instr.sub, Instr.subb, Instr.and, Instr.or, Instr.xor],
      exec (mk src dst) s = .fault .flagsDestination) ∧
  (∀ (src dst : Operand) (s : State), SourceReady src s → SourceReady dst (sourceAfter src s) →
    operandAddress .read dst (sourceAfter src s) = .ok flagsAddr →
    ∀ mk ∈ [Instr.cmp, Instr.test], exec (mk src dst) s = .fault .flagsDestination) ∧
  ∀ (dst : Operand) (s : State), dst ≠ .stack → SourceReady dst s → operandAddress .readWrite dst s = .ok flagsAddr →
    (∀ (n : Fin 8), ∀ mk ∈ [Instr.shr, Instr.shl, Instr.ror, Instr.rol, Instr.addi, Instr.subi],
      exec (mk n dst) s = .fault .flagsDestination) ∧
    ∀ mk ∈ [Instr.not, Instr.neg, Instr.cbw], exec (mk dst) s = .fault .flagsDestination

/-! Frames: what an instruction leaves as it was. -/

/-- The frame of ADD, ADDC, SUB, SUBB, AND, OR and XOR: no byte changes but the destination's own, at the address its mode
gives after the source is read, and those of the registers the two modes move; `pc`, `I`, latches and parameters stay; REGBANK
and Interrupt Enable stay unless they are the destination; AND, OR and XOR keep `C` and `O` (41_dual_operand.md R232, R243;
40_operands.md R207, R210). -/
def Obligations.DualModifyFrame : Prop :=
  ∀ (src dst : Operand) (s t : State),
    ∀ mk ∈ [Instr.add, Instr.addc, Instr.sub, Instr.subb, Instr.and, Instr.or, Instr.xor],
    exec (mk src dst) s = .next t →
    ∀ a, operandAddress .readWrite dst (sourceAfter src s) = .ok a →
      (∀ b : Word, b ∉ accessBytes (operandWidth dst) a → b ∉ sideEffectBytes src s → b ∉ sideEffectBytes dst t →
        byteAt t b = byteAt s b) ∧
      t.pc = s.pc ∧ t.flags.i = s.flags.i ∧ SameInterruptInputs s t ∧
      (a ≠ regbankAddr → t.regbank = s.regbank) ∧ (a ≠ intEnableAddr → t.intEnable = s.intEnable) ∧
      (mk ∈ [Instr.and, Instr.or, Instr.xor] → t.flags.c = s.flags.c ∧ t.flags.o = s.flags.o)

/-- The frame of SHR, SHL, ROR, ROL, ADDI, SUBI, NOT, NEG and CBW, said as for the dual operand instructions; all but NEG keep
`O`, and ADDI, SUBI, NOT and CBW keep `C` (43_single_operand.md R270 to R279). -/
def Obligations.SingleModifyFrame : Prop :=
  ∀ (n : Fin 8) (dst : Operand) (s t : State) (i : Instr),
    i ∈ [.shr n dst, .shl n dst, .ror n dst, .rol n dst, .addi n dst, .subi n dst, .not dst, .neg dst, .cbw dst] →
    exec i s = .next t →
    ∀ a, operandAddress .readWrite dst s = .ok a →
      (∀ b : Word, b ∉ accessBytes (operandWidth dst) a → b ∉ sideEffectBytes dst t → byteAt t b = byteAt s b) ∧
      t.pc = s.pc ∧ t.flags.i = s.flags.i ∧ SameInterruptInputs s t ∧
      (a ≠ regbankAddr → t.regbank = s.regbank) ∧ (a ≠ intEnableAddr → t.intEnable = s.intEnable) ∧
      (i ≠ .neg dst → t.flags.o = s.flags.o) ∧
      (i ∈ [.addi n dst, .subi n dst, .not dst, .cbw dst] → t.flags.c = s.flags.c)

/-- The frame of CMP and TEST: no byte changes but those of the registers the two modes move (41_dual_operand.md R238, R240). -/
def Obligations.CompareFrame : Prop :=
  ∀ (src dst : Operand) (s t : State), ∀ mk ∈ [Instr.cmp, Instr.test], exec (mk src dst) s = .next t →
    (∀ b : Word, b ∉ sideEffectBytes src s → b ∉ sideEffectBytes dst s → byteAt t b = byteAt s b) ∧
      t.pc = s.pc ∧ t.flags.i = s.flags.i ∧ t.regbank = s.regbank ∧ t.intEnable = s.intEnable ∧ SameInterruptInputs s t ∧
      (mk = .test → t.flags.c = s.flags.c ∧ t.flags.o = s.flags.o)

/-- The frame of MOV: no byte changes but the destination's own and those of the registers the two modes move; each control
register stays unless it is the destination (R233, 40_operands.md R207, R210). -/
def Obligations.MovFrame : Prop :=
  ∀ (src dst : Operand) (s t : State), exec (.mov src dst) s = .next t →
    ∀ a, operandAddress .write dst (sourceAfter src s) = .ok a →
      (∀ b : Word, b ∉ accessBytes (operandWidth dst) a → b ∉ sideEffectBytes src s → b ∉ sideEffectBytes dst s →
        b ∉ sideEffectBytes dst t → byteAt t b = byteAt s b) ∧
      t.pc = s.pc ∧ SameInterruptInputs s t ∧ (a ≠ flagsAddr → t.flags = s.flags) ∧
      (a ≠ regbankAddr → t.regbank = s.regbank) ∧ (a ≠ intEnableAddr → t.intEnable = s.intEnable)

/-- The frame of the jumps and returns: no byte changes but those of the register the operand's mode moves; no flag and no
control register changes (42_program_control.md R251 to R253). -/
def Obligations.JumpReturnFrame : Prop :=
  ∀ (cnd : Cond) (off : BitVec 7) (target : Operand) (s t : State) (i : Instr),
    (i = jumpInstr cnd off ∨ i = jumpLongInstr cnd target ∨ (i = returnInstr cnd ∧ target = .stack)) →
    exec i s = .next t →
    (∀ b : Word, b ∉ sideEffectBytes target s → byteAt t b = byteAt s b) ∧
      (i = jumpInstr cnd off → t.mem = s.mem) ∧ t.flags = s.flags ∧ t.regbank = s.regbank ∧ t.intEnable = s.intEnable ∧
      SameInterruptInputs s t

/-- The frame of the calls and INT: no byte changes but the pushed word at `r15 - 2`, `r15` itself and the register the operand's
mode moves; flags and control registers stay unless the stack lies on them (R254, R255). -/
def Obligations.CallFrame : Prop :=
  ∀ (cnd : Cond) (target : Operand) (v : Fin 128) (s t : State) (i : Instr),
    (i = callInstr cnd target ∨ (i = .int v ∧ target = .imm 0#16)) → exec i s = .next t →
    ∀ a, operandAddress .write .stack s = .ok a →
      (∀ b : Word, b ∉ accessBytes .word a → b ∉ regBytes spReg s → b ∉ sideEffectBytes target t →
        byteAt t b = byteAt s b) ∧
      SameInterruptInputs s t ∧ (a ≠ flagsAddr → t.flags = s.flags) ∧ (a ≠ regbankAddr → t.regbank = s.regbank) ∧
      (a ≠ intEnableAddr → t.intEnable = s.intEnable)

/-! The step and hardware interrupts. -/

/-- Where no interrupt is recognised and the words at `pc` decode to `i`, the step runs `i` with `pc` moved past its words and
the boundary's requests latched (70_reset_and_hazards.md R356; 30_encoding.md R170). -/
def Obligations.StepRunsDecodedInstruction : Prop :=
  ∀ (s : State) (i : Instr) (rest : List Word), recognise (latchRequests s) = none →
    decodeWords [peek .word s.pc s, peek .word (s.pc + 2#16) s, peek .word (s.pc + 4#16) s] = .ok (i, rest) →
    (∀ k : Nat, k + rest.length < 3 → Readable .word (s.pc + BitVec.ofNat 16 (2 * k)) s) →
    step s = exec i ((latchRequests s).setPc (s.pc + BitVec.ofNat 16 (2 * (3 - rest.length))))

/-- A reserved word at `pc` stops the step: it has neither a length nor an effect (R186). -/
def Obligations.ReservedWordStops : Prop :=
  ∀ (s : State) (c : ReservedClass), recognise (latchRequests s) = none → Readable .word s.pc s →
    decodeWords [peek .word s.pc s, 0#16, 0#16] = .error (.reserved c) →
    step s = .fault (.reservedEncoding (.reserved c))

/-- An interrupt is recognised exactly where `I` is 1 and some source is pending and enabled, and then it is such a source,
whatever the choice among them (60_exceptions.md R323, R325, R331). -/
def Obligations.RecognitionRule : Prop :=
  ∀ s : State,
    ((recognise s).isSome = true ↔
      s.flags.i = true ∧ ∃ n : Fin 48, s.pend.getLsbD n.val = true ∧
        s.intEnable.getLsbD (s.params.intEnableBit[n]).val = true) ∧
    ∀ n, recognise s = some n → s.pend.getLsbD n.val = true ∧ s.intEnable.getLsbD (s.params.intEnableBit[n]).val = true

/-- Interrupt entry: the latch is cleared, `pc` is pushed, `I` is cleared and `pc` is loaded from the vector table, an odd entry
being a ModelFault; it is a step of its own, and beside the latching of that boundary's requests nothing else changes (R326,
70_reset_and_hazards.md R356). That the handler's address is the table word at `2 * IRQ_VECTOR(n)` is the spec's decision D12
(R322, log 7), the fault on an odd entry its decision D4; the requests as a list of the state are the model's choice (log 15). -/
def Obligations.InterruptEntry : Prop :=
  ∀ (s : State) (n : Fin 48), recognise (latchRequests s) = some n →
    let u := written .stack s.pc ((latchRequests s).clearPend n)
    let entry := BitVec.ofNat 16 (2 * (s.params.irqVector[n]).val)
    let target := peek .word entry u
    DstWritable .stack s.pc s → Readable .word entry s →
      (target.toNat % 2 = 0 → step s = .next ((u.setFlags { u.flags with i := false }).setPc target)) ∧
      (target.toNat % 2 = 1 → step s = .fault (.oddTarget target))

/-- The frame of interrupt entry: no byte changes but the pushed word and `r15`; the latches of the other sources, the open
parameters stay; flags but `I` and control registers stay unless the stack lies on them (R326, R327). -/
def Obligations.InterruptEntryFrame : Prop :=
  ∀ (n : Fin 48) (s t : State), takeInterrupt n s = .ok t →
    ∀ a, operandAddress .write .stack s = .ok a →
      (∀ b : Word, b ∉ accessBytes .word a → b ∉ regBytes spReg s → byteAt t b = byteAt s b) ∧
      (∀ m : Fin 48, t.pend.getLsbD m.val = (s.pend.getLsbD m.val && decide (m ≠ n))) ∧
      t.params = s.params ∧ t.irqInputs = s.irqInputs ∧ t.flags.i = false ∧
      (a ≠ flagsAddr → t.flags = { s.flags with i := false }) ∧ (a ≠ regbankAddr → t.regbank = s.regbank) ∧
      (a ≠ intEnableAddr → t.intEnable = s.intEnable)

/-- While `I` is 0 no interrupt is taken, and every request that arrives is latched and kept (R324, 44_miscellaneous.md R291). -/
def Obligations.RequestsAreKeptWhileDisabled : Prop :=
  ∀ s t : State, s.flags.i = false → step s = .next t →
    ∀ n : Fin 48, t.pend.getLsbD n.val = true ↔
      s.pend.getLsbD n.val = true ∨ ∃ req, s.irqInputs.head? = some req ∧ req.getLsbD n.val = true

/-- Right after STI a pending enabled interrupt is taken, before the next instruction; right after CLI none is (R290, R291). -/
def Obligations.StiCliBoundary : Prop :=
  (∀ (s t : State) (n : Fin 48), exec .sti s = .next t → s.pend.getLsbD n.val = true → irqEnabled s n = true →
    ∃ m : Fin 48, recognise (latchRequests t) = some m ∧ step t = toOutcome (takeInterrupt m (latchRequests t))) ∧
  ∀ s t : State, exec .cli s = .next t → recognise (latchRequests t) = none

/-! Timing. -/

/-- The clock cycles of every instruction: its count with register operands, and for each operand the adder of its mode and one
wait where its address is an internal register: 0xC000, 0xC00E and 0xC024 under every MEMMAP (70_reset_and_hazards.md R360 to
R364). A call's operand is the one after the push. That REGBANK and MEMMAP's other control addresses pay the wait and that a step
which stops has no cost are the model's choices (log 22); a not-taken return's 4 is the
spec's decision D25. -/
def Obligations.RegisterCycleCounts : Prop :=
  (∀ (r : RegNum) (v a off : Word) (w : Width) (p : PtrReg) (q : BaseReg),
    modeAdder (.reg r) = 0 ∧ modeAdder (.imm v) = 0 ∧ modeAdder (.direct w a) = 1 ∧ modeAdder (.ind w p) = 1 ∧
      modeAdder (.autoInc w p) = 2 ∧ modeAdder (.index w q off) = 3 ∧ modeAdder .stack = 2) ∧
  (∀ (acc : Access) (r : RegNum) (v : Word) (s : State),
    registerWait acc (.reg r) s = 0 ∧ registerWait acc (.imm v) s = 0) ∧
  (∀ (acc : Access) (op : Operand) (s : State) (a : Word), (∀ r : RegNum, op ≠ .reg r) → operandAddress acc op s = .ok a →
    registerWait acc op s =
      if a = 0xC000#16 ∨ a = 0xC00E#16 ∨ a = 0xC024#16 ∨ a = 0xC002#16 ∨ kindAt s.params.memMap a = .control then 1 else 0) ∧
  (∀ (src dst : Operand) (s : State), SourceReady src s →
    let count := 5 + modeAdder src + registerWait .read src s + modeAdder dst
    let u := sourceAfter src s
    cycles (.mov src dst) s = count + registerWait .write dst u ∧
      (∀ mk ∈ [Instr.cmp, Instr.test], cycles (mk src dst) s = count + registerWait .read dst u) ∧
      ∀ mk ∈ [Instr.add, Instr.addc, Instr.sub, Instr.subb, Instr.and, Instr.or, Instr.xor],
        cycles (mk src dst) s = count + registerWait .readWrite dst u) ∧
  (∀ (n : Fin 8) (dst : Operand) (s : State),
    let own := modeAdder dst + registerWait .readWrite dst s
    (∀ mk ∈ [Instr.shr, Instr.shl, Instr.ror, Instr.rol], cycles (mk n dst) s = 2 + 2 * (n.val + 1) + own) ∧
      (∀ mk ∈ [Instr.addi, Instr.subi], cycles (mk n dst) s = 4 + own) ∧
      ∀ mk ∈ [Instr.not, Instr.neg, Instr.cbw], cycles (mk dst) s = 4 + own) ∧
  (∀ (cnd : Cond) (off : BitVec 7) (v : Fin 128) (target : Operand) (s : State),
    cycles (jumpInstr cnd off) s = 3 ∧ cycles (.int v) s = 7 ∧
      (∀ i ∈ [Instr.sti, Instr.cli, Instr.stc, Instr.clc], cycles i s = 3) ∧
      (condHolds cnd s.flags = true →
        cycles (jumpLongInstr cnd target) s = 4 + modeAdder target + registerWait .read target s ∧
        cycles (returnInstr cnd) s = 6 + registerWait .read .stack s ∧
        (DstWritable .stack s.pc s → cycles (callInstr cnd target) s =
          7 + modeAdder target + registerWait .read target (written .stack s.pc s))) ∧
      (condHolds cnd s.flags = false → cycles (returnInstr cnd) s = 4 ∧ cycles (callInstr cnd target) s = 4 ∧
        cycles (jumpLongInstr cnd target) s = 4)) ∧
  ∀ s : State, (∃ c, stepCost s = some c) ↔ recognise (latchRequests s) = none ∧ ∃ t, step s = .next t

/-! The end of a run. -/

/-- A run is finished where `pc` is at the designated address, that address holds `JMP $`, 0xCF7F, and `I` is 0 or no interrupt
is pending (70_reset_and_hazards.md R357, by the spec's decision D18; a request of the same boundary is pending: the model's
choice, log 30). The machine then stays: a step only latches that boundary's requests. The end state is the one on first
arrival. -/
def Obligations.FinishedRun : Prop :=
  (∀ ws : List Word, decodeWords (0xCF7F#16 :: ws) = .ok (.jmp 0b1111111#7, ws)) ∧
  (∀ (stop : Word) (s : State), finished stop s = true ↔
    s.pc = stop ∧ load .word stop s = .ok 0xCF7F#16 ∧ (s.flags.i = false ∨ (latchRequests s).pend = 0#48)) ∧
  (∀ (stop : Word) (s : State), finished stop s = true → step s = .next (latchRequests s)) ∧
  ∀ (stop : Word) (k : Nat) (s t : State), endState stop k s = some t ↔
    finished stop t = true ∧ ∃ j ≤ k, run j s = some t ∧ ∀ i < j, ∀ u, run i s = some u → finished stop u = false
end

