-- ==== Sys2Proof/Laws/Encoding.lean ====
section
/-! SUPPORT. The fields of an instruction word as numbers, the words the encoder builds, and operand fields read back. -/

namespace Sys2Proof

/-! The fields of a word (30_encoding.md R171 to R177). -/

theorem opcodeField_toNat (w : Word) : (opcodeField w).toNat = w.toNat / 4096 := by
  have := w.isLt
  simp [opcodeField, Nat.shiftRight_eq_div_pow]
  omega

theorem condField_toNat (w : Word) : (condField w).toNat = w.toNat / 256 % 16 := by
  simp [condField, Nat.shiftRight_eq_div_pow]

theorem subField_toNat (w : Word) : (subField w).toNat = w.toNat / 512 % 8 := by
  simp [subField, Nat.shiftRight_eq_div_pow]

theorem srcField_toNat (w : Word) : (srcField w).toNat = w.toNat / 64 % 64 := by
  simp [srcField, Nat.shiftRight_eq_div_pow]

theorem paramField_toNat (w : Word) : (paramField w).toNat = w.toNat / 64 % 8 := by
  simp [paramField, Nat.shiftRight_eq_div_pow]

theorem lowField_toNat (w : Word) : (lowField w).toNat = w.toNat % 128 := by simp [lowField]

theorem dstField_toNat (w : Word) : (dstField w).toNat = w.toNat % 64 := by simp [dstField]

/-- Bit 7 of a word: formats L and R against J and V (R173 to R176). -/
theorem bitSeven_eq (w : Word) : w.getLsbD 7 = decide (w.toNat / 128 % 2 = 1) := by
  rw [BitVec.getLsbD, Nat.testBit_eq_decide_div_mod_eq]

/-- Bit 6 of a word, clear in format L (R174). -/
theorem bitSix_eq (w : Word) : w.getLsbD 6 = decide (w.toNat / 64 % 2 = 1) := by
  rw [BitVec.getLsbD, Nat.testBit_eq_decide_div_mod_eq]

/-! The words the encoder builds, as numbers. -/

theorem append_toNat {m n : Nat} (x : BitVec m) (y : BitVec n) : (x ++ y).toNat = x.toNat * 2 ^ n + y.toNat := by
  rw [BitVec.toNat_append, ← Nat.shiftLeft_add_eq_or_of_lt y.isLt, Nat.shiftLeft_eq]

theorem dualWord_toNat (op : BitVec 4) (s d : BitVec 6) :
    (op ++ s ++ d : BitVec 16).toNat = op.toNat * 4096 + s.toNat * 64 + d.toNat := by
  refine (append_toNat (op ++ s) d).trans ?_
  rw [append_toNat op s]
  ring

theorem longWord_toNat (op c : BitVec 4) (d : BitVec 6) :
    (op ++ c ++ 0b10#2 ++ d : BitVec 16).toNat = op.toNat * 4096 + c.toNat * 256 + 128 + d.toNat := by
  refine (append_toNat (op ++ c ++ 0b10#2) d).trans ?_
  rw [append_toNat (op ++ c) 0b10#2, append_toNat op c]
  simp
  ring

theorem jumpWord_toNat (c : BitVec 4) (off : BitVec 7) :
    (0b1100#4 ++ c ++ 0#1 ++ off : BitVec 16).toNat = 0xC000 + c.toNat * 256 + off.toNat := by
  refine (append_toNat (0b1100#4 ++ c ++ 0#1) off).trans ?_
  rw [append_toNat (0b1100#4 ++ c) 0#1, append_toNat 0b1100#4 c]
  simp
  ring

theorem countWord_toNat (op n : BitVec 3) (d : BitVec 6) :
    (0b1101#4 ++ op ++ n ++ d : BitVec 16).toNat = 0xD000 + op.toNat * 512 + n.toNat * 64 + d.toNat := by
  refine (append_toNat (0b1101#4 ++ op ++ n) d).trans ?_
  rw [append_toNat (0b1101#4 ++ op) n, append_toNat 0b1101#4 op]
  simp
  ring

theorem unaryWord_toNat (p : BitVec 3) (d : BitVec 6) :
    (0b1101111#7 ++ p ++ d : BitVec 16).toNat = 0xDE00 + p.toNat * 64 + d.toNat := by
  refine (append_toNat (0b1101111#7 ++ p) d).trans ?_
  rw [append_toNat 0b1101111#7 p]
  simp
  ring

theorem vectorWord_toNat (v : BitVec 7) : (0b10101111#8 ++ 0#1 ++ v : BitVec 16).toNat = 0xAF00 + v.toNat := by
  refine (append_toNat (0b10101111#8 ++ 0#1) v).trans ?_
  rw [append_toNat 0b10101111#8 0#1]
  simp

/-! Operand fields (R178 to R180). -/

/-- An operand's field names the operand back, its extension word with it (R179). -/
theorem operandOfField_field (op : Operand) : operandOfField op.field (op.ext.headD 0) = op := by
  cases op with
  | reg r => revert r; decide
  | imm v => rfl
  | stack => rfl
  | ind w p => revert p; cases w <;> decide
  | direct w a => cases w <;> rfl
  | autoInc w p => revert p; cases w <;> decide
  | index w p off => revert p; cases w <;> (intro p; fin_cases p <;> rfl)

/-- An operand has as many extension words as its field needs (R180). -/
theorem extWords_field (op : Operand) : extWords op.field = op.ext.length := by
  cases op with
  | reg r => revert r; decide
  | imm v => rfl
  | stack => rfl
  | ind w p => revert p; cases w <;> decide
  | direct w a => cases w <;> rfl
  | autoInc w p => revert p; cases w <;> decide
  | index w p off => revert p; cases w <;> (intro p; fin_cases p <;> rfl)

/-- Taking an operand off the words its encoding gives leaves what follows (R170, R180). -/
theorem takeOperand_field (op : Operand) (ws : List Word) : takeOperand op.field (op.ext ++ ws) = .ok (op, ws) := by
  have h1 := operandOfField_field op
  have h2 := extWords_field op
  unfold takeOperand
  rw [h2]
  cases op <;> simp_all [Operand.ext]

/-- Only Immediate has the field 011111 (R179). -/
theorem field_ne_immediate {op : Operand} (h : op.destinationOk = true) : op.field ≠ immediateField := by
  cases op with
  | reg r => clear h; revert r; decide
  | imm v => cases h
  | stack => decide
  | ind w p => clear h; revert p; cases w <;> decide
  | direct w a => exact (by cases w <;> decide : (0b10#2 ++ w.bit ++ 0b111#3 : BitVec 6) ≠ immediateField)
  | autoInc w p => clear h; revert p; cases w <;> decide
  | index w p off => clear h; cases w <;> (show (_ ++ BitVec.ofNat 3 p.val : BitVec 6) ≠ _; revert p; decide)

/-- Only `[r15]` has the field 010111 (R179). -/
theorem field_ne_stack {op : Operand} (h : op.jumpTargetOk = true) : op.field ≠ stackField := by
  cases op with
  | reg r => clear h; revert r; decide
  | imm v => exact (by decide : 0b011111#6 ≠ stackField)
  | stack => cases h
  | ind w p => clear h; revert p; cases w <;> decide
  | direct w a => exact (by cases w <;> decide : (0b10#2 ++ w.bit ++ 0b111#3 : BitVec 6) ≠ stackField)
  | autoInc w p => clear h; revert p; cases w <;> decide
  | index w p off => clear h; cases w <;> (show (_ ++ BitVec.ofNat 3 p.val : BitVec 6) ≠ _; revert p; decide)

/-- A condition's field names the condition back (42_program_control.md R250). -/
theorem condOfField_field (cnd : Cond) : condOfField cnd.field = some cnd := by cases cnd <;> rfl

end Sys2Proof
end

