-- ==== Sys2Proof/Laws/State.lean ====
section
/-! SUPPORT. One lemma per field per update, so that no proof unfolds a record update. -/

namespace Sys2Proof.Machine

/-! `setPc` -/

@[simp] theorem setPc_mem (s : State) (v : Word) : (s.setPc v).mem = s.mem := rfl
@[simp] theorem setPc_pc (s : State) (v : Word) : (s.setPc v).pc = v := rfl
@[simp] theorem setPc_regbank (s : State) (v : Word) : (s.setPc v).regbank = s.regbank := rfl
@[simp] theorem setPc_flags (s : State) (v : Word) : (s.setPc v).flags = s.flags := rfl
@[simp] theorem setPc_intEnable (s : State) (v : Word) : (s.setPc v).intEnable = s.intEnable := rfl
@[simp] theorem setPc_pend (s : State) (v : Word) : (s.setPc v).pend = s.pend := rfl
@[simp] theorem setPc_irqInputs (s : State) (v : Word) : (s.setPc v).irqInputs = s.irqInputs := rfl
@[simp] theorem setPc_params (s : State) (v : Word) : (s.setPc v).params = s.params := rfl

/-! `setFlags` -/

@[simp] theorem setFlags_mem (s : State) (f : Flags) : (s.setFlags f).mem = s.mem := rfl
@[simp] theorem setFlags_pc (s : State) (f : Flags) : (s.setFlags f).pc = s.pc := rfl
@[simp] theorem setFlags_regbank (s : State) (f : Flags) : (s.setFlags f).regbank = s.regbank := rfl
@[simp] theorem setFlags_flags (s : State) (f : Flags) : (s.setFlags f).flags = f := rfl
@[simp] theorem setFlags_intEnable (s : State) (f : Flags) : (s.setFlags f).intEnable = s.intEnable := rfl
@[simp] theorem setFlags_pend (s : State) (f : Flags) : (s.setFlags f).pend = s.pend := rfl
@[simp] theorem setFlags_irqInputs (s : State) (f : Flags) : (s.setFlags f).irqInputs = s.irqInputs := rfl
@[simp] theorem setFlags_params (s : State) (f : Flags) : (s.setFlags f).params = s.params := rfl

/-! `clearPend` -/

@[simp] theorem clearPend_mem (s : State) (n : Fin 48) : (s.clearPend n).mem = s.mem := rfl
@[simp] theorem clearPend_pc (s : State) (n : Fin 48) : (s.clearPend n).pc = s.pc := rfl
@[simp] theorem clearPend_regbank (s : State) (n : Fin 48) : (s.clearPend n).regbank = s.regbank := rfl
@[simp] theorem clearPend_flags (s : State) (n : Fin 48) : (s.clearPend n).flags = s.flags := rfl
@[simp] theorem clearPend_intEnable (s : State) (n : Fin 48) : (s.clearPend n).intEnable = s.intEnable := rfl
@[simp] theorem clearPend_pend (s : State) (n : Fin 48) : (s.clearPend n).pend = s.pend &&& ~~~(1#48 <<< n.val) := rfl
@[simp] theorem clearPend_irqInputs (s : State) (n : Fin 48) : (s.clearPend n).irqInputs = s.irqInputs := rfl
@[simp] theorem clearPend_params (s : State) (n : Fin 48) : (s.clearPend n).params = s.params := rfl

/-! `putByte` -/

@[simp] theorem putByte_mem (s : State) (a : Word) (v : Byte) : (s.putByte a v).mem = s.mem.write a.toNat v := rfl
@[simp] theorem putByte_pc (s : State) (a : Word) (v : Byte) : (s.putByte a v).pc = s.pc := rfl
@[simp] theorem putByte_regbank (s : State) (a : Word) (v : Byte) : (s.putByte a v).regbank = s.regbank := rfl
@[simp] theorem putByte_flags (s : State) (a : Word) (v : Byte) : (s.putByte a v).flags = s.flags := rfl
@[simp] theorem putByte_intEnable (s : State) (a : Word) (v : Byte) : (s.putByte a v).intEnable = s.intEnable := rfl
@[simp] theorem putByte_pend (s : State) (a : Word) (v : Byte) : (s.putByte a v).pend = s.pend := rfl
@[simp] theorem putByte_irqInputs (s : State) (a : Word) (v : Byte) : (s.putByte a v).irqInputs = s.irqInputs := rfl
@[simp] theorem putByte_params (s : State) (a : Word) (v : Byte) : (s.putByte a v).params = s.params := rfl

/-! `pokeReg` -/

@[simp] theorem pokeReg_pc (i : RegNum) (v : Word) (s : State) : (pokeReg i v s).pc = s.pc := rfl
@[simp] theorem pokeReg_regbank (i : RegNum) (v : Word) (s : State) : (pokeReg i v s).regbank = s.regbank := rfl
@[simp] theorem pokeReg_flags (i : RegNum) (v : Word) (s : State) : (pokeReg i v s).flags = s.flags := rfl
@[simp] theorem pokeReg_intEnable (i : RegNum) (v : Word) (s : State) : (pokeReg i v s).intEnable = s.intEnable := rfl
@[simp] theorem pokeReg_pend (i : RegNum) (v : Word) (s : State) : (pokeReg i v s).pend = s.pend := rfl
@[simp] theorem pokeReg_irqInputs (i : RegNum) (v : Word) (s : State) : (pokeReg i v s).irqInputs = s.irqInputs := rfl
@[simp] theorem pokeReg_params (i : RegNum) (v : Word) (s : State) : (pokeReg i v s).params = s.params := rfl

/-! `poke`: a byte store changes memory alone; a word store changes memory or one control register. -/

@[simp] theorem poke_byte_pc (a v : Word) (s : State) : (poke .byte a v s).pc = s.pc := rfl
@[simp] theorem poke_byte_regbank (a v : Word) (s : State) : (poke .byte a v s).regbank = s.regbank := rfl
@[simp] theorem poke_byte_flags (a v : Word) (s : State) : (poke .byte a v s).flags = s.flags := rfl
@[simp] theorem poke_byte_intEnable (a v : Word) (s : State) : (poke .byte a v s).intEnable = s.intEnable := rfl
@[simp] theorem poke_byte_pend (a v : Word) (s : State) : (poke .byte a v s).pend = s.pend := rfl
@[simp] theorem poke_byte_irqInputs (a v : Word) (s : State) : (poke .byte a v s).irqInputs = s.irqInputs := rfl
@[simp] theorem poke_byte_params (a v : Word) (s : State) : (poke .byte a v s).params = s.params := rfl
@[simp] theorem poke_pc (w : Width) (a v : Word) (s : State) : (poke w a v s).pc = s.pc := by
  cases w
  · unfold poke
    split_ifs <;> rfl
  · rfl
@[simp] theorem poke_pend (w : Width) (a v : Word) (s : State) : (poke w a v s).pend = s.pend := by
  cases w
  · unfold poke
    split_ifs <;> rfl
  · rfl
@[simp] theorem poke_irqInputs (w : Width) (a v : Word) (s : State) : (poke w a v s).irqInputs = s.irqInputs := by
  cases w
  · unfold poke
    split_ifs <;> rfl
  · rfl
@[simp] theorem poke_params (w : Width) (a v : Word) (s : State) : (poke w a v s).params = s.params := by
  cases w
  · unfold poke
    split_ifs <;> rfl
  · rfl
theorem poke_flags_of_ne (w : Width) (a v : Word) (s : State) (h : a ≠ flagsAddr) : (poke w a v s).flags = s.flags := by
  cases w
  · unfold poke
    split_ifs <;> first | rfl | contradiction
  · rfl
theorem poke_regbank_of_ne (w : Width) (a v : Word) (s : State) (h : a ≠ regbankAddr) : (poke w a v s).regbank = s.regbank := by
  cases w
  · unfold poke
    split_ifs <;> rfl
  · rfl
theorem poke_intEnable_of_ne (w : Width) (a v : Word) (s : State) (h : a ≠ intEnableAddr) : (poke w a v s).intEnable = s.intEnable := by
  cases w
  · unfold poke
    split_ifs <;> rfl
  · rfl

theorem poke_setFlags_regbank (w : Width) (a v : Word) (s : State) (f : Flags) :
    (poke w a v (s.setFlags f)).regbank = (poke w a v s).regbank := by
  cases w
  · unfold poke
    split_ifs <;> rfl
  · rfl

/-! `latchRequests` -/

@[simp] theorem latchRequests_mem (s : State) : (latchRequests s).mem = s.mem := by
  unfold latchRequests
  split <;> rfl
@[simp] theorem latchRequests_pc (s : State) : (latchRequests s).pc = s.pc := by
  unfold latchRequests
  split <;> rfl
@[simp] theorem latchRequests_regbank (s : State) : (latchRequests s).regbank = s.regbank := by
  unfold latchRequests
  split <;> rfl
@[simp] theorem latchRequests_flags (s : State) : (latchRequests s).flags = s.flags := by
  unfold latchRequests
  split <;> rfl
@[simp] theorem latchRequests_intEnable (s : State) : (latchRequests s).intEnable = s.intEnable := by
  unfold latchRequests
  split <;> rfl
@[simp] theorem latchRequests_params (s : State) : (latchRequests s).params = s.params := by
  unfold latchRequests
  split <;> rfl
theorem latchRequests_of_nil (s : State) (h : s.irqInputs = []) : latchRequests s = s := by
  simp [latchRequests, h]

/-! Updates of `pc`, flags and latches touch no byte and no register. -/

@[simp] theorem byteAt_setPc (s : State) (v a : Word) : byteAt (s.setPc v) a = byteAt s a := rfl
@[simp] theorem byteAt_setFlags (s : State) (f : Flags) (a : Word) : byteAt (s.setFlags f) a = byteAt s a := rfl
@[simp] theorem byteAt_clearPend (s : State) (n : Fin 48) (a : Word) : byteAt (s.clearPend n) a = byteAt s a := rfl
@[simp] theorem regAddr_setPc (i : RegNum) (s : State) (v : Word) : regAddr i (s.setPc v) = regAddr i s := rfl
@[simp] theorem regAddr_setFlags (i : RegNum) (s : State) (f : Flags) : regAddr i (s.setFlags f) = regAddr i s := rfl
@[simp] theorem regAddr_clearPend (i : RegNum) (s : State) (n : Fin 48) : regAddr i (s.clearPend n) = regAddr i s := rfl
@[simp] theorem regAddr_pokeReg (i j : RegNum) (v : Word) (s : State) : regAddr i (pokeReg j v s) = regAddr i s := rfl
@[simp] theorem peekReg_setPc (i : RegNum) (s : State) (v : Word) : peekReg i (s.setPc v) = peekReg i s := rfl
@[simp] theorem peekReg_setFlags (i : RegNum) (s : State) (f : Flags) : peekReg i (s.setFlags f) = peekReg i s := rfl
@[simp] theorem peekReg_clearPend (i : RegNum) (s : State) (n : Fin 48) : peekReg i (s.clearPend n) = peekReg i s := rfl

/-! A register's address depends on REGBANK alone; what MEMMAP says depends on the parameters alone. -/

theorem regAddr_congr {s t : State} (i : RegNum) (h : t.regbank = s.regbank) : regAddr i t = regAddr i s := by
  simp [regAddr, h]

theorem regFault_congr {s t : State} (i : RegNum) (hb : t.regbank = s.regbank) (hp : t.params = s.params) :
    regFault i t = regFault i s := by
  simp [regFault, regAddr_congr i hb, isReadWrite, hp]

theorem readFault_congr {s t : State} (w : Width) (a : Word) (hp : t.params = s.params) :
    readFault w a t = readFault w a s := by
  cases w <;> simp [readFault, byteReadFault, hp]

theorem writeFault_congr {s t : State} (w : Width) (a : Word) (hp : t.params = s.params) :
    writeFault w a t = writeFault w a s := by
  cases w <;> simp [writeFault, byteWriteFault, hp]

/-! What goes through is the same after updates of other fields. -/

@[simp] theorem regFault_setPc (i : RegNum) (s : State) (v : Word) : regFault i (s.setPc v) = regFault i s :=
  regFault_congr i rfl rfl
@[simp] theorem regFault_setFlags (i : RegNum) (s : State) (f : Flags) : regFault i (s.setFlags f) = regFault i s :=
  regFault_congr i rfl rfl
@[simp] theorem regFault_clearPend (i : RegNum) (s : State) (n : Fin 48) : regFault i (s.clearPend n) = regFault i s :=
  regFault_congr i rfl rfl
@[simp] theorem regFault_pokeReg (i : RegNum) (s : State) (j : RegNum) (v : Word) : regFault i (pokeReg j v s) = regFault i s :=
  regFault_congr i rfl rfl
@[simp] theorem readFault_setPc (w : Width) (a : Word) (s : State) (v : Word) : readFault w a (s.setPc v) = readFault w a s :=
  readFault_congr w a rfl
@[simp] theorem readFault_setFlags (w : Width) (a : Word) (s : State) (f : Flags) : readFault w a (s.setFlags f) = readFault w a s :=
  readFault_congr w a rfl
@[simp] theorem readFault_clearPend (w : Width) (a : Word) (s : State) (n : Fin 48) : readFault w a (s.clearPend n) = readFault w a s :=
  readFault_congr w a rfl
@[simp] theorem readFault_pokeReg (w : Width) (a : Word) (s : State) (j : RegNum) (v : Word) : readFault w a (pokeReg j v s) = readFault w a s :=
  readFault_congr w a rfl
@[simp] theorem readFault_poke (w : Width) (a : Word) (u : Width) (b v : Word) (s : State) : readFault w a (poke u b v s) = readFault w a s :=
  readFault_congr w a (poke_params ..)
@[simp] theorem writeFault_setPc (w : Width) (a : Word) (s : State) (v : Word) : writeFault w a (s.setPc v) = writeFault w a s :=
  writeFault_congr w a rfl
@[simp] theorem writeFault_setFlags (w : Width) (a : Word) (s : State) (f : Flags) : writeFault w a (s.setFlags f) = writeFault w a s :=
  writeFault_congr w a rfl
@[simp] theorem writeFault_clearPend (w : Width) (a : Word) (s : State) (n : Fin 48) : writeFault w a (s.clearPend n) = writeFault w a s :=
  writeFault_congr w a rfl
@[simp] theorem writeFault_pokeReg (w : Width) (a : Word) (s : State) (j : RegNum) (v : Word) : writeFault w a (pokeReg j v s) = writeFault w a s :=
  writeFault_congr w a rfl
@[simp] theorem writeFault_poke (w : Width) (a : Word) (u : Width) (b v : Word) (s : State) : writeFault w a (poke u b v s) = writeFault w a s :=
  writeFault_congr w a (poke_params ..)

end Sys2Proof.Machine
end

