-- ==== Sys2Proof/Laws/Memory.lean ====
section
/-! SUPPORT. Memory: what a write leaves at its own address and at the others, and that it keeps the canonical form. -/

namespace Sys2Proof.Machine

/-- A write leaves every other address alone. -/
theorem Memory.read_write_of_ne (m : Memory) {a b : Nat} (v : Byte) (h : b ≠ a) : (m.write a v).read b = m.read b := by
  induction m with
  | nil =>
    unfold Memory.write
    split_ifs <;> simp [Memory.read, h.symm]
  | cons c m ih =>
    obtain ⟨k, x⟩ := c
    unfold Memory.write
    split_ifs with h1 h2 h3 h4
    · rfl
    · simp [Memory.read, h.symm]
    · subst h3
      simp [Memory.read, h.symm]
    · subst h3
      simp [Memory.read, h.symm]
    · simp only [Memory.read, ih]

/-- An address below every cell reads as unlisted. -/
theorem Memory.read_of_forall_lt (m : Memory) {a : Nat} (h : ∀ c ∈ m, a < c.1) : m.read a = unlistedByte := by
  induction m with
  | nil => rfl
  | cons c m ih =>
    obtain ⟨k, x⟩ := c
    have hk : a < k := h (k, x) (by simp)
    rw [Memory.read, if_neg (by omega)]
    exact ih fun c hc => h c (by simp [hc])

/-- A write to rising memory is read back. -/
theorem Memory.read_write_self (m : Memory) (a : Nat) (v : Byte) (h : m.Pairwise (fun x y => x.1 < y.1)) :
    (m.write a v).read a = v := by
  induction m with
  | nil =>
    unfold Memory.write
    split_ifs with h1
    · exact h1.symm
    · simp [Memory.read]
  | cons c m ih =>
    obtain ⟨k, x⟩ := c
    rw [List.pairwise_cons] at h
    unfold Memory.write
    split_ifs with h1 h2 h3 h4
    · rw [Memory.read, if_neg (by omega), Memory.read_of_forall_lt m fun c hc => lt_trans h1 (h.1 c hc), h2]
    · simp [Memory.read]
    · subst h3
      rw [Memory.read_of_forall_lt m h.1, h4]
    · simp [Memory.read]
    · rw [Memory.read, if_neg (by omega)]
      exact ih h.2

/-- A cell of memory after a write is the cell written or an old one. -/
theorem Memory.mem_write {m : Memory} {a : Nat} {v : Byte} {c : Host.Cell} (h : c ∈ m.write a v) :
    (c = (a, v) ∧ v ≠ unlistedByte) ∨ c ∈ m := by
  induction m with
  | nil =>
    unfold Memory.write at h
    split_ifs at h with h1
    · simp at h
    · simp at h
      exact .inl ⟨h, h1⟩
  | cons d m ih =>
    obtain ⟨k, x⟩ := d
    unfold Memory.write at h
    split_ifs at h with h1 h2 h3 h4
    · exact .inr h
    · rcases List.mem_cons.mp h with h | h
      · exact .inl ⟨h, h2⟩
      · exact .inr h
    · exact .inr (List.mem_cons_of_mem _ h)
    · rcases List.mem_cons.mp h with h | h
      · exact .inl ⟨h, h4⟩
      · exact .inr (List.mem_cons_of_mem _ h)
    · rcases List.mem_cons.mp h with h | h
      · exact .inr (List.mem_cons.mpr (.inl h))
      · exact (ih h).imp id fun h => List.mem_cons_of_mem _ h

/-- A write within the address space keeps the canonical form. -/
theorem Memory.write_wf (m : Memory) (a : Nat) (v : Byte) (ha : a < 65536) (h : m.wf) : (m.write a v).wf := by
  refine ⟨?_, fun c hc => ?_⟩
  · have hp := h.1
    clear h ha
    induction m with
    | nil =>
      unfold Memory.write
      split_ifs <;> simp
    | cons d m ih =>
      obtain ⟨k, x⟩ := d
      have hp' := List.pairwise_cons.mp hp
      unfold Memory.write
      split_ifs with h1 h2 h3 h4
      · exact hp
      · refine List.pairwise_cons.mpr ⟨fun c hc => ?_, hp⟩
        rcases List.mem_cons.mp hc with rfl | hc
        · exact h1
        · exact lt_trans h1 (hp'.1 c hc)
      · exact hp'.2
      · subst h3
        exact List.pairwise_cons.mpr ⟨hp'.1, hp'.2⟩
      · refine List.pairwise_cons.mpr ⟨fun c hc => ?_, ih hp'.2⟩
        rcases Memory.mem_write hc with ⟨rfl, -⟩ | hc
        · simp only
          omega
        · exact hp'.1 c hc
  · rcases Memory.mem_write hc with ⟨rfl, hv⟩ | hc
    · exact ⟨ha, hv⟩
    · exact h.2 c hc

/-! The same for states. -/

theorem byteAt_putByte_of_ne (s : State) {a b : Word} (v : Byte) (h : b ≠ a) : byteAt (s.putByte a v) b = byteAt s b :=
  Memory.read_write_of_ne _ _ fun e => h (BitVec.eq_of_toNat_eq e)

theorem byteAt_putByte_self (s : State) (a : Word) (v : Byte) (h : s.mem.wf) : byteAt (s.putByte a v) a = v :=
  Memory.read_write_self _ _ _ h.1

theorem putByte_wf (s : State) (a : Word) (v : Byte) (h : s.mem.wf) : (s.putByte a v).mem.wf :=
  Memory.write_wf _ _ _ a.isLt h

theorem pokeReg_wf (i : RegNum) (v : Word) (s : State) (h : s.mem.wf) : (pokeReg i v s).mem.wf :=
  putByte_wf _ _ _ (putByte_wf _ _ _ h)

/-- Every store keeps the canonical form. -/
theorem poke_wf (w : Width) (a v : Word) (s : State) (h : s.mem.wf) : (poke w a v s).mem.wf := by
  cases w
  · unfold poke
    split_ifs
    · exact h
    · exact h
    · exact h
    · exact putByte_wf _ _ _ (putByte_wf _ _ _ h)
  · exact putByte_wf _ _ _ h

/-- Bytes placed from outside keep the canonical form. -/
theorem putBytes_wf (bs : List Byte) (s : State) (a : Word) (h : s.mem.wf) : (s.putBytes a bs).mem.wf := by
  induction bs generalizing s a with
  | nil => exact h
  | cons b bs ih => exact ih _ _ (putByte_wf _ _ _ h)

/-- Memory at reset is in canonical form. -/
theorem reset_wf : State.reset.mem.wf := by decide

/-- A register write leaves every byte but its own two alone. -/
theorem byteAt_pokeReg_of_ne (i : RegNum) (v : Word) (s : State) {b : Word} (h1 : b ≠ regAddr i s)
    (h2 : b ≠ regAddr i s + 1) : byteAt (pokeReg i v s) b = byteAt s b := by
  rw [pokeReg, byteAt_putByte_of_ne _ _ h2, byteAt_putByte_of_ne _ _ h1]

/-- A store leaves every byte but its own alone. -/
theorem byteAt_poke_of_ne (w : Width) (a v : Word) (s : State) {b : Word} (h1 : b ≠ a) (h2 : w = .word → b ≠ a + 1) :
    byteAt (poke w a v s) b = byteAt s b := by
  cases w
  · unfold poke
    split_ifs
    · rfl
    · rfl
    · rfl
    · rw [byteAt_putByte_of_ne _ _ (h2 rfl), byteAt_putByte_of_ne _ _ h1]
  · exact byteAt_putByte_of_ne _ _ h1

/-! Words and their bytes (20_memory.md R142). -/

theorem wordOfBytes_low_high (v : Word) : wordOfBytes (lowByte v) (highByte v) = v := by
  apply BitVec.eq_of_getLsbD_eq
  intro i hi
  simp only [wordOfBytes, lowByte, highByte, BitVec.getLsbD_append, BitVec.getLsbD_extractLsb']
  by_cases h : i < 8
  · simp [h]
  · simp [h, show i - 8 < 8 by omega, show 8 + (i - 8) = i by omega]

theorem add_one_ne_self (a : Word) : a + 1 ≠ a := by
  intro h
  have h := congrArg BitVec.toNat h
  have := a.isLt
  rw [BitVec.toNat_add] at h
  simp at h
  omega

/-- A register that is written is read back (10_state.md R112). -/
theorem peekReg_pokeReg_self (i : RegNum) (v : Word) (s : State) (h : s.mem.wf) : peekReg i (pokeReg i v s) = v := by
  have e : regAddr i (pokeReg i v s) = regAddr i s := regAddr_congr i rfl
  have lo : byteAt (pokeReg i v s) (regAddr i s) = lowByte v := by
    rw [pokeReg, byteAt_putByte_of_ne _ _ (add_one_ne_self _).symm, byteAt_putByte_self _ _ _ h]
  have hi : byteAt (pokeReg i v s) (regAddr i s + 1) = highByte v := byteAt_putByte_self _ _ _ (putByte_wf _ _ _ h)
  rw [peekReg, e, lo, hi, wordOfBytes_low_high]

end Sys2Proof.Machine
end

