-- ==== Sys2Proof/Laws/Ops.lean ====
section
/-! SUPPORT. One lemma for each shared operation: all it can do when it goes through, and when it does. -/

namespace Sys2Proof.Machine

/-- The one lemma of `do` over `Except`: a computation goes through where its first part does and the rest does. -/
theorem bind_eq_ok {ε α β : Type} {x : Except ε α} {f : α → Except ε β} {b : β} :
    (x >>= f) = .ok b ↔ ∃ a, x = .ok a ∧ f a = .ok b := by
  cases x with
  | error e => exact ⟨fun h => (nomatch h), fun ⟨_, h, _⟩ => (nomatch h)⟩
  | ok a => exact ⟨fun h => ⟨a, rfl, h⟩, fun ⟨_, h, hf⟩ => by cases h; exact hf⟩

theorem pure_eq_ok {ε α : Type} {a b : α} : (pure a : Except ε α) = .ok b ↔ a = b :=
  ⟨fun h => Except.ok.inj h, fun h => congrArg Except.ok h⟩

theorem toOutcome_eq_next {x : Except Fault State} {t : State} : toOutcome x = .next t ↔ x = .ok t := by
  cases x with
  | error e => exact ⟨fun h => (nomatch h), fun h => (nomatch h)⟩
  | ok a => exact ⟨fun h => by cases h; rfl, fun h => by cases h; rfl⟩

theorem toOutcome_eq_fault {x : Except Fault State} {f : Fault} : toOutcome x = .fault f ↔ x = .error f := by
  cases x with
  | error e => exact ⟨fun h => by cases h; rfl, fun h => by cases h; rfl⟩
  | ok a => exact ⟨fun h => (nomatch h), fun h => (nomatch h)⟩

theorem toOutcome_ne_refused {x : Except Fault State} {r : Refusal} : toOutcome x ≠ .refused r := by
  cases x <;> exact fun h => (nomatch h)

/-- A load goes through exactly where it is allowed, and delivers `peek` (20_memory.md R144). -/
theorem load_eq_ok {w : Width} {a v : Word} {s : State} : load w a s = .ok v ↔ Readable w a s ∧ peek w a s = v := by
  cases h : readFault w a s <;> simp [load, Readable, h]

/-- A store goes through exactly where it is allowed, and leaves `poke` (R144). -/
theorem store_eq_ok {w : Width} {a v : Word} {s t : State} :
    store w a v s = .ok t ↔ Writable w a s ∧ poke w a v s = t := by
  cases h : writeFault w a s <;> simp [store, Writable, h]

/-- A register read goes through exactly where its word is read-write memory (10_state.md R112). -/
theorem readReg_eq_ok {i : RegNum} {v : Word} {s : State} : readReg i s = .ok v ↔ RegReady i s ∧ peekReg i s = v := by
  cases h : regFault i s <;> simp [readReg, RegReady, h]

/-- A register write goes through exactly where its word is read-write memory (R112). -/
theorem writeReg_eq_ok {i : RegNum} {v : Word} {s t : State} :
    writeReg i v s = .ok t ↔ RegReady i s ∧ pokeReg i v s = t := by
  cases h : regFault i s <;> simp [writeReg, RegReady, h]

/-- A register that is ready is no control register's word. -/
theorem RegReady.not_control {i : RegNum} {s : State} (h : RegReady i s) : isControlWord (regAddr i s) = false := by
  unfold RegReady regFault at h
  by_contra hc
  simp [hc] at h

/-- What can be written can be read (20_memory.md R144). -/
theorem readable_of_writable {w : Width} {a : Word} {s : State} (h : Writable w a s) : Readable w a s := by
  have key : ∀ b, byteWriteFault s b = none → byteReadFault s b = none := by
    intro b hb
    unfold byteWriteFault at hb
    unfold byteReadFault
    split at hb <;> simp_all
  unfold Writable writeFault at h
  unfold Readable readFault
  cases w with
  | byte =>
    simp only at h ⊢
    split_ifs at h ⊢
    exact key _ h
  | word =>
    simp only at h ⊢
    split_ifs at h ⊢
    · rfl
    · obtain ⟨h1, h2⟩ := Option.or_eq_none_iff.mp h
      exact Option.or_eq_none_iff.mpr ⟨key _ h1, key _ h2⟩

/-- A push goes through exactly where `r15` and the new top of the stack can be written, and leaves `written .stack`
(40_operands.md R214). -/
theorem push_eq_ok {v : Word} {s t : State} :
    push v s = .ok t ↔ DstWritable .stack v s ∧ written .stack v s = t := by
  simp only [push, bind_eq_ok, readReg_eq_ok, writeReg_eq_ok, store_eq_ok, DstWritable, written]
  constructor
  · rintro ⟨_, ⟨h1, rfl⟩, _, ⟨-, rfl⟩, h3, rfl⟩
    exact ⟨⟨h1, by simpa [Writable] using h3⟩, rfl⟩
  · rintro ⟨⟨h1, h3⟩, rfl⟩
    exact ⟨_, ⟨h1, rfl⟩, _, ⟨h1, rfl⟩, by simpa [Writable] using h3, rfl⟩

/-- A pop goes through exactly where `r15` and the top of the stack can be read; it delivers the top and moves `r15` up
(R214). -/
theorem pop_eq_ok {v : Word} {s t : State} :
    pop s = .ok (v, t) ↔ SourceReady .stack s ∧ sourceValue .stack s = v ∧ sourceAfter .stack s = t := by
  simp only [pop, bind_eq_ok, readReg_eq_ok, writeReg_eq_ok, load_eq_ok, pure_eq_ok, SourceReady, sourceValue, sourceAfter,
    Prod.mk.injEq]
  constructor
  · rintro ⟨_, ⟨h1, rfl⟩, _, ⟨h2, rfl⟩, _, ⟨-, rfl⟩, rfl, rfl⟩
    exact ⟨⟨h1, h2⟩, rfl, rfl⟩
  · rintro ⟨⟨h1, h2⟩, rfl, rfl⟩
    exact ⟨_, ⟨h1, rfl⟩, _, ⟨h2, rfl⟩, _, ⟨h1, rfl⟩, rfl, rfl⟩

/-- A control transfer goes through exactly where the target is even (42_program_control.md R257). -/
theorem jumpTo_eq_ok {t : Word} {s u : State} : jumpTo t s = .ok u ↔ t.getLsbD 0 = false ∧ s.setPc t = u := by
  unfold jumpTo
  split_ifs with h
  · simp [h]
  · simp only [Except.ok.injEq, Bool.not_eq_true] at h ⊢
    exact ⟨fun e => ⟨h, e⟩, fun e => e.2⟩

/-- A return pops the target (R253). -/
theorem returnFromStack_eq_ok {s t : State} :
    returnFromStack s = .ok t ↔ SourceReady .stack s ∧ (sourceValue .stack s).getLsbD 0 = false ∧
      (sourceAfter .stack s).setPc (sourceValue .stack s) = t := by
  simp only [returnFromStack, bind_eq_ok]
  constructor
  · rintro ⟨⟨v, u⟩, h, hj⟩
    obtain ⟨h1, rfl, rfl⟩ := pop_eq_ok.mp h
    obtain ⟨h2, rfl⟩ := jumpTo_eq_ok.mp hj
    exact ⟨h1, h2, rfl⟩
  · rintro ⟨h1, h2, rfl⟩
    exact ⟨_, pop_eq_ok.mpr ⟨h1, rfl, rfl⟩, jumpTo_eq_ok.mpr ⟨h2, rfl⟩⟩

/-- A call through the vector table pushes `pc` and loads it from the table (R255). -/
theorem callVector_eq_ok {v : Fin 128} {s t : State} :
    callVector v s = .ok t ↔ DstWritable .stack s.pc s ∧ Readable .word (vectorAddr v) (written .stack s.pc s) ∧
      (peek .word (vectorAddr v) (written .stack s.pc s)).getLsbD 0 = false ∧
      (written .stack s.pc s).setPc (peek .word (vectorAddr v) (written .stack s.pc s)) = t := by
  simp only [callVector, bind_eq_ok, push_eq_ok, load_eq_ok, jumpTo_eq_ok]
  constructor
  · rintro ⟨_, ⟨h1, rfl⟩, _, ⟨h2, rfl⟩, h3, rfl⟩
    exact ⟨h1, h2, h3, rfl⟩
  · rintro ⟨h1, h2, h3, rfl⟩
    exact ⟨_, ⟨h1, rfl⟩, _, ⟨h2, rfl⟩, h3, rfl⟩

/-- The state in which interrupt entry looks up its vector: the latch cleared, `pc` pushed, `I` cleared (60_exceptions.md
R326). -/
def entered (n : Fin 48) (s : State) : State :=
  let u := written .stack s.pc (s.clearPend n)
  u.setFlags { u.flags with i := false }

@[simp] theorem written_params (op : Operand) (v : Word) (s : State) : (written op v s).params = s.params := by
  cases op <;> simp [written]

/-- Interrupt entry: when it goes through and all it does (R326). -/
theorem takeInterrupt_eq_ok {n : Fin 48} {s t : State} :
    takeInterrupt n s = .ok t ↔
      DstWritable .stack s.pc (s.clearPend n) ∧ Readable .word (vectorAddr s.params.irqVector[n]) (entered n s) ∧
      (peek .word (vectorAddr s.params.irqVector[n]) (entered n s)).getLsbD 0 = false ∧
      (entered n s).setPc (peek .word (vectorAddr s.params.irqVector[n]) (entered n s)) = t := by
  simp only [takeInterrupt, bind_eq_ok, push_eq_ok, load_eq_ok, jumpTo_eq_ok, entered]
  constructor
  · rintro ⟨_, ⟨h1, rfl⟩, _, ⟨h2, rfl⟩, h3, rfl⟩
    simp only [setFlags_params, written_params, clearPend_params] at h2 h3 ⊢
    exact ⟨h1, h2, h3, trivial⟩
  · rintro ⟨h1, h2, h3, rfl⟩
    refine ⟨_, ⟨h1, rfl⟩, _, ⟨?_, rfl⟩, ?_, ?_⟩ <;>
      simp only [setFlags_params, written_params, clearPend_params] <;> first | exact h2 | exact h3

/-- The interrupt recognised is one of the pending and enabled sources, and `I` is 1 (R325). -/
theorem chooseIrq_mem {e : List (Fin 48)} {n : Fin 48} (h : chooseIrq e = some n) : n ∈ e := by
  unfold chooseIrq at h
  split at h
  · cases h
  · cases h
    exact List.mem_singleton.mpr rfl
  · split_ifs at h with hm
    · cases h
      exact hm
    · cases h
      exact List.mem_cons_self ..

theorem recognise_eq_some {s : State} {n : Fin 48} (h : recognise s = some n) :
    s.flags.i = true ∧ s.pend.getLsbD n.val = true ∧ irqEnabled s n = true := by
  unfold recognise at h
  split_ifs at h with hi
  have := chooseIrq_mem h
  simp only [readySources, List.mem_filter, Bool.and_eq_true] at this
  exact ⟨hi, this.2.1, this.2.2⟩

end Sys2Proof.Machine
end

