-- ==== Sys2Proof/Laws/Operands.lean ====
section
/-! SUPPORT. One lemma for each operand form and each shape of instruction: when it goes through, and all it does. -/

namespace Sys2Proof.Machine

/-- The address of an Index operand (40_operands.md R211). -/
theorem operandAddress_index {acc : Access} {w : Width} {p : BaseReg} {off a : Word} {s : State} :
    operandAddress acc (.index w p off) s = .ok a ↔ RegReady (baseReg p) s ∧ peekReg (baseReg p) s + off = a := by
  rw [operandAddress, bind_eq_ok]
  constructor
  · rintro ⟨_, h, h'⟩
    obtain ⟨h1, rfl⟩ := readReg_eq_ok.mp h
    exact ⟨h1, Except.ok.inj h'⟩
  · rintro ⟨h, rfl⟩
    exact ⟨_, readReg_eq_ok.mpr ⟨h, rfl⟩, rfl⟩

/-- The address of `[r15]` where it is read (R207). -/
theorem operandAddress_stack_read {a : Word} {s : State} :
    operandAddress .read .stack s = .ok a ↔ RegReady spReg s ∧ stackPointer s = a := by
  rw [operandAddress, bind_eq_ok]
  constructor
  · rintro ⟨_, h, h'⟩
    obtain ⟨h1, rfl⟩ := readReg_eq_ok.mp h
    exact ⟨h1, Except.ok.inj h'⟩
  · rintro ⟨h, rfl⟩
    exact ⟨_, readReg_eq_ok.mpr ⟨h, rfl⟩, rfl⟩

/-- An operand that is read: it goes through exactly where it is ready (40_operands.md R201). -/
theorem readOperand_eq_ok {op : Operand} {v : Word} {s t : State} :
    readOperand op s = .ok (v, t) ↔ SourceReady op s ∧ sourceValue op s = v ∧ sourceAfter op s = t := by
  cases op with
  | reg r =>
    simp only [readOperand, bind_eq_ok, readReg_eq_ok, pure_eq_ok, SourceReady, sourceValue, sourceAfter, Prod.mk.injEq]
    constructor
    · rintro ⟨_, ⟨h, rfl⟩, rfl, rfl⟩
      exact ⟨h, rfl, rfl⟩
    · rintro ⟨h, rfl, rfl⟩
      exact ⟨_, ⟨h, rfl⟩, rfl, rfl⟩
  | imm u => simp [readOperand, SourceReady, sourceValue, sourceAfter]
  | stack => exact pop_eq_ok
  | ind w p =>
    simp only [readOperand, operandAddress, bind_eq_ok, readReg_eq_ok, load_eq_ok, pure_eq_ok, SourceReady, sourceValue,
      sourceAfter, Prod.mk.injEq]
    constructor
    · rintro ⟨_, ⟨h1, rfl⟩, _, ⟨h2, rfl⟩, rfl, rfl⟩
      exact ⟨⟨h1, h2⟩, rfl, rfl⟩
    · rintro ⟨⟨h1, h2⟩, rfl, rfl⟩
      exact ⟨_, ⟨h1, rfl⟩, _, ⟨h2, rfl⟩, rfl, rfl⟩
  | direct w a =>
    simp only [readOperand, operandAddress, bind_eq_ok, load_eq_ok, pure_eq_ok, SourceReady, sourceValue, sourceAfter,
      Prod.mk.injEq, Except.ok.injEq]
    constructor
    · rintro ⟨_, rfl, _, ⟨h, rfl⟩, rfl, rfl⟩
      exact ⟨h, rfl, rfl⟩
    · rintro ⟨h, rfl, rfl⟩
      exact ⟨_, rfl, _, ⟨h, rfl⟩, rfl, rfl⟩
  | autoInc w p =>
    simp only [readOperand, operandAddress, bind_eq_ok, readReg_eq_ok, writeReg_eq_ok, load_eq_ok, pure_eq_ok, SourceReady,
      sourceValue, sourceAfter, Prod.mk.injEq]
    constructor
    · rintro ⟨_, ⟨h1, rfl⟩, _, ⟨h2, rfl⟩, _, ⟨-, rfl⟩, rfl, rfl⟩
      exact ⟨⟨h1, h2⟩, rfl, rfl⟩
    · rintro ⟨⟨h1, h2⟩, rfl, rfl⟩
      exact ⟨_, ⟨h1, rfl⟩, _, ⟨h2, rfl⟩, _, ⟨h1, rfl⟩, rfl, rfl⟩
  | index w p off =>
    simp only [readOperand, operandAddress, bind_eq_ok, readReg_eq_ok, load_eq_ok, pure_eq_ok, SourceReady, sourceValue,
      sourceAfter, Prod.mk.injEq]
    constructor
    · rintro ⟨_, ⟨_, ⟨h1, rfl⟩, rfl⟩, _, ⟨h2, rfl⟩, rfl, rfl⟩
      exact ⟨⟨h1, h2⟩, rfl, rfl⟩
    · rintro ⟨⟨h1, h2⟩, rfl, rfl⟩
      exact ⟨_, ⟨_, ⟨h1, rfl⟩, rfl⟩, _, ⟨h2, rfl⟩, rfl, rfl⟩

/-- Locating a destination: when it goes through, the place it names and the state it leaves (R202). -/
theorem locate_eq_ok {acc : Access} {op : Operand} {l : Located} {s u : State} :
    locate acc op s = .ok (l, u) ↔
      match op with
      | .reg r => l = ⟨.reg r, none⟩ ∧ u = s
      | .imm _ => False
      | .stack =>
        match acc with
        | .write =>
          RegReady spReg s ∧ l = ⟨.mem .word (stackPointer s - 2#16), none⟩ ∧ u = pokeReg spReg (stackPointer s - 2#16) s
        | .read => RegReady spReg s ∧ l = ⟨.mem .word (stackPointer s), some (spReg, stackPointer s + 2#16)⟩ ∧ u = s
        | .readWrite => False
      | .ind w p => RegReady (ptrReg p) s ∧ l = ⟨.mem w (peekReg (ptrReg p) s), none⟩ ∧ u = s
      | .direct w a => l = ⟨.mem w a, none⟩ ∧ u = s
      | .autoInc w p =>
        RegReady (ptrReg p) s ∧
          l = ⟨.mem w (peekReg (ptrReg p) s), some (ptrReg p, peekReg (ptrReg p) s + sizeOf w)⟩ ∧ u = s
      | .index w p off => RegReady (baseReg p) s ∧ l = ⟨.mem w (peekReg (baseReg p) s + off), none⟩ ∧ u = s := by
  cases op with
  | reg r => simp only [locate, Except.ok.injEq, Prod.mk.injEq, eq_comm]
  | imm u => simp only [locate, reduceCtorEq]
  | stack =>
    cases acc with
    | write =>
      simp only [locate, operandAddress, bind_eq_ok, readReg_eq_ok, writeReg_eq_ok, pure_eq_ok, if_true, Prod.mk.injEq]
      constructor
      · rintro ⟨_, ⟨_, ⟨h, rfl⟩, rfl⟩, _, ⟨-, rfl⟩, rfl, rfl⟩
        exact ⟨h, rfl, rfl⟩
      · rintro ⟨h, rfl, rfl⟩
        exact ⟨_, ⟨_, ⟨h, rfl⟩, rfl⟩, _, ⟨h, rfl⟩, rfl, rfl⟩
    | read =>
      simp only [locate, operandAddress, bind_eq_ok, readReg_eq_ok, pure_eq_ok, reduceCtorEq, if_false, Prod.mk.injEq]
      constructor
      · rintro ⟨_, ⟨_, ⟨h, rfl⟩, rfl⟩, rfl, rfl⟩
        exact ⟨h, rfl, rfl⟩
      · rintro ⟨h, rfl, rfl⟩
        exact ⟨_, ⟨_, ⟨h, rfl⟩, rfl⟩, rfl, rfl⟩
    | readWrite => simp only [locate, reduceCtorEq]
  | direct w a =>
    simp only [locate, operandAddress, bind_eq_ok, pure_eq_ok, Except.ok.injEq, Prod.mk.injEq]
    constructor
    · rintro ⟨_, rfl, rfl, rfl⟩
      exact ⟨rfl, rfl⟩
    · rintro ⟨rfl, rfl⟩
      exact ⟨_, rfl, rfl, rfl⟩
  | ind w p =>
    simp only [locate, operandAddress, bind_eq_ok, readReg_eq_ok, pure_eq_ok, Prod.mk.injEq]
    constructor
    · rintro ⟨_, ⟨h, rfl⟩, rfl, rfl⟩
      exact ⟨h, rfl, rfl⟩
    · rintro ⟨h, rfl, rfl⟩
      exact ⟨_, ⟨h, rfl⟩, rfl, rfl⟩
  | autoInc w p =>
    simp only [locate, operandAddress, bind_eq_ok, readReg_eq_ok, pure_eq_ok, Prod.mk.injEq]
    constructor
    · rintro ⟨_, ⟨h, rfl⟩, rfl, rfl⟩
      exact ⟨h, rfl, rfl⟩
    · rintro ⟨h, rfl, rfl⟩
      exact ⟨_, ⟨h, rfl⟩, rfl, rfl⟩
  | index w p off =>
    simp only [locate, operandAddress, bind_eq_ok, readReg_eq_ok, pure_eq_ok, Prod.mk.injEq]
    constructor
    · rintro ⟨_, ⟨_, ⟨h, rfl⟩, rfl⟩, rfl, rfl⟩
      exact ⟨h, rfl, rfl⟩
    · rintro ⟨h, rfl, rfl⟩
      exact ⟨_, ⟨_, ⟨h, rfl⟩, rfl⟩, rfl, rfl⟩

/-- Reading a place (R202). -/
theorem readPlace_eq_ok {p : Place} {v : Word} {s : State} :
    readPlace p s = .ok v ↔
      match p with
      | .reg r => RegReady r s ∧ peekReg r s = v
      | .mem w a => Readable w a s ∧ peek w a s = v := by
  cases p
  · exact readReg_eq_ok
  · exact load_eq_ok

/-- Writing a place (R202). -/
theorem writePlace_eq_ok {p : Place} {v : Word} {s t : State} :
    writePlace p v s = .ok t ↔
      match p with
      | .reg r => RegReady r s ∧ pokeReg r v s = t
      | .mem w a => Writable w a s ∧ poke w a v s = t := by
  cases p
  · exact writeReg_eq_ok
  · exact store_eq_ok

/-- The side effect a located destination still has (R202). -/
theorem finishPlace_eq_ok {p : Place} {q : Option (RegNum × Word)} {s t : State} :
    finishPlace ⟨p, q⟩ s = .ok t ↔
      match q with
      | none => s = t
      | some (r, v) => RegReady r s ∧ pokeReg r v s = t := by
  cases q
  · exact ⟨fun h => Except.ok.inj h, fun h => congrArg Except.ok h⟩
  · exact writeReg_eq_ok

/-- A destination that is only written: MOV (R202, R212). -/
theorem writeDst_eq_ok {op : Operand} {v : Word} {s t : State} :
    writeDst op v s = .ok t ↔ DstWritable op v s ∧ written op v s = t := by
  constructor
  · intro h
    obtain ⟨⟨l, u⟩, hl, h⟩ := bind_eq_ok.mp h
    obtain ⟨x, hw, hf⟩ := bind_eq_ok.mp h
    have hl := locate_eq_ok.mp hl
    have hw := writePlace_eq_ok.mp hw
    cases op with
    | imm => exact hl.elim
    | reg r =>
      obtain ⟨rfl, rfl⟩ := hl
      obtain ⟨h1, rfl⟩ := hw
      exact ⟨h1, finishPlace_eq_ok.mp hf⟩
    | stack =>
      obtain ⟨h1, rfl, rfl⟩ := hl
      obtain ⟨h2, rfl⟩ := hw
      exact ⟨⟨h1, by simpa [Writable] using h2⟩, finishPlace_eq_ok.mp hf⟩
    | ind w p =>
      obtain ⟨h1, rfl, rfl⟩ := hl
      obtain ⟨h2, rfl⟩ := hw
      exact ⟨⟨h1, h2⟩, finishPlace_eq_ok.mp hf⟩
    | direct w a =>
      obtain ⟨rfl, rfl⟩ := hl
      obtain ⟨h2, rfl⟩ := hw
      exact ⟨h2, finishPlace_eq_ok.mp hf⟩
    | autoInc w p =>
      obtain ⟨h1, rfl, rfl⟩ := hl
      obtain ⟨h2, rfl⟩ := hw
      obtain ⟨h3, rfl⟩ := finishPlace_eq_ok.mp hf
      exact ⟨⟨h1, h2, h3⟩, rfl⟩
    | index w p off =>
      obtain ⟨h1, rfl, rfl⟩ := hl
      obtain ⟨h2, rfl⟩ := hw
      exact ⟨⟨h1, h2⟩, finishPlace_eq_ok.mp hf⟩
  · rintro ⟨h, rfl⟩
    cases op with
    | imm => exact h.elim
    | reg r =>
      exact bind_eq_ok.mpr ⟨_, locate_eq_ok.mpr ⟨rfl, rfl⟩,
        bind_eq_ok.mpr ⟨_, writePlace_eq_ok.mpr ⟨h, rfl⟩, finishPlace_eq_ok.mpr rfl⟩⟩
    | stack =>
      exact bind_eq_ok.mpr ⟨_, locate_eq_ok.mpr ⟨h.1, rfl, rfl⟩,
        bind_eq_ok.mpr ⟨_, writePlace_eq_ok.mpr ⟨by simpa [Writable] using h.2, rfl⟩, finishPlace_eq_ok.mpr rfl⟩⟩
    | ind w p =>
      exact bind_eq_ok.mpr ⟨_, locate_eq_ok.mpr ⟨h.1, rfl, rfl⟩,
        bind_eq_ok.mpr ⟨_, writePlace_eq_ok.mpr ⟨h.2, rfl⟩, finishPlace_eq_ok.mpr rfl⟩⟩
    | direct w a =>
      exact bind_eq_ok.mpr ⟨_, locate_eq_ok.mpr ⟨rfl, rfl⟩,
        bind_eq_ok.mpr ⟨_, writePlace_eq_ok.mpr ⟨h, rfl⟩, finishPlace_eq_ok.mpr rfl⟩⟩
    | autoInc w p =>
      exact bind_eq_ok.mpr ⟨_, locate_eq_ok.mpr ⟨h.1, rfl, rfl⟩,
        bind_eq_ok.mpr ⟨_, writePlace_eq_ok.mpr ⟨h.2.1, rfl⟩, finishPlace_eq_ok.mpr ⟨h.2.2, rfl⟩⟩⟩
    | index w p off =>
      exact bind_eq_ok.mpr ⟨_, locate_eq_ok.mpr ⟨h.1, rfl, rfl⟩,
        bind_eq_ok.mpr ⟨_, writePlace_eq_ok.mpr ⟨h.2, rfl⟩, finishPlace_eq_ok.mpr rfl⟩⟩

/-- The place a memory operand names is the flags register exactly where the access is a word at 0xC000 (10_state.md R123). -/
theorem place_mem_isFlags (w : Width) (a : Word) : Place.isFlags (.mem w a) = true ↔ w = .word ∧ a = flagsAddr := by
  simp [Place.isFlags]

/-- A byte of the flags register cannot be read (20_memory.md R145). -/
theorem not_readable_byte_flags (s : State) : ¬ Readable .byte flagsAddr s := by
  simp [Readable, readFault, isControlByte, isControlWord]

/-- A memory place that can be read is not the flags register where its address is another. -/
theorem place_not_flags {w : Width} {a : Word} {s : State} (hr : Readable w a s) :
    Place.isFlags (.mem w a) = false ↔ a ≠ flagsAddr := by
  rw [← Bool.not_eq_true, place_mem_isFlags]
  constructor
  · rintro h rfl
    cases w
    · exact h ⟨rfl, rfl⟩
    · exact not_readable_byte_flags s hr
  · exact fun h e => h e.2

/-- The middle of a read-modify-write on a memory place: both directions at once (R212 steps 6 to 9). -/
theorem modify_mem {f : AluOp} {w : Width} {a : Word} {q : Option (RegNum × Word)} {s t : State} :
    (readPlace (.mem w a) s >>= fun d =>
        if Place.isFlags (.mem w a) then .error .flagsDestination
        else writePlace (.mem w a) (f s.flags d).1 (s.setFlags (f s.flags d).2) >>= fun s => finishPlace ⟨.mem w a, q⟩ s) = .ok t ↔
      Readable w a s ∧ a ≠ flagsAddr ∧ Writable w a s ∧
        finishPlace ⟨.mem w a, q⟩ (poke w a (f s.flags (peek w a s)).1 (s.setFlags (f s.flags (peek w a s)).2)) = .ok t := by
  constructor
  · intro h
    obtain ⟨d, hd, h⟩ := bind_eq_ok.mp h
    obtain ⟨h1, rfl⟩ := readPlace_eq_ok.mp hd
    split_ifs at h with hf
    obtain ⟨x, hw, h⟩ := bind_eq_ok.mp h
    obtain ⟨h2, rfl⟩ := writePlace_eq_ok.mp hw
    exact ⟨h1, (place_not_flags h1).mp (by simpa using hf), by simpa [Writable] using h2, h⟩
  · rintro ⟨h1, h2, h3, h⟩
    refine bind_eq_ok.mpr ⟨_, readPlace_eq_ok.mpr ⟨h1, rfl⟩, ?_⟩
    rw [if_neg (by simpa using (place_not_flags h1).mpr h2)]
    exact bind_eq_ok.mpr ⟨_, writePlace_eq_ok.mpr ⟨by simpa [Writable] using h3, rfl⟩, h⟩

/-- A destination that is read and written: its value, the result and the flags `f` computes from it, and `written` (R212,
R213). -/
theorem modifyDst_eq_ok {f : AluOp} {op : Operand} {s t : State} :
    modifyDst f op s = .ok t ↔
      DstModifiable op (f s.flags (sourceValue op s)).1 s ∧
        written op (f s.flags (sourceValue op s)).1 (s.setFlags (f s.flags (sourceValue op s)).2) = t := by
  rw [modifyDst, bind_eq_ok]
  cases op with
  | imm => exact ⟨fun ⟨_, h, _⟩ => (locate_eq_ok.mp h).elim, fun h => h.1.2.2.1.elim⟩
  | stack => exact ⟨fun ⟨_, h, _⟩ => (locate_eq_ok.mp h).elim, fun h => (h.1.1 rfl).elim⟩
  | reg r =>
    have hf : Place.isFlags (.reg r) = false := by simp [Place.isFlags]
    constructor
    · rintro ⟨⟨l, u⟩, hl, h⟩
      obtain ⟨rfl, rfl⟩ := locate_eq_ok.mp hl
      obtain ⟨d, hd, h⟩ := bind_eq_ok.mp h
      obtain ⟨h1, rfl⟩ := readPlace_eq_ok.mp hd
      rw [if_neg (by simp [hf])] at h
      obtain ⟨x, hw, h⟩ := bind_eq_ok.mp h
      obtain ⟨-, rfl⟩ := writePlace_eq_ok.mp hw
      refine ⟨⟨by simp, h1, h1, fun e => ?_⟩, finishPlace_eq_ok.mp h⟩
      have hc := RegReady.not_control h1
      rw [Except.ok.inj e] at hc
      simp [isControlWord] at hc
    · rintro ⟨⟨-, h1, -, -⟩, rfl⟩
      refine ⟨_, locate_eq_ok.mpr ⟨rfl, rfl⟩, bind_eq_ok.mpr ⟨_, readPlace_eq_ok.mpr ⟨h1, rfl⟩, ?_⟩⟩
      rw [if_neg (by simp [hf])]
      exact bind_eq_ok.mpr ⟨_, writePlace_eq_ok.mpr ⟨(regFault_setFlags ..).trans h1, rfl⟩, finishPlace_eq_ok.mpr rfl⟩
  | ind w p =>
    constructor
    · rintro ⟨⟨l, u⟩, hl, h⟩
      obtain ⟨h0, rfl, rfl⟩ := locate_eq_ok.mp hl
      obtain ⟨h1, h2, h3, h⟩ := modify_mem.mp h
      exact ⟨⟨by simp, ⟨h0, h1⟩, ⟨h0, h3⟩, fun e => h2 (readReg_eq_ok.mp e).2⟩, finishPlace_eq_ok.mp h⟩
    · rintro ⟨⟨-, ⟨h0, h1⟩, ⟨-, h3⟩, hf⟩, rfl⟩
      exact ⟨_, locate_eq_ok.mpr ⟨h0, rfl, rfl⟩,
        modify_mem.mpr ⟨h1, fun e => hf (readReg_eq_ok.mpr ⟨h0, e⟩), h3, finishPlace_eq_ok.mpr rfl⟩⟩
  | direct w a =>
    constructor
    · rintro ⟨⟨l, u⟩, hl, h⟩
      obtain ⟨rfl, rfl⟩ := locate_eq_ok.mp hl
      obtain ⟨h1, h2, h3, h⟩ := modify_mem.mp h
      exact ⟨⟨by simp, h1, h3, fun e => h2 (Except.ok.inj e)⟩, finishPlace_eq_ok.mp h⟩
    · rintro ⟨⟨-, h1, h3, hf⟩, rfl⟩
      exact ⟨_, locate_eq_ok.mpr ⟨rfl, rfl⟩,
        modify_mem.mpr ⟨h1, fun e => hf (congrArg Except.ok e), h3, finishPlace_eq_ok.mpr rfl⟩⟩
  | autoInc w p =>
    constructor
    · rintro ⟨⟨l, u⟩, hl, h⟩
      obtain ⟨h0, rfl, rfl⟩ := locate_eq_ok.mp hl
      obtain ⟨h1, h2, h3, h⟩ := modify_mem.mp h
      obtain ⟨h4, rfl⟩ := finishPlace_eq_ok.mp h
      exact ⟨⟨by simp, ⟨h0, h1⟩, ⟨h0, h3, (regFault_congr _ (poke_setFlags_regbank ..) (by simp)).symm.trans h4⟩,
        fun e => h2 (readReg_eq_ok.mp e).2⟩, rfl⟩
    · rintro ⟨⟨-, ⟨h0, h1⟩, ⟨-, h3, h4⟩, hf⟩, rfl⟩
      exact ⟨_, locate_eq_ok.mpr ⟨h0, rfl, rfl⟩, modify_mem.mpr ⟨h1, fun e => hf (readReg_eq_ok.mpr ⟨h0, e⟩), h3,
        finishPlace_eq_ok.mpr ⟨(regFault_congr _ (poke_setFlags_regbank ..) (by simp)).trans h4, rfl⟩⟩⟩
  | index w p off =>
    constructor
    · rintro ⟨⟨l, u⟩, hl, h⟩
      obtain ⟨h0, rfl, rfl⟩ := locate_eq_ok.mp hl
      obtain ⟨h1, h2, h3, h⟩ := modify_mem.mp h
      exact ⟨⟨by simp, ⟨h0, h1⟩, ⟨h0, h3⟩, fun e => h2 (operandAddress_index.mp e).2⟩, finishPlace_eq_ok.mp h⟩
    · rintro ⟨⟨-, ⟨h0, h1⟩, ⟨-, h3⟩, hf⟩, rfl⟩
      exact ⟨_, locate_eq_ok.mpr ⟨h0, rfl, rfl⟩,
        modify_mem.mpr ⟨h1, fun e => hf (operandAddress_index.mpr ⟨h0, e⟩), h3, finishPlace_eq_ok.mpr rfl⟩⟩

/-- The end of a comparison on a memory place: both directions at once (R212 steps 6, 7, 9). -/
theorem compare_mem {f : AluOp} {w : Width} {a : Word} {q : Option (RegNum × Word)} {s t : State} :
    (readPlace (.mem w a) s >>= fun d =>
        if Place.isFlags (.mem w a) then .error .flagsDestination
        else finishPlace ⟨.mem w a, q⟩ (s.setFlags (f s.flags d).2)) = .ok t ↔
      Readable w a s ∧ a ≠ flagsAddr ∧ finishPlace ⟨.mem w a, q⟩ (s.setFlags (f s.flags (peek w a s)).2) = .ok t := by
  constructor
  · intro h
    obtain ⟨d, hd, h⟩ := bind_eq_ok.mp h
    obtain ⟨h1, rfl⟩ := readPlace_eq_ok.mp hd
    split_ifs at h with hf
    exact ⟨h1, (place_not_flags h1).mp (by simpa using hf), h⟩
  · rintro ⟨h1, h2, h⟩
    refine bind_eq_ok.mpr ⟨_, readPlace_eq_ok.mpr ⟨h1, rfl⟩, ?_⟩
    rwa [if_neg (by simpa using (place_not_flags h1).mpr h2)]

/-- A destination that is only read: the flags `f` computes from its value, and its side effect (R212). -/
theorem compareDst_eq_ok {f : AluOp} {op : Operand} {s t : State} :
    compareDst f op s = .ok t ↔
      DstComparable op s ∧ (sourceAfter op s).setFlags (f s.flags (sourceValue op s)).2 = t := by
  rw [compareDst, bind_eq_ok]
  cases op with
  | imm => exact ⟨fun ⟨_, h, _⟩ => (locate_eq_ok.mp h).elim, fun h => nomatch h.1.1⟩
  | reg r =>
    have hf : Place.isFlags (.reg r) = false := by simp [Place.isFlags]
    constructor
    · rintro ⟨⟨l, u⟩, hl, h⟩
      obtain ⟨rfl, rfl⟩ := locate_eq_ok.mp hl
      obtain ⟨d, hd, h⟩ := bind_eq_ok.mp h
      obtain ⟨h1, rfl⟩ := readPlace_eq_ok.mp hd
      rw [if_neg (by simp [hf])] at h
      refine ⟨⟨rfl, h1, fun e => ?_⟩, finishPlace_eq_ok.mp h⟩
      have hc := RegReady.not_control h1
      rw [Except.ok.inj e] at hc
      simp [isControlWord] at hc
    · rintro ⟨⟨-, h1, -⟩, rfl⟩
      refine ⟨_, locate_eq_ok.mpr ⟨rfl, rfl⟩, bind_eq_ok.mpr ⟨_, readPlace_eq_ok.mpr ⟨h1, rfl⟩, ?_⟩⟩
      rw [if_neg (by simp [hf])]
      exact finishPlace_eq_ok.mpr rfl
  | stack =>
    constructor
    · rintro ⟨⟨l, u⟩, hl, h⟩
      obtain ⟨h0, rfl, rfl⟩ := locate_eq_ok.mp hl
      obtain ⟨h1, h2, h⟩ := compare_mem.mp h
      exact ⟨⟨rfl, ⟨h0, h1⟩, fun e => h2 ((operandAddress_stack_read.mp e).2)⟩, (finishPlace_eq_ok.mp h).2⟩
    · rintro ⟨⟨-, ⟨h0, h1⟩, hf⟩, rfl⟩
      exact ⟨_, locate_eq_ok.mpr ⟨h0, rfl, rfl⟩, compare_mem.mpr ⟨h1,
        fun e => hf (operandAddress_stack_read.mpr ⟨h0, e⟩),
        finishPlace_eq_ok.mpr ⟨by simpa [RegReady] using h0, rfl⟩⟩⟩
  | ind w p =>
    constructor
    · rintro ⟨⟨l, u⟩, hl, h⟩
      obtain ⟨h0, rfl, rfl⟩ := locate_eq_ok.mp hl
      obtain ⟨h1, h2, h⟩ := compare_mem.mp h
      exact ⟨⟨rfl, ⟨h0, h1⟩, fun e => h2 (readReg_eq_ok.mp e).2⟩, finishPlace_eq_ok.mp h⟩
    · rintro ⟨⟨-, ⟨h0, h1⟩, hf⟩, rfl⟩
      exact ⟨_, locate_eq_ok.mpr ⟨h0, rfl, rfl⟩,
        compare_mem.mpr ⟨h1, fun e => hf (readReg_eq_ok.mpr ⟨h0, e⟩), finishPlace_eq_ok.mpr rfl⟩⟩
  | direct w a =>
    constructor
    · rintro ⟨⟨l, u⟩, hl, h⟩
      obtain ⟨rfl, rfl⟩ := locate_eq_ok.mp hl
      obtain ⟨h1, h2, h⟩ := compare_mem.mp h
      exact ⟨⟨rfl, h1, fun e => h2 (Except.ok.inj e)⟩, finishPlace_eq_ok.mp h⟩
    · rintro ⟨⟨-, h1, hf⟩, rfl⟩
      exact ⟨_, locate_eq_ok.mpr ⟨rfl, rfl⟩,
        compare_mem.mpr ⟨h1, fun e => hf (congrArg Except.ok e), finishPlace_eq_ok.mpr rfl⟩⟩
  | autoInc w p =>
    constructor
    · rintro ⟨⟨l, u⟩, hl, h⟩
      obtain ⟨h0, rfl, rfl⟩ := locate_eq_ok.mp hl
      obtain ⟨h1, h2, h⟩ := compare_mem.mp h
      exact ⟨⟨rfl, ⟨h0, h1⟩, fun e => h2 (readReg_eq_ok.mp e).2⟩, (finishPlace_eq_ok.mp h).2⟩
    · rintro ⟨⟨-, ⟨h0, h1⟩, hf⟩, rfl⟩
      exact ⟨_, locate_eq_ok.mpr ⟨h0, rfl, rfl⟩, compare_mem.mpr ⟨h1, fun e => hf (readReg_eq_ok.mpr ⟨h0, e⟩),
        finishPlace_eq_ok.mpr ⟨by simpa [RegReady] using h0, rfl⟩⟩⟩
  | index w p off =>
    constructor
    · rintro ⟨⟨l, u⟩, hl, h⟩
      obtain ⟨h0, rfl, rfl⟩ := locate_eq_ok.mp hl
      obtain ⟨h1, h2, h⟩ := compare_mem.mp h
      exact ⟨⟨rfl, ⟨h0, h1⟩, fun e => h2 (operandAddress_index.mp e).2⟩, finishPlace_eq_ok.mp h⟩
    · rintro ⟨⟨-, ⟨h0, h1⟩, hf⟩, rfl⟩
      exact ⟨_, locate_eq_ok.mpr ⟨h0, rfl, rfl⟩,
        compare_mem.mpr ⟨h1, fun e => hf (operandAddress_index.mpr ⟨h0, e⟩), finishPlace_eq_ok.mpr rfl⟩⟩

/-- A dual operand instruction that modifies its destination (R212). -/
theorem dualModify_eq_ok {f : Word → AluOp} {src dst : Operand} {s t : State} :
    dualModify f src dst s = .ok t ↔
      SourceReady src s ∧ modifyDst (f (sourceValue src s)) dst (sourceAfter src s) = .ok t := by
  rw [dualModify, bind_eq_ok]
  constructor
  · rintro ⟨⟨v, u⟩, h, h'⟩
    obtain ⟨h1, rfl, rfl⟩ := readOperand_eq_ok.mp h
    exact ⟨h1, h'⟩
  · rintro ⟨h1, h'⟩
    exact ⟨_, readOperand_eq_ok.mpr ⟨h1, rfl, rfl⟩, h'⟩

/-- A dual operand instruction that only compares (R212). -/
theorem dualCompare_eq_ok {f : Word → AluOp} {src dst : Operand} {s t : State} :
    dualCompare f src dst s = .ok t ↔
      SourceReady src s ∧ compareDst (f (sourceValue src s)) dst (sourceAfter src s) = .ok t := by
  rw [dualCompare, bind_eq_ok]
  constructor
  · rintro ⟨⟨v, u⟩, h, h'⟩
    obtain ⟨h1, rfl, rfl⟩ := readOperand_eq_ok.mp h
    exact ⟨h1, h'⟩
  · rintro ⟨h1, h'⟩
    exact ⟨_, readOperand_eq_ok.mpr ⟨h1, rfl, rfl⟩, h'⟩

end Sys2Proof.Machine
end

