-- ==== Sys2Proof/Laws/PerInstr.lean ====
section
/-! SUPPORT. One statement for every instruction: its encoding is one instruction word followed by exactly the extension words
that 30_encoding.md R180 counts for that word. -/

namespace Sys2Proof.Laws.EncodedLength

/-- The encoding of `i` is a word and as many words after it as `extWordsOf` says (R170, R180). -/
def Statement (i : Instr) : Prop := ∃ w es, encode i = w :: es ∧ es.length = extWordsOf w

/-- Format D. -/
theorem of_dual {i : Instr} (op : BitVec 4) (s d : Operand) (hop : op.toNat < 10) (h : encode i = encodeDual op s d) :
    Statement i := by
  refine ⟨_, _, h, ?_⟩
  have hs := s.field.isLt
  have hd := d.field.isLt
  have e1 : (opcodeField (op ++ s.field ++ d.field)).toNat = op.toNat := by
    rw [opcodeField_toNat, dualWord_toNat]; omega
  have e2 : srcField (op ++ s.field ++ d.field) = s.field := by
    apply BitVec.eq_of_toNat_eq; rw [srcField_toNat, dualWord_toNat]; omega
  have e3 : dstField (op ++ s.field ++ d.field) = d.field := by
    apply BitVec.eq_of_toNat_eq; rw [dstField_toNat, dualWord_toNat]; omega
  simp only [extWordsOf, e1, e2, e3, if_pos hop, extWords_field, List.length_append]

/-- Format J. -/
theorem of_jump {i : Instr} (cnd : Cond) (off : BitVec 7) (h : encode i = encodeJump cnd off) : Statement i := by
  refine ⟨_, _, h, ?_⟩
  have hc := cnd.field.isLt
  have ho := off.isLt
  have e1 : (opcodeField (0b1100#4 ++ cnd.field ++ 0#1 ++ off)).toNat = 12 := by
    rw [opcodeField_toNat, jumpWord_toNat]; omega
  have e2 : (0b1100#4 ++ cnd.field ++ 0#1 ++ off : BitVec 16).getLsbD 7 = false := by
    rw [bitSeven_eq, jumpWord_toNat, decide_eq_false_iff_not]; omega
  simp only [extWordsOf, e1, e2]
  rfl

/-- Format L. -/
theorem of_long {i : Instr} (op : BitVec 4) (cnd : Cond) (t : Operand) (hop : op.toNat = 10 ∨ op.toNat = 12)
    (h : encode i = encodeLong op cnd t) : Statement i := by
  refine ⟨_, _, h, ?_⟩
  have hc := cnd.field.isLt
  have ht := t.field.isLt
  have e1 : (opcodeField (op ++ cnd.field ++ 0b10#2 ++ t.field)).toNat = op.toNat := by
    rw [opcodeField_toNat, longWord_toNat]; omega
  have e2 : (op ++ cnd.field ++ 0b10#2 ++ t.field : BitVec 16).getLsbD 7 = true := by
    rw [bitSeven_eq, longWord_toNat, decide_eq_true_iff]; omega
  have e3 : dstField (op ++ cnd.field ++ 0b10#2 ++ t.field) = t.field := by
    apply BitVec.eq_of_toNat_eq; rw [dstField_toNat, longWord_toNat]; omega
  have e4 : ¬ op.toNat < 10 := by omega
  simp only [extWordsOf, e1, e2, e3, if_neg e4, if_pos hop, if_true, extWords_field]

/-- Format S. -/
theorem of_count {i : Instr} (op : BitVec 3) (n : Fin 8) (d : Operand) (hop : op ≠ 7#3) (h : encode i = encodeCount op n d) :
    Statement i := by
  refine ⟨_, _, h, ?_⟩
  have hd := d.field.isLt
  have ho := op.isLt
  generalize BitVec.ofNat 3 n.val = k
  have hn := k.isLt
  have e1 : (opcodeField (0b1101#4 ++ op ++ k ++ d.field)).toNat = 13 := by
    rw [opcodeField_toNat, countWord_toNat]; omega
  have e2 : subField (0b1101#4 ++ op ++ k ++ d.field) = op := by
    apply BitVec.eq_of_toNat_eq; rw [subField_toNat, countWord_toNat]; omega
  have e3 : dstField (0b1101#4 ++ op ++ k ++ d.field) = d.field := by
    apply BitVec.eq_of_toNat_eq; rw [dstField_toNat, countWord_toNat]; omega
  simp [extWordsOf, e1, e2, e3, hop, extWords_field]

/-- Format U. -/
theorem of_unary {i : Instr} (p : BitVec 3) (d : Operand) (hp : p ≠ 7#3) (h : encode i = encodeUnary p d) : Statement i := by
  refine ⟨_, _, h, ?_⟩
  have hd := d.field.isLt
  have hl := p.isLt
  have e1 : (opcodeField (0b1101111#7 ++ p ++ d.field)).toNat = 13 := by
    rw [opcodeField_toNat, unaryWord_toNat]; omega
  have e2 : paramField (0b1101111#7 ++ p ++ d.field) = p := by
    apply BitVec.eq_of_toNat_eq; rw [paramField_toNat, unaryWord_toNat]; omega
  have e3 : dstField (0b1101111#7 ++ p ++ d.field) = d.field := by
    apply BitVec.eq_of_toNat_eq; rw [dstField_toNat, unaryWord_toNat]; omega
  simp [extWordsOf, e1, e2, e3, hp, extWords_field]

theorem mov (s d : Operand) : Statement (.mov s d) := of_dual _ s d (by decide) rfl
theorem add (s d : Operand) : Statement (.add s d) := of_dual _ s d (by decide) rfl
theorem addc (s d : Operand) : Statement (.addc s d) := of_dual _ s d (by decide) rfl
theorem sub (s d : Operand) : Statement (.sub s d) := of_dual _ s d (by decide) rfl
theorem subb (s d : Operand) : Statement (.subb s d) := of_dual _ s d (by decide) rfl
theorem cmp (s d : Operand) : Statement (.cmp s d) := of_dual _ s d (by decide) rfl
theorem and (s d : Operand) : Statement (.and s d) := of_dual _ s d (by decide) rfl
theorem test (s d : Operand) : Statement (.test s d) := of_dual _ s d (by decide) rfl
theorem or (s d : Operand) : Statement (.or s d) := of_dual _ s d (by decide) rfl
theorem xor (s d : Operand) : Statement (.xor s d) := of_dual _ s d (by decide) rfl
theorem jz (off : BitVec 7) : Statement (.jz off) := of_jump _ off rfl
theorem jnz (off : BitVec 7) : Statement (.jnz off) := of_jump _ off rfl
theorem jc (off : BitVec 7) : Statement (.jc off) := of_jump _ off rfl
theorem jnc (off : BitVec 7) : Statement (.jnc off) := of_jump _ off rfl
theorem js (off : BitVec 7) : Statement (.js off) := of_jump _ off rfl
theorem jns (off : BitVec 7) : Statement (.jns off) := of_jump _ off rfl
theorem jo (off : BitVec 7) : Statement (.jo off) := of_jump _ off rfl
theorem jno (off : BitVec 7) : Statement (.jno off) := of_jump _ off rfl
theorem ja (off : BitVec 7) : Statement (.ja off) := of_jump _ off rfl
theorem jbe (off : BitVec 7) : Statement (.jbe off) := of_jump _ off rfl
theorem jg (off : BitVec 7) : Statement (.jg off) := of_jump _ off rfl
theorem jge (off : BitVec 7) : Statement (.jge off) := of_jump _ off rfl
theorem jl (off : BitVec 7) : Statement (.jl off) := of_jump _ off rfl
theorem jle (off : BitVec 7) : Statement (.jle off) := of_jump _ off rfl
theorem jmp (off : BitVec 7) : Statement (.jmp off) := of_jump _ off rfl
theorem jzl (t : Operand) : Statement (.jzl t) := of_long _ _ t (by decide) rfl
theorem jnzl (t : Operand) : Statement (.jnzl t) := of_long _ _ t (by decide) rfl
theorem jcl (t : Operand) : Statement (.jcl t) := of_long _ _ t (by decide) rfl
theorem jncl (t : Operand) : Statement (.jncl t) := of_long _ _ t (by decide) rfl
theorem jsl (t : Operand) : Statement (.jsl t) := of_long _ _ t (by decide) rfl
theorem jnsl (t : Operand) : Statement (.jnsl t) := of_long _ _ t (by decide) rfl
theorem jol (t : Operand) : Statement (.jol t) := of_long _ _ t (by decide) rfl
theorem jnol (t : Operand) : Statement (.jnol t) := of_long _ _ t (by decide) rfl
theorem jal (t : Operand) : Statement (.jal t) := of_long _ _ t (by decide) rfl
theorem jbel (t : Operand) : Statement (.jbel t) := of_long _ _ t (by decide) rfl
theorem jgl (t : Operand) : Statement (.jgl t) := of_long _ _ t (by decide) rfl
theorem jgel (t : Operand) : Statement (.jgel t) := of_long _ _ t (by decide) rfl
theorem jll (t : Operand) : Statement (.jll t) := of_long _ _ t (by decide) rfl
theorem jlel (t : Operand) : Statement (.jlel t) := of_long _ _ t (by decide) rfl
theorem jmpl (t : Operand) : Statement (.jmpl t) := of_long _ _ t (by decide) rfl
theorem rz : Statement .rz := ⟨_, _, rfl, by decide⟩
theorem rnz : Statement .rnz := ⟨_, _, rfl, by decide⟩
theorem rc : Statement .rc := ⟨_, _, rfl, by decide⟩
theorem rnc : Statement .rnc := ⟨_, _, rfl, by decide⟩
theorem rs : Statement .rs := ⟨_, _, rfl, by decide⟩
theorem rns : Statement .rns := ⟨_, _, rfl, by decide⟩
theorem ro : Statement .ro := ⟨_, _, rfl, by decide⟩
theorem rno : Statement .rno := ⟨_, _, rfl, by decide⟩
theorem ra : Statement .ra := ⟨_, _, rfl, by decide⟩
theorem rbe : Statement .rbe := ⟨_, _, rfl, by decide⟩
theorem rg : Statement .rg := ⟨_, _, rfl, by decide⟩
theorem rge : Statement .rge := ⟨_, _, rfl, by decide⟩
theorem rl : Statement .rl := ⟨_, _, rfl, by decide⟩
theorem rle : Statement .rle := ⟨_, _, rfl, by decide⟩
theorem ret : Statement .ret := ⟨_, _, rfl, by decide⟩
theorem cz (t : Operand) : Statement (.cz t) := of_long _ _ t (by decide) rfl
theorem cnz (t : Operand) : Statement (.cnz t) := of_long _ _ t (by decide) rfl
theorem cc (t : Operand) : Statement (.cc t) := of_long _ _ t (by decide) rfl
theorem cnc (t : Operand) : Statement (.cnc t) := of_long _ _ t (by decide) rfl
theorem cs (t : Operand) : Statement (.cs t) := of_long _ _ t (by decide) rfl
theorem cns (t : Operand) : Statement (.cns t) := of_long _ _ t (by decide) rfl
theorem co (t : Operand) : Statement (.co t) := of_long _ _ t (by decide) rfl
theorem cno (t : Operand) : Statement (.cno t) := of_long _ _ t (by decide) rfl
theorem ca (t : Operand) : Statement (.ca t) := of_long _ _ t (by decide) rfl
theorem cbe (t : Operand) : Statement (.cbe t) := of_long _ _ t (by decide) rfl
theorem cg (t : Operand) : Statement (.cg t) := of_long _ _ t (by decide) rfl
theorem cge (t : Operand) : Statement (.cge t) := of_long _ _ t (by decide) rfl
theorem cl (t : Operand) : Statement (.cl t) := of_long _ _ t (by decide) rfl
theorem cle (t : Operand) : Statement (.cle t) := of_long _ _ t (by decide) rfl
theorem call (t : Operand) : Statement (.call t) := of_long _ _ t (by decide) rfl
theorem int (v : Fin 128) : Statement (.int v) := ⟨_, _, rfl, by revert v; decide⟩
theorem shr (n : Fin 8) (d : Operand) : Statement (.shr n d) := of_count _ n d (by decide) rfl
theorem shl (n : Fin 8) (d : Operand) : Statement (.shl n d) := of_count _ n d (by decide) rfl
theorem ror (n : Fin 8) (d : Operand) : Statement (.ror n d) := of_count _ n d (by decide) rfl
theorem rol (n : Fin 8) (d : Operand) : Statement (.rol n d) := of_count _ n d (by decide) rfl
theorem addi (n : Fin 8) (d : Operand) : Statement (.addi n d) := of_count _ n d (by decide) rfl
theorem subi (n : Fin 8) (d : Operand) : Statement (.subi n d) := of_count _ n d (by decide) rfl
theorem not (d : Operand) : Statement (.not d) := of_unary _ d (by decide) rfl
theorem neg (d : Operand) : Statement (.neg d) := of_unary _ d (by decide) rfl
theorem cbw (d : Operand) : Statement (.cbw d) := of_unary _ d (by decide) rfl
theorem sti : Statement .sti := ⟨_, _, rfl, by decide⟩
theorem cli : Statement .cli := ⟨_, _, rfl, by decide⟩
theorem stc : Statement .stc := ⟨_, _, rfl, by decide⟩
theorem clc : Statement .clc := ⟨_, _, rfl, by decide⟩

end Sys2Proof.Laws.EncodedLength
end

