-- ==== Sys2Proof/Laws/Step.lean ====
section
/-! SUPPORT. What operands, fetching and the step leave: the canonical form of memory, `pc`, and the two kinds of step. -/

namespace Sys2Proof.Machine

/-- Reading an operand keeps memory's canonical form. -/
theorem sourceAfter_wf (op : Operand) (s : State) (h : s.mem.wf) : (sourceAfter op s).mem.wf := by
  cases op <;> first | exact h | exact pokeReg_wf _ _ _ h

/-- Reading an operand touches no flag, no control register and not `pc`. -/
theorem sourceAfter_flags (op : Operand) (s : State) : (sourceAfter op s).flags = s.flags := by cases op <;> rfl

theorem sourceAfter_regbank (op : Operand) (s : State) : (sourceAfter op s).regbank = s.regbank := by cases op <;> rfl

theorem sourceAfter_intEnable (op : Operand) (s : State) : (sourceAfter op s).intEnable = s.intEnable := by cases op <;> rfl

theorem sourceAfter_pc (op : Operand) (s : State) : (sourceAfter op s).pc = s.pc := by cases op <;> rfl

/-- Reading an operand touches no latch and no parameter. -/
theorem sourceAfter_inputs (op : Operand) (s : State) : SameInterruptInputs s (sourceAfter op s) := by
  cases op <;> exact ⟨rfl, rfl, rfl⟩

/-- Reading an operand changes no byte but those of the register its mode moves. -/
theorem byteAt_sourceAfter (op : Operand) (s : State) {b : Word} (h : b ∉ sideEffectBytes op s) :
    byteAt (sourceAfter op s) b = byteAt s b := by
  cases op <;> simp only [sourceAfter]
  all_goals
    simp only [sideEffectBytes, regBytes, accessBytes, List.mem_cons, List.not_mem_nil, or_false, not_or] at h
    exact byteAt_pokeReg_of_ne _ _ _ h.1 h.2

/-- Writing a destination keeps memory's canonical form. -/
theorem written_wf (op : Operand) (v : Word) (s : State) (h : s.mem.wf) : (written op v s).mem.wf := by
  cases op with
  | reg r => exact pokeReg_wf _ _ _ h
  | imm _ => exact h
  | stack => exact poke_wf _ _ _ _ (pokeReg_wf _ _ _ h)
  | ind w p => exact poke_wf _ _ _ _ h
  | direct w a => exact poke_wf _ _ _ _ h
  | autoInc w p => exact pokeReg_wf _ _ _ (poke_wf _ _ _ _ h)
  | index w p off => exact poke_wf _ _ _ _ h

/-- Writing a destination leaves `pc` alone. -/
theorem written_pc (op : Operand) (v : Word) (s : State) : (written op v s).pc = s.pc := by cases op <;> simp [written]

/-- Writing a destination touches no latch and no parameter. -/
theorem written_inputs (op : Operand) (v : Word) (s : State) : SameInterruptInputs s (written op v s) := by
  cases op <;> simp [written, SameInterruptInputs]

/-- Fetching moves `pc` past what it fetched and changes nothing else (30_encoding.md R170). -/
theorem fetchWords_eq_ok {n : Nat} {ws : List Word} {s u : State} (h : fetchWords n s = .ok (ws, u)) :
    ws.length = n ∧ u = s.setPc (s.pc + BitVec.ofNat 16 (2 * n)) := by
  induction n generalizing ws s with
  | zero =>
    cases h
    exact ⟨rfl, by simp [State.setPc]⟩
  | succ n ih =>
    obtain ⟨⟨w, s'⟩, h1, h⟩ := bind_eq_ok.mp h
    obtain ⟨⟨vs, s''⟩, h2, h⟩ := bind_eq_ok.mp h
    obtain ⟨v, -, h1⟩ := bind_eq_ok.mp h1
    cases h
    cases h1
    obtain ⟨rfl, rfl⟩ := ih h2
    refine ⟨rfl, ?_⟩
    rw [Nat.mul_succ, Nat.add_comm, BitVec.ofNat_add]
    simp [State.setPc, BitVec.add_assoc]

/-- A fetched instruction: one to three words that decode to it, `pc` moved past them, nothing else changed (R170, R188). -/
theorem fetchInstr_eq_ok {i : Instr} {s u : State} (h : fetchInstr s = .ok (i, u)) :
    ∃ ws rest, decodeWords ws = .ok (i, rest) ∧ 1 ≤ ws.length ∧ u = s.setPc (s.pc + BitVec.ofNat 16 (2 * ws.length)) := by
  obtain ⟨⟨w, s'⟩, h1, h⟩ := bind_eq_ok.mp h
  obtain ⟨v, -, h1⟩ := bind_eq_ok.mp h1
  cases h1
  simp only at h
  split at h
  · cases h
  · obtain ⟨⟨es, s''⟩, h2, h⟩ := bind_eq_ok.mp h
    obtain ⟨he, rfl⟩ := fetchWords_eq_ok h2
    simp only at h
    split at h
    · cases h
    · rename_i j rest hd
      cases h
      refine ⟨_ :: es, rest, hd, by simp, ?_⟩
      rw [List.length_cons, he, Nat.mul_succ, Nat.add_comm (2 * _) 2, BitVec.ofNat_add]
      simp [State.setPc, BitVec.add_assoc]

/-- The two kinds of step: an interrupt entry, or one instruction (70_reset_and_hazards.md R356). -/
theorem step_eq_next {s t : State} :
    step s = .next t ↔
      (∃ n, recognise (latchRequests s) = some n ∧ takeInterrupt n (latchRequests s) = .ok t) ∨
      (recognise (latchRequests s) = none ∧ ∃ i u, fetchInstr (latchRequests s) = .ok (i, u) ∧ exec i u = .next t) := by
  unfold step
  cases hr : recognise (latchRequests s) with
  | some n => simp [hr, toOutcome_eq_next]
  | none =>
    cases hf : fetchInstr (latchRequests s) with
    | error f => simp [hr, hf]
    | ok p =>
      obtain ⟨i, u⟩ := p
      simp [hr, hf]

end Sys2Proof.Machine
end

