-- ==== Sys2Proof/Tests/Slice0.lean ====
section
/-! SUPPORT. Tests of the model against words and examples of the spec, and for each obligation with hypotheses a concrete
state and operands that meet them. Expected values are the spec's own (its rules' examples) or worked by hand from its rules. -/

namespace Sys2Proof.Tests

open Sys2Proof.Machine

/-! WellFormed: each check refuses an ill-formed term (30_encoding.md R186 class E-h; R188). -/

theorem test_ill_formed_dual : ∀ mk ∈ [Instr.mov, .add, .addc, .sub, .subb, .cmp, .and, .test, .or, .xor],
    (mk (.imm 1#16) (.imm 0x0123#16)).wellFormed = false ∧ (mk (.imm 1#16) .stack).wellFormed = true := by
  decide

theorem test_ill_formed_count : ∀ mk ∈ [Instr.shr, .shl, .ror, .rol, .addi, .subi],
    (mk 7 (.imm 0x0123#16)).wellFormed = false ∧ (mk 7 .stack).wellFormed = true := by
  decide

theorem test_ill_formed_unary : ∀ mk ∈ [Instr.not, .neg, .cbw],
    (mk (.imm 0x0123#16)).wellFormed = false ∧ (mk .stack).wellFormed = true := by
  decide

theorem test_ill_formed_jump_long : ∀ mk ∈ [Instr.jzl, .jnzl, .jcl, .jncl, .jsl, .jnsl, .jol, .jnol, .jal, .jbel, .jgl, .jgel,
      .jll, .jlel, .jmpl],
    (mk .stack).wellFormed = false ∧ (mk (.imm 0x0600#16)).wellFormed = true := by
  decide

/-! Decoding and encoding: every constructor, its word written out from the spec's encoding of it. -/

/-- Format D: `oooo ssssss dddddd`, source extension word first; the operand fields of R179 (30_encoding.md R172). -/
theorem test_decode_dual :
    ∀ p ∈ ([
      ([0b0000000010000000#16], .mov (.reg 2) (.reg 0)),
      ([0b0001011111001111#16, 0x0123#16], .add (.imm 0x0123#16) (.reg 15)),
      ([0b0010100111101111#16, 0x0400#16, 0x0403#16], .addc (.direct .word 0x0400#16) (.direct .byte 0x0403#16)),
      ([0b0011011010010110#16], .sub (.ind .byte 2) (.ind .word 6)),
      ([0b0100100010101000#16], .subb (.autoInc .word 2) (.autoInc .byte 0)),
      ([0b0101110011000111#16, 0x0600#16], .cmp (.index .word 3 0x0600#16) (.reg 7)),
      ([0b0110111111110000#16, 0xFFFE#16, 0x0002#16], .and (.index .byte 7 0xFFFE#16) (.index .word 0 0x0002#16)),
      ([0b0111010111100110#16], .test (.stack) (.autoInc .word 6)),
      ([0b1000101110011000#16], .or (.autoInc .byte 6) (.ind .byte 0)),
      ([0b1001000000100111#16, 0xC000#16], .xor (.reg 0) (.direct .word 0xC000#16))] : List (List Word × Instr)),
    decodeWords p.1 = .ok (p.2, []) ∧ encode p.2 = p.1 := by
  decide

/-- Format J: `1100 cccc 0 ooooooo` (R173, 42_program_control.md R250). -/
theorem test_decode_jump :
    ∀ p ∈ ([
      ([0b1100000000000000#16], .jz 0b0000000#7),
      ([0b1100000101111111#16], .jnz 0b1111111#7),
      ([0b1100001001000000#16], .jc 0b1000000#7),
      ([0b1100001100111111#16], .jnc 0b0111111#7),
      ([0b1100010001111100#16], .js 0b1111100#7),
      ([0b1100010100000000#16], .jns 0b0000000#7),
      ([0b1100011001111111#16], .jo 0b1111111#7),
      ([0b1100011101000000#16], .jno 0b1000000#7),
      ([0b1100100000111111#16], .ja 0b0111111#7),
      ([0b1100100101111100#16], .jbe 0b1111100#7),
      ([0b1100101000000000#16], .jg 0b0000000#7),
      ([0b1100101101111111#16], .jge 0b1111111#7),
      ([0b1100110001000000#16], .jl 0b1000000#7),
      ([0b1100110100111111#16], .jle 0b0111111#7),
      ([0b1100111101111100#16], .jmp 0b1111100#7)] : List (List Word × Instr)),
    decodeWords p.1 = .ok (p.2, []) ∧ encode p.2 = p.1 := by
  decide

/-- Format L, opcode 1100: `1100 cccc 10 dddddd` (R174). -/
theorem test_decode_jump_long :
    ∀ p ∈ ([
      ([0b1100000010011111#16, 0x0600#16], .jzl (.imm 0x0600#16)),
      ([0b1100000110001000#16], .jnzl (.reg 8)),
      ([0b1100001010110001#16, 0x0600#16], .jcl (.index .word 1 0x0600#16)),
      ([0b1100001110011111#16, 0x0600#16], .jncl (.imm 0x0600#16)),
      ([0b1100010010001000#16], .jsl (.reg 8)),
      ([0b1100010110110001#16, 0x0600#16], .jnsl (.index .word 1 0x0600#16)),
      ([0b1100011010011111#16, 0x0600#16], .jol (.imm 0x0600#16)),
      ([0b1100011110001000#16], .jnol (.reg 8)),
      ([0b1100100010110001#16, 0x0600#16], .jal (.index .word 1 0x0600#16)),
      ([0b1100100110011111#16, 0x0600#16], .jbel (.imm 0x0600#16)),
      ([0b1100101010001000#16], .jgl (.reg 8)),
      ([0b1100101110110001#16, 0x0600#16], .jgel (.index .word 1 0x0600#16)),
      ([0b1100110010011111#16, 0x0600#16], .jll (.imm 0x0600#16)),
      ([0b1100110110001000#16], .jlel (.reg 8)),
      ([0b1100111110110001#16, 0x0600#16], .jmpl (.index .word 1 0x0600#16))] : List (List Word × Instr)),
    decodeWords p.1 = .ok (p.2, []) ∧ encode p.2 = p.1 := by
  decide

/-- Format R: `1100 cccc 10 010111` (R175). -/
theorem test_decode_return :
    ∀ p ∈ ([
      ([0b1100000010010111#16], .rz),
      ([0b1100000110010111#16], .rnz),
      ([0b1100001010010111#16], .rc),
      ([0b1100001110010111#16], .rnc),
      ([0b1100010010010111#16], .rs),
      ([0b1100010110010111#16], .rns),
      ([0b1100011010010111#16], .ro),
      ([0b1100011110010111#16], .rno),
      ([0b1100100010010111#16], .ra),
      ([0b1100100110010111#16], .rbe),
      ([0b1100101010010111#16], .rg),
      ([0b1100101110010111#16], .rge),
      ([0b1100110010010111#16], .rl),
      ([0b1100110110010111#16], .rle),
      ([0b1100111110010111#16], .ret)] : List (List Word × Instr)),
    decodeWords p.1 = .ok (p.2, []) ∧ encode p.2 = p.1 := by
  decide

/-- Format L, opcode 1010: `1010 cccc 10 dddddd` (R174); format V: `1010 1111 0 vvvvvvv` (R176). -/
theorem test_decode_call :
    ∀ p ∈ ([
      ([0b1010000010011111#16, 0x0600#16], .cz (.imm 0x0600#16)),
      ([0b1010000110001000#16], .cnz (.reg 8)),
      ([0b1010001010110001#16, 0x0600#16], .cc (.index .word 1 0x0600#16)),
      ([0b1010001110011111#16, 0x0600#16], .cnc (.imm 0x0600#16)),
      ([0b1010010010001000#16], .cs (.reg 8)),
      ([0b1010010110110001#16, 0x0600#16], .cns (.index .word 1 0x0600#16)),
      ([0b1010011010011111#16, 0x0600#16], .co (.imm 0x0600#16)),
      ([0b1010011110001000#16], .cno (.reg 8)),
      ([0b1010100010110001#16, 0x0600#16], .ca (.index .word 1 0x0600#16)),
      ([0b1010100110011111#16, 0x0600#16], .cbe (.imm 0x0600#16)),
      ([0b1010101010001000#16], .cg (.reg 8)),
      ([0b1010101110110001#16, 0x0600#16], .cge (.index .word 1 0x0600#16)),
      ([0b1010110010011111#16, 0x0600#16], .cl (.imm 0x0600#16)),
      ([0b1010110110001000#16], .cle (.reg 8)),
      ([0b1010111110110001#16, 0x0600#16], .call (.index .word 1 0x0600#16)),
      ([0b1010111101001000#16], .int 72)] : List (List Word × Instr)),
    decodeWords p.1 = .ok (p.2, []) ∧ encode p.2 = p.1 := by
  decide

/-- Formats S, `1101 ooo nnn dddddd`, and U, `1101 111 ppp dddddd` (R177, R185). -/
theorem test_decode_single :
    ∀ p ∈ ([
      ([0b1101000001000000#16], .shr 1 (.reg 0)),
      ([0b1101001111101001#16], .shl 7 (.autoInc .byte 1)),
      ([0b1101010000000001#16], .ror 0 (.reg 1)),
      ([0b1101011111100111#16, 0x0400#16], .rol 7 (.direct .word 0x0400#16)),
      ([0b1101100001000001#16], .addi 1 (.reg 1)),
      ([0b1101101000110111#16, 0x0004#16], .subi 0 (.index .word 7 0x0004#16)),
      ([0b1101111000000000#16], .not (.reg 0)),
      ([0b1101111001011010#16], .neg (.ind .byte 2)),
      ([0b1101111100101111#16, 0x0401#16], .cbw (.direct .byte 0x0401#16))] : List (List Word × Instr)),
    decodeWords p.1 = .ok (p.2, []) ∧ encode p.2 = p.1 := by
  decide

/-- Format M: the four words of R177. -/
theorem test_decode_misc :
    ∀ p ∈ ([
      ([0b1101111111000000#16], .sti),
      ([0b1101111111000001#16], .cli),
      ([0b1101111111000010#16], .stc),
      ([0b1101111111000011#16], .clc)] : List (List Word × Instr)),
    decodeWords p.1 = .ok (p.2, []) ∧ encode p.2 = p.1 := by
  decide

/-- One word of each class of reserved words (R186). -/
theorem test_reserved :
    ∀ p ∈ ([
      (0b1011000000000000#16, .unassignedOpcode),
      (0b1110000000000000#16, .unassignedOpcode),
      (0b1111111111111111#16, .unassignedOpcode),
      (0b1101110000000000#16, .unassignedSubOpcode),
      (0b1101111010000000#16, .unassignedParameter),
      (0b1101111110000000#16, .unassignedParameter),
      (0b1101111111000100#16, .unassignedMiscellaneous),
      (0b1010000000000000#16, .conditionalInt),
      (0b1010111111000000#16, .formatLBitSix),
      (0b1100000011000000#16, .formatLBitSix),
      (0b1100111000000000#16, .unusedCondition),
      (0b1010111010000000#16, .unusedCondition),
      (0b0000000000011111#16, .immediateDestination),
      (0b0101000000011111#16, .immediateDestination),
      (0b1101000000011111#16, .immediateDestination),
      (0b1101111100011111#16, .immediateDestination)] : List (Word × ReservedClass)),
    decodeWords [p.1] = .error (.reserved p.2) := by
  decide

/-- The host's numbering: bit 0 is the least significant bit of the first word. -/
theorem test_table_word : decodeTableWord 48 0x0402040009E7 = some (.mov (.direct .word 0x0400#16) (.direct .word 0x0402#16)) ∧
    decodeTableWord 16 0x09C2 = some (.mov (.direct .word 0#16) (.reg 2)) ∧ decodeTableWord 16 0xFFFF = none := by
  decide

/-! One step. -/

/-- The state of the tests: `pc` at 0x0500, everything else as after reset. -/
def base : State := State.reset.setPc 0x0500#16

/-- Registers set. -/
def regs (l : List (RegNum × Word)) (s : State) : State := l.foldl (fun s p => pokeReg p.1 p.2 s) s

/-- Words of memory set. -/
def words (l : List (Word × Word)) (s : State) : State := l.foldl (fun s p => poke .word p.1 p.2 s) s

/-- Words at `pc`. -/
def code (ws : List Word) (s : State) : State := s.putBytes s.pc (bytesOfWords ws)

/-- The flags set from a word `I S O C Z`. -/
def flagged (v : Word) (s : State) : State := s.setFlags (Flags.ofWord v)

/-- What a step left: some registers, some words of memory, the flags, `pc`. -/
def after (rs : List RegNum) (ms : List Word) (o : Host.Outcome State Fault Refusal) :
    Option (List Word × List Word × Word × Word) :=
  match o with
  | .next t => some (rs.map (peekReg · t), ms.map (peek .word · t), t.flags.toWord, t.pc)
  | _ => none

/-- R233's example; no flag changes. -/
theorem test_mov : after [0] [] (step (code [0x0080#16] (flagged 0x000B#16 (regs [(2, 0xBEEF#16)] base)))) =
    some ([0xBEEF#16], [], 0x000B#16, 0x0502#16) := by decide

/-- `MOV r5, b[r10++]`: zero-extended, `r10` moved by one (R209, R210). -/
theorem test_mov_byte : after [5, 10] [] (step (code [0x0A85#16] (words [(0x0400#16, 0x2291#16)] (regs [(10, 0x0400#16)] base)))) =
    some ([0x0091#16, 0x0401#16], [], 0#16, 0x0502#16) := by decide

/-- R234: `0x7FFF + 1` overflows. -/
theorem test_add : after [7] [] (step (code [0x1087#16] (regs [(7, 0x7FFF#16), (2, 1#16)] base))) =
    some ([0x8000#16], [], 0x000C#16, 0x0502#16) := by decide

/-- R213: `ADD b[r12], r0` stores the low byte of the 16-bit sum, its flags those of the sum. -/
theorem test_add_byte : after [] [0x0400#16] (step (code [0x101C#16] (words [(0x0400#16, 0xAAF0#16)]
    (regs [(12, 0x0400#16), (0, 0x0020#16)] base)))) = some ([], [0xAA10#16], 0#16, 0x0502#16) := by decide

/-- R235: `0xFFFF + 0xFFFF + 1`. -/
theorem test_addc : after [1] [] (step (code [0x20C1#16] (flagged 2#16 (regs [(1, 0xFFFF#16), (3, 0xFFFF#16)] base)))) =
    some ([0xFFFF#16], [], 0x000A#16, 0x0502#16) := by decide

/-- R236's example: a borrow. -/
theorem test_sub : after [0] [] (step (code [0x3080#16] (regs [(0, 5#16), (2, 7#16)] base))) =
    some ([0xFFFE#16], [], 0x000A#16, 0x0502#16) := by decide

/-- R237: `0x8000 - 0 - 1` overflows. -/
theorem test_subb : after [4] [] (step (code [0x4144#16] (flagged 2#16 (regs [(4, 0x8000#16)] base)))) =
    some ([0x7FFF#16], [], 0x0004#16, 0x0502#16) := by decide

/-- R238's example; `I` stays. -/
theorem test_cmp : after [1] [] (step (code [0x57C1#16, 0x0123#16] (flagged 0x001E#16 (regs [(1, 0x0123#16)] base)))) =
    some ([0x0123#16], [], 0x0011#16, 0x0504#16) := by decide

/-- R238: a `[r15]` destination of CMP pops; below as unsigned numbers sets `C`. -/
theorem test_cmp_pop : after [15] [] (step (code [0x5057#16] (words [(0x0FFE#16, 1#16)] (regs [(15, 0x0FFE#16), (1, 2#16)] base)))) =
    some ([0x1000#16], [], 0x000A#16, 0x0502#16) := by decide

/-- R239's example; `C` and `O` stay. -/
theorem test_and : after [1] [] (step (code [0x67C1#16, 0x0F80#16] (flagged 6#16 (regs [(1, 0x1FFF#16)] base)))) =
    some ([0x0F80#16], [], 0x0006#16, 0x0504#16) := by decide

/-- R240's example. -/
theorem test_test : after [1] [] (step (code [0x77C1#16, 0x8002#16] (regs [(1, 0x8000#16)] base))) =
    some ([0x8000#16], [], 0x0008#16, 0x0504#16) := by decide

/-- R241's example. -/
theorem test_or : after [0] [] (step (code [0x8080#16] (regs [(0, 0x00F0#16), (2, 0x8001#16)] base))) =
    some ([0x80F1#16], [], 0x0008#16, 0x0502#16) := by decide

/-- R242's example. -/
theorem test_xor : after [0] [] (step (code [0x9080#16] (regs [(0, 0x00FF#16), (2, 0x0F0F#16)] base))) =
    some ([0x0FF0#16], [], 0#16, 0x0502#16) := by decide

/-- R251's example, at 0x0508: taken with `Z = 0`. -/
theorem test_jnz_taken : after [] [] (step (code [0xC17C#16] (base.setPc 0x0508#16))) = some ([], [], 0#16, 0x0502#16) := by decide

/-- R251's example, not taken with `Z = 1`. -/
theorem test_jnz_not_taken : after [] [] (step (code [0xC17C#16] (flagged 1#16 (base.setPc 0x0508#16)))) =
    some ([], [], 1#16, 0x050A#16) := by decide

/-- R252: a jump table. -/
theorem test_jmpl : after [9] [] (step (code [0xCFB1#16, 0x0600#16] (words [(0x0604#16, 0x0700#16)] (regs [(9, 4#16)] base)))) =
    some ([4#16], [], 0#16, 0x0700#16) := by decide

/-- R252: not taken, `[r9++]` is not evaluated. -/
theorem test_jzl_not_taken : after [9] [] (step (code [0xC0A1#16] (regs [(9, 0x0401#16)] base))) =
    some ([0x0401#16], [], 0#16, 0x0502#16) := by decide

/-- R253's example. -/
theorem test_ret : after [15] [] (step (code [0xCF97#16] (words [(0x0FFC#16, 0x0504#16)] (regs [(15, 0x0FFC#16)] base)))) =
    some ([0x0FFE#16], [], 0#16, 0x0504#16) := by decide

/-- R253: a return not taken pops nothing. -/
theorem test_rc_not_taken : after [15] [] (step (code [0xC297#16] (regs [(15, 0x0FFC#16)] base))) =
    some ([0x0FFC#16], [], 0#16, 0x0502#16) := by decide

/-- R254's example. -/
theorem test_call : after [15] [0x0FFE#16] (step (code [0xAF9F#16, 0x0520#16] (regs [(15, 0x1000#16)] base))) =
    some ([0x0FFE#16], [0x0504#16], 0#16, 0x0520#16) := by decide

/-- R254: a call not taken pushes nothing and skips its extension word. -/
theorem test_cnz_not_taken : after [15] [0x0FFE#16] (step (code [0xA19F#16, 0x0520#16] (flagged 1#16 (regs [(15, 0x1000#16)] base)))) =
    some ([0x1000#16], [0#16], 1#16, 0x0504#16) := by decide

/-- R255's example; `I` stays. -/
theorem test_int : after [15] [0x0FFE#16] (step (code [0xAF48#16] (flagged 0x0010#16 (words [(0x0090#16, 0x0700#16)]
    (regs [(15, 0x1000#16)] base))))) = some ([0x0FFE#16], [0x0502#16], 0x0010#16, 0x0700#16) := by decide

/-- R271's example. -/
theorem test_shr : after [0] [] (step (code [0xD040#16] (regs [(0, 0x8005#16)] base))) =
    some ([0xE001#16], [], 0x0008#16, 0x0502#16) := by decide

/-- R272's example. -/
theorem test_shl : after [1] [] (step (code [0xD241#16] (regs [(1, 0x4001#16)] base))) =
    some ([0x0004#16], [], 0x0002#16, 0x0502#16) := by decide

/-- R273's example. -/
theorem test_ror : after [1] [] (step (code [0xD401#16] (regs [(1, 1#16)] base))) =
    some ([0x8000#16], [], 0x000A#16, 0x0502#16) := by decide

/-- R274's example. -/
theorem test_rol : after [1] [] (step (code [0xD641#16] (regs [(1, 0x8001#16)] base))) =
    some ([0x0006#16], [], 0#16, 0x0502#16) := by decide

/-- R275's example; `C` and `O` stay. -/
theorem test_addi : after [1] [] (step (code [0xD841#16] (flagged 4#16 (regs [(1, 0xFFFE#16)] base)))) =
    some ([0#16], [], 0x0005#16, 0x0502#16) := by decide

/-- R276: from 0 no borrow is recorded. -/
theorem test_subi : after [1] [] (step (code [0xDA01#16] base)) = some ([0xFFFF#16], [], 0x0008#16, 0x0502#16) := by decide

/-- R277's example. -/
theorem test_not : after [0] [] (step (code [0xDE00#16] (regs [(0, 0x00FF#16)] base))) =
    some ([0xFF00#16], [], 0x0008#16, 0x0502#16) := by decide

/-- R278: 0x8000. -/
theorem test_neg : after [0] [] (step (code [0xDE40#16] (regs [(0, 0x8000#16)] base))) =
    some ([0x8000#16], [], 0x000E#16, 0x0502#16) := by decide

/-- R279's example. -/
theorem test_cbw : after [0] [] (step (code [0xDF00#16] (regs [(0, 0x1280#16)] base))) =
    some ([0xFF80#16], [], 0x0008#16, 0x0502#16) := by decide

/-- The examples of R290 to R293. -/
theorem test_flag_instructions :
    after [] [] (step (code [0xDFC0#16] (flagged 0x0002#16 base))) = some ([], [], 0x0012#16, 0x0502#16) ∧
      after [] [] (step (code [0xDFC1#16] (flagged 0x0019#16 base))) = some ([], [], 0x0009#16, 0x0502#16) ∧
      after [] [] (step (code [0xDFC2#16] base)) = some ([], [], 0x0002#16, 0x0502#16) ∧
      after [] [] (step (code [0xDFC3#16] (flagged 0x001F#16 base))) = some ([], [], 0x001D#16, 0x0502#16) := by decide

/-- R212: `PUSH r15` stores `r15` from before the decrement; `POP r15` ends with the popped word. -/
theorem test_push_pop_r15 :
    after [15] [0x0FFE#16] (step (code [0x03D7#16] (regs [(15, 0x1000#16)] base))) =
        some ([0x0FFE#16], [0x1000#16], 0#16, 0x0502#16) ∧
      after [15] [] (step (code [0x05CF#16] (words [(0x0FFE#16, 0x1234#16)] (regs [(15, 0x0FFE#16)] base)))) =
        some ([0x1234#16], [], 0#16, 0x0502#16) := by decide

/-- R116: a store to REGBANK moves the bank; `r0` is then the word at 0x0200 (R112, R115). -/
theorem test_regbank : after [0] [0x0100#16] (step (code [0x07E7#16, 0x0200#16, 0xC002#16] (words [(0x0200#16, 0xABCD#16)]
    (regs [(0, 0x1111#16)] base)))) = some ([0xABCD#16], [0x1111#16], 0#16, 0x0506#16) := by decide

/-- Interrupt 5 pending, enabled, its handler at 0x0700. -/
def interrupted : State :=
  flagged 0x0013#16 { words [(0x000A#16, 0x0700#16)] (regs [(15, 0x1000#16)] base) with intEnable := 0x0020#16, pend := 0x20#48 }

/-- R326: entry pushes `pc`, clears `I`, keeps the other flags. -/
theorem test_interrupt_entry : after [15] [0x0FFE#16] (step interrupted) = some ([0x0FFE#16], [0x0500#16], 0x0003#16, 0x0700#16) := by
  decide

/-- R324: the latch is cleared on entry. -/
theorem test_interrupt_latch : (match step interrupted with | .next t => some t.pend | _ => none) = some 0#48 := by decide

/-- Why the machine stopped. -/
def stop (o : Host.Outcome State Fault Refusal) : Option Fault :=
  match o with
  | .fault f => some f
  | _ => none

/-- The ModelFault causes of 60_exceptions.md R320, one step each. -/
theorem test_stops :
    stop (step (code [0xFFFF#16] base)) = some (.reservedEncoding (.reserved .unassignedOpcode)) ∧
      stop (step (base.setPc 0x0501#16)) = some (.misalignedWord 0x0501#16) ∧
      stop (step (code [0xCF9F#16, 0x0601#16] base)) = some (.oddTarget 0x0601#16) ∧
      stop (step (code [0x1017#16] base)) = some .readModifyWriteStack ∧
      stop (step (code [0xAF8F#16] base)) = some .callThroughStackPointer ∧
      stop (step (code [0x002F#16, 0xC001#16] base)) = some (.byteControlAccess 0xC001#16) ∧
      stop (step (code [0x1027#16, 0xC000#16] base)) = some .flagsDestination ∧
      stop (step (code [0x5027#16, 0xC000#16] base)) = some .flagsDestination ∧
      stop (step (code [0x7027#16, 0xC000#16] base)) = some .flagsDestination ∧
      stop (step (code [0x0027#16, 0xE000#16] base)) = some (.romWrite 0xE000#16) ∧
      stop (step (code [0x0027#16, 0xC024#16] base)) = some (.undefinedControlRegister 0xC024#16) := by decide

/-- The examples of R361 and R363, and `push [0xc000]` of 60_exceptions.md R328. -/
theorem test_cycles :
    cycles (.mov (.direct .word 0x0400#16) (.direct .word 0x0402#16)) base = 7 ∧
      cycles (.mov (.autoInc .word 2) (.autoInc .word 0)) base = 9 ∧ cycles (.mov (.autoInc .word 2) (.ind .word 0)) base = 8 ∧
      cycles (.mov (.imm 0#16) (.direct .word 0x0400#16)) base = 6 ∧ cycles (.shl 0 (.index .word 1 0x0600#16)) base = 7 ∧
      cycles (.mov (.imm 0#16) (.direct .word 0xC024#16)) base = 7 ∧ cycles (.mov (.direct .word 0xC000#16) .stack) base = 9 := by
  decide

/-- A MEMMAP with external memory everywhere. -/
def externalMap : Params := { defaultParams with memMap := [{ first := 0x0000, last := 0xFFFF, kind := .external }] }

/-- R363: a return whose `[r15]` is a control register waits one clock; a call's operand is the one after the push, here over
`r8`; 0xC024 waits under every MEMMAP. A step that stops has no cost. -/
theorem test_cycles_wait :
    cycles .ret (regs [(15, 0xC00E#16)] base) = 7 ∧ cycles .ret base = 6 ∧
      cycles (.call (.ind .word 0)) (regs [(8, 0xC00E#16), (15, 0x0112#16)] base) = 8 ∧
      cycles (.mov (.imm 0#16) (.direct .word 0xC024#16)) { base with params := externalMap } = 7 ∧
      cycles (.mov (.imm 0#16) (.direct .word 0xC026#16)) { base with params := externalMap } = 6 ∧
      stepCost (code [0xCF9F#16, 0x0601#16] base) = none ∧ stepCost (code [0xCF9F#16, 0x0600#16] base) = some 4 := by
  decide

/-- R357: at `JMP $` the run is finished, unless an interrupt is pending with `I` set; one step earlier it is not. -/
theorem test_end_of_run :
    (endState 0x0502#16 1 (code [0x0000#16, 0xCF7F#16] base)).map State.pc = some 0x0502#16 ∧
      (endState 0x0502#16 0 (code [0x0000#16, 0xCF7F#16] base)) = none ∧
      finished 0x0500#16 (code [0xCF7F#16] interrupted) = false := by
  decide

/-- `withFetchWord` places the word where the next step fetches, in ROM too: `MOV r2, [0x011E]` as the first instruction after
reset delivers `r15`'s word. -/
theorem test_with_fetch_word : after [2] [] (step (State.reset.withFetchWord 32 0x011E09C2)) =
    some ([0x0400#16], [], 0#16, 0xFFF4#16) := by decide

/-! Witnesses: for each obligation with hypotheses, states and operands that meet them, one for each of its clauses. -/

/-- The outcome is a next state. -/
def completes (o : Host.Outcome State Fault Refusal) : Bool :=
  match o with
  | .next _ => true
  | _ => false

theorem exists_next {o : Host.Outcome State Fault Refusal} (h : completes o = true) : ∃ t, o = .next t := by
  cases o with
  | next t => exact ⟨t, rfl⟩
  | fault f => cases h
  | refused r => cases h

/-- The outcome is a next state with another `I`. -/
def changesI (o : Host.Outcome State Fault Refusal) (s : State) : Bool :=
  match o with
  | .next t => t.flags.i != s.flags.i
  | _ => false

theorem exists_changesI {o : Host.Outcome State Fault Refusal} {s : State} (h : changesI o s = true) :
    ∃ t, o = .next t ∧ t.flags.i ≠ s.flags.i := by
  cases o with
  | next t => exact ⟨t, rfl, by simpa [changesI] using h⟩
  | fault f => cases h
  | refused r => cases h

/-- An operation that can stop went through. -/
def succeeds (x : Except Fault State) : Bool :=
  match x with
  | .ok _ => true
  | .error _ => false

theorem exists_ok {x : Except Fault State} (h : succeeds x = true) : ∃ t, x = .ok t := by
  cases x with
  | ok t => exact ⟨t, rfl⟩
  | error f => cases h

/-- A state with pointers into RAM, a stack, `C` and `I` set. -/
def ready : State :=
  flagged 0x0012#16 (words [(0x0FFE#16, 0x0700#16), (0x00FE#16, 0x0700#16), (0x0800#16, 0x0700#16)]
    (regs [(8, 0x0800#16), (9, 0x0900#16), (14, 0x3FFF#16), (15, 0x0FFE#16)] base))

/-- The same with the stack at 0xC002, so that a push lands on the flags register. -/
def stackOnFlags : State := regs [(15, 0xC002#16)] ready

/-- The same with odd words where targets are read. -/
def oddTargets : State := words [(0x0FFE#16, 0x0701#16), (0x00FE#16, 0x0701#16), (0x0000#16, 0x0701#16)] ready

/-- The highest bank within internal RAM. -/
def topBank : State := poke .word regbankAddr 0x3FFF#16 ready

/-- A bank that overlays control registers, and one in ROM. -/
def controlBank : State := poke .word regbankAddr 0xC000#16 ready

def romBank : State := poke .word regbankAddr 0xE000#16 ready

theorem witness_DecodeOfEncode :
    (Instr.and (.index .byte 7 0xFFFF#16) (.direct .word 0xFFFE#16)).wellFormed = true ∧ (Instr.jzl (.imm 0#16)).wellFormed = true := by
  decide

theorem witness_DecodeOfEncodedBytes : (Instr.subi 7 (.index .byte 7 0xFFFF#16)).wellFormed = true := by decide

theorem witness_EncodeOfDecode :
    decodeWords [0x6FF0#16, 0xFFFE#16, 0x0002#16, 0x9999#16] =
      .ok (.and (.index .byte 7 0xFFFE#16) (.index .word 0 0x0002#16), [0x9999#16]) := by decide

theorem witness_InstructionLength :
    decodeWords [0x6FF0#16, 0xFFFE#16, 0x0002#16] = .ok (.and (.index .byte 7 0xFFFE#16) (.index .word 0 0x0002#16), []) ∧
      decodeWords [0xCF97#16] = .ok (.ret, []) ∧ decodeWords [0xDFC3#16] = .ok (.clc, []) := by decide

theorem witness_StepKeepsInvariant : MachineInv ready ∧ ∃ t, step ready = .next t :=
  ⟨⟨by decide, by decide⟩, exists_next (by decide)⟩

theorem witness_StepKeepsParameters : ∃ t, step interrupted = .next t := exists_next (by decide)

theorem witness_InstructionsKeepLatches : ∃ t, exec (.int 127) ready = .next t := exists_next (by decide)

theorem witness_InterruptFlagWriters :
    (∃ t, exec .sti base = .next t ∧ t.flags.i ≠ base.flags.i) ∧
      (∃ t, exec .cli ready = .next t ∧ t.flags.i ≠ ready.flags.i) ∧
      (∃ t, exec (.mov (.imm 0#16) (.direct .word 0xC000#16)) ready = .next t ∧ t.flags.i ≠ ready.flags.i) ∧
      ∃ t, exec (.call (.imm 0x0600#16)) stackOnFlags = .next t ∧ t.flags.i ≠ stackOnFlags.flags.i :=
  ⟨exists_changesI (by decide), exists_changesI (by decide), exists_changesI (by decide), exists_changesI (by decide)⟩

theorem witness_StoreThenLoad :
    ready.mem.wf ∧ (isControlWord 0x0000#16 = false ∧ Writable .word 0x0000#16 ready) ∧
      (isControlWord 0xDFFE#16 = false ∧ Writable .word 0xDFFE#16 ready) ∧ Writable .byte 0x0000#16 ready ∧
      Writable .byte 0xDFFF#16 ready := by
  decide

theorem witness_StoreFrame :
    (∃ t, store .word flagsAddr 0x001F#16 ready = .ok t) ∧ (∃ t, store .word 0x0000#16 1#16 ready = .ok t) ∧
      ∃ t, store .byte 0x3FFF#16 1#16 ready = .ok t :=
  ⟨exists_ok (by decide), exists_ok (by decide), exists_ok (by decide)⟩

theorem witness_RegisterIsItsMemoryWord : RegReady 0 ready ∧ RegReady 15 ready ∧ RegReady 15 topBank := by decide

theorem witness_RegisterBankMustBeMemory_memory :
    isControlWord (regAddr 15 topBank) = false ∧
      ∀ a ∈ regBytes 15 topBank, kindAt topBank.params.memMap a = .ram ∨ kindAt topBank.params.memMap a = .external := by
  have h : regBytes 15 topBank = [0x3FFE#16, 0x3FFF#16] := by decide
  refine ⟨by decide, fun a ha => ?_⟩
  rw [h, List.mem_cons, List.mem_singleton] at ha
  rcases ha with rfl | rfl <;> decide

theorem witness_RegisterBankMustBeMemory_other :
    isControlWord (regAddr 0 controlBank) = true ∧
      ∃ a ∈ regBytes 0 romBank, kindAt romBank.params.memMap a ≠ .ram ∧ kindAt romBank.params.memMap a ≠ .external := by
  have h : regBytes 0 romBank = [0xE000#16, 0xE001#16] := by decide
  exact ⟨by decide, 0xE000#16, by rw [h]; exact List.mem_cons_self .., by decide⟩

/-- The other reading of REGBANK's low bits. -/
def lowZero : Params := { defaultParams with regbankLowRead := false }

theorem witness_RegbankSwitch : ready.params.regbankLowRead = true ∧ lowZero.regbankLowRead = false := by decide

/-- Operands whose address is REGBANK, written and read. -/
theorem witness_RegbankSwitch_operands :
    let s := regs [(8, 0xC002#16)] ready
    (operandAddress .write (.autoInc .word 0) s = .ok regbankAddr ∧ succeeds (writeDst (.autoInc .word 0) 0x0200#16 s) = true) ∧
      (operandAddress .write (.direct .word 0xC002#16) s = .ok regbankAddr ∧
        succeeds (writeDst (.direct .word 0xC002#16) 0xFFFF#16 s) = true) ∧
      operandAddress .read (.ind .word 0) s = .ok regbankAddr ∧ succeeds ((readOperand (.ind .word 0) s).map Prod.snd) = true := by
  decide

theorem witness_Conditions : 0xCEFF#16 &&& 0xFF00#16 = 0xCE00#16 ∧ 0xAE80#16 &&& 0xFF80#16 = 0xAE80#16 := by decide

theorem witness_MisalignedWordStops :
    (0x0001#16).toNat % 2 = 1 ∧ (0xFFFF#16).toNat % 2 = 1 ∧
      ((base.setPc 0xFFFF#16).pc.toNat % 2 = 1 ∧ recognise (latchRequests (base.setPc 0xFFFF#16)) = none) ∧
      RegReady spReg (regs [(15, 0x0001#16)] base) ∧ (stackPointer (regs [(15, 0x0001#16)] base)).toNat % 2 = 1 := by
  decide

theorem witness_ControlByteAccessStops :
    0xC000#16 ∈ [0xC000#16, 0xC001#16, 0xC002#16, 0xC003#16, 0xC00E#16, 0xC00F#16] ∧
      0xC00F#16 ∈ [0xC000#16, 0xC001#16, 0xC002#16, 0xC003#16, 0xC00E#16, 0xC00F#16] := by
  decide

theorem witness_MemoryMapDecidesAccess :
    let kind : Word → RegionKind := kindAt defaultMemMap
    (isControlByte 0x3FFF#16 = false ∧ kind 0x3FFF#16 = .ram) ∧ (isControlByte 0x4000#16 = false ∧ kind 0x4000#16 = .external) ∧
      (isControlByte 0xBFFF#16 = false ∧ kind 0xBFFF#16 = .external) ∧ (isControlByte 0xC004#16 = false ∧ kind 0xC004#16 = .control) ∧
      (isControlByte 0xC0FF#16 = false ∧ kind 0xC0FF#16 = .control) ∧ (isControlByte 0xE000#16 = false ∧ kind 0xE000#16 = .rom) ∧
      (isControlByte 0xFFFF#16 = false ∧ kind 0xFFFF#16 = .rom) ∧ isControlByte 0x0000#16 = false ∧ kindAt [] 0x0000#16 = .absent := by
  decide

/-- Words within a region, and words of which one byte alone is backed. -/
theorem witness_MemoryMapDecidesAccess_words :
    let low : MemMap := [{ first := 0x0000, last := 0x0100, kind := .ram }, { first := 0x0103, last := 0x0103, kind := .rom }]
    ((0x3FFE#16).toNat % 2 = 0 ∧ isControlWord 0x3FFE#16 = false ∧ kindAt defaultMemMap 0x3FFE#16 = .ram ∧
        kindAt defaultMemMap (0x3FFE#16 + 1) = .ram) ∧
      ((0x0100#16).toNat % 2 = 0 ∧ isControlWord 0x0100#16 = false ∧ kindAt low 0x0100#16 = .ram ∧
        kindAt low (0x0100#16 + 1) = .absent) ∧
      (0x0102#16).toNat % 2 = 0 ∧ isControlWord 0x0102#16 = false ∧ kindAt low 0x0102#16 = .absent ∧
        kindAt low (0x0102#16 + 1) = .rom := by
  decide

theorem witness_MovResult :
    (SourceReady .stack ready ∧ DstWritable (.autoInc .word 0) (sourceValue .stack ready) (sourceAfter .stack ready)) ∧
      SourceReady (.index .byte 7 1#16) ready ∧
        DstWritable (.direct .word 0xC000#16) (sourceValue (.index .byte 7 1#16) ready) (sourceAfter (.index .byte 7 1#16) ready) := by
  simp only [SourceReady, DstWritable]
  decide

theorem witness_AddAddcResult :
    SourceReady (.autoInc .word 0) ready ∧
      let u := sourceAfter (.autoInc .word 0) ready
      let v := sourceValue (.autoInc .word 0) ready
      let d := sourceValue (.ind .byte 6) u
      DstModifiable (.ind .byte 6) (d + v) u ∧ DstModifiable (.ind .byte 6) (d + v + BitVec.ofNat 16 ready.flags.c.toNat) u := by
  simp only [SourceReady, DstModifiable, DstWritable]
  decide

theorem witness_SubSubbResult :
    SourceReady .stack ready ∧
      let u := sourceAfter .stack ready
      let v := sourceValue .stack ready
      let d := sourceValue (.autoInc .word 1) u
      DstModifiable (.autoInc .word 1) (d - v) u ∧ DstModifiable (.autoInc .word 1) (d - v - BitVec.ofNat 16 ready.flags.c.toNat) u := by
  simp only [SourceReady, DstModifiable, DstWritable]
  decide

theorem witness_CmpResult : SourceReady (.imm 1#16) ready ∧ DstComparable .stack (sourceAfter (.imm 1#16) ready) := by
  simp only [SourceReady, DstComparable]
  decide

theorem witness_AndTestOrXorResult :
    SourceReady (.imm 1#16) ready ∧
      let u := sourceAfter (.imm 1#16) ready
      let v := sourceValue (.imm 1#16) ready
      let d := sourceValue (.reg 15) u
      DstModifiable (.reg 15) (d &&& v) u ∧ DstComparable .stack u ∧ DstModifiable (.reg 15) (d ||| v) u ∧
        DstModifiable (.reg 15) (d ^^^ v) u := by
  simp only [SourceReady, DstModifiable, DstWritable, DstComparable]
  decide

/-- The hypotheses of the encodings: a field with an extension word, and one at the end of the fields. -/
theorem witness_encodings :
    0x3F#6 ≠ immediateField ∧ 0x3F#6 ≠ stackField ∧ condOfField 0b1111#4 = some .always ∧
      takeOperand 0x1F#6 [1#16, 2#16] = .ok (.imm 1#16, [2#16]) ∧
      takeOperand 0x3F#6 [2#16, 3#16] = .ok (.index .byte 7 2#16, [3#16]) := by
  decide

/-- A byte destination at the end of RAM and a register take any result: the hypotheses of ShrShlResult, RorRolResult,
AddiSubiResult and NotNegCbwResult. -/
theorem modifiable (r : Word) : DstModifiable (.ind .byte 6) r ready ∧ DstModifiable (.reg 0) r ready := by
  simp only [SourceReady, DstModifiable, DstWritable]
  decide

theorem witness_ShrShlResult (n : Fin 8) :
    let d := sourceValue (.ind .byte 6) ready
    DstModifiable (.ind .byte 6) (BitVec.ofInt 16 (d.toInt / 2 ^ (n.val + 1))) ready ∧
      DstModifiable (.ind .byte 6) (BitVec.ofNat 16 (d.toNat * 2 ^ (n.val + 1))) ready :=
  ⟨(modifiable _).1, (modifiable _).1⟩

theorem witness_RorRolResult (n : Fin 8) :
    let k := n.val + 1
    let d := sourceValue (.reg 0) ready
    DstModifiable (.reg 0) (BitVec.ofNat 16 (d.toNat / 2 ^ k + d.toNat % 2 ^ k * 2 ^ (16 - k))) ready ∧
      DstModifiable (.reg 0) (BitVec.ofNat 16 (d.toNat * 2 ^ k % 2 ^ 16 + d.toNat / 2 ^ (16 - k))) ready :=
  ⟨(modifiable _).2, (modifiable _).2⟩

theorem witness_AddiSubiResult (n : Fin 8) :
    let d := sourceValue (.ind .byte 6) ready
    DstModifiable (.ind .byte 6) (BitVec.ofNat 16 (d.toNat + (n.val + 1))) ready ∧
      DstModifiable (.ind .byte 6) (BitVec.ofInt 16 ((d.toNat : Int) - (n.val + 1))) ready :=
  ⟨(modifiable _).1, (modifiable _).1⟩

theorem witness_NotNegCbwResult :
    let d := sourceValue (.reg 0) ready
    DstModifiable (.reg 0) (BitVec.ofNat 16 (65535 - d.toNat)) ready ∧ DstModifiable (.reg 0) (BitVec.ofNat 16 (65536 - d.toNat)) ready ∧
      DstModifiable (.reg 0) (BitVec.ofNat 16 (if d.toNat % 256 < 128 then d.toNat % 256 else 0xFF00 + d.toNat % 256)) ready :=
  ⟨(modifiable _).2, (modifiable _).2, (modifiable _).2⟩

theorem witness_LongJumpResult :
    condHolds .z ready.flags = false ∧ condHolds .c ready.flags = true ∧ SourceReady .stack ready ∧
      (sourceValue .stack ready).toNat % 2 = 0 := by
  simp only [SourceReady]
  decide

theorem witness_RelativeJumpResult :
    condOfField 0b0000#4 = some .z ∧ condOfField 0b1111#4 = some .always ∧ ready.pc.toNat % 2 = 0 := by
  decide

theorem witness_ReturnResult :
    condOfField 0b1101#4 = some .le ∧ condHolds .z ready.flags = false ∧ condHolds .always ready.flags = true ∧
      RegReady spReg ready ∧ Readable .word (stackPointer ready) ready ∧
      (peek .word (stackPointer ready) ready).toNat % 2 = 0 := by
  decide

theorem witness_ReturnResult_odd :
    condHolds .always oddTargets.flags = true ∧ RegReady spReg oddTargets ∧
      Readable .word (stackPointer oddTargets) oddTargets ∧ (peek .word (stackPointer oddTargets) oddTargets).toNat % 2 = 1 := by
  decide

/-- The clause of ReturnResult on its clocks, with the stack on a control register. -/
theorem witness_ReturnResult_wait :
    RegReady spReg (regs [(15, 0xC00E#16)] ready) ∧ isInternalRegister (regs [(15, 0xC00E#16)] ready) (stackPointer (regs [(15, 0xC00E#16)] ready)) = true := by
  decide

theorem witness_CallResult :
    condHolds .z ready.flags = false ∧ condHolds .always ready.flags = true ∧ namesStackPointer (.autoInc .word 0) = false ∧
      DstWritable .stack ready.pc ready ∧
      (let u := written .stack ready.pc ready
       SourceReady (.autoInc .word 0) u ∧ (sourceValue (.autoInc .word 0) u).toNat % 2 = 0) := by
  simp only [SourceReady, DstWritable]
  decide

/-- The clauses of CallResult that stop: an operand that names `r15`, an odd target. -/
theorem witness_CallResult_stops :
    condHolds .c ready.flags = true ∧ condHolds .always oddTargets.flags = true ∧
      namesStackPointer (.imm 0xFFFF#16) = false ∧ DstWritable .stack oddTargets.pc oddTargets ∧
      (sourceValue (.imm 0xFFFF#16) (written .stack oddTargets.pc oddTargets)).toNat % 2 = 1 := by
  simp only [DstWritable]
  decide

/-- The hypotheses of PushPopCallReturn's first clauses. -/
theorem witness_PushPopCallReturn_stack : DstWritable .stack 1#16 ready ∧ SourceReady .stack ready := by
  simp only [SourceReady, DstWritable]
  decide

theorem witness_IntResult :
    DstWritable .stack ready.pc ready ∧
      (Readable .word (BitVec.ofNat 16 (2 * (127 : Fin 128).val)) ready ∧
        (peek .word (BitVec.ofNat 16 (2 * (127 : Fin 128).val)) (written .stack ready.pc ready)).toNat % 2 = 0) ∧
      Readable .word (BitVec.ofNat 16 (2 * (0 : Fin 128).val)) ready ∧
        (peek .word (BitVec.ofNat 16 (2 * (0 : Fin 128).val)) (written .stack ready.pc ready)).toNat % 2 = 0 := by
  simp only [DstWritable]
  decide

theorem witness_IntResult_odd :
    DstWritable .stack oddTargets.pc oddTargets ∧ Readable .word (BitVec.ofNat 16 (2 * (127 : Fin 128).val)) oddTargets ∧
      (peek .word (BitVec.ofNat 16 (2 * (127 : Fin 128).val)) (written .stack oddTargets.pc oddTargets)).toNat % 2 = 1 := by
  simp only [DstWritable]
  decide

theorem witness_PushPopCallReturn :
    MachineInv ready ∧ (∃ u, exec (.call (.imm 0xFFFE#16)) ready = .next u) ∧
      isControlWord (stackPointer ready - 2#16) = false ∧
      ∀ b ∈ accessBytes .word (stackPointer ready - 2#16), b ∉ regBytes spReg ready :=
  ⟨⟨by decide, by decide⟩, exists_next (by decide), by decide, by
    have h1 : accessBytes .word (stackPointer ready - 2#16) = [0x0FFC#16, 0x0FFD#16] := by decide
    have h2 : regBytes spReg ready = [0x011E#16, 0x011F#16] := by decide
    intro b hb
    rw [h1, List.mem_cons, List.mem_singleton] at hb
    rw [h2]
    rcases hb with rfl | rfl <;> decide⟩

theorem witness_OddTargetStops :
    condHolds .always oddTargets.flags = true ∧
      (SourceReady (.imm 0xFFFF#16) oddTargets ∧ (sourceValue (.imm 0xFFFF#16) oddTargets).toNat % 2 = 1) ∧
      (SourceReady .stack oddTargets ∧ (sourceValue .stack oddTargets).toNat % 2 = 1) ∧ oddTargets.pc.toNat % 2 = 0 ∧
      ∃ t, exec (.jmp 0x40#7) oddTargets = .next t :=
  ⟨by decide, ⟨trivial, by decide⟩, ⟨⟨by decide, by decide⟩, by decide⟩, by decide, exists_next (by decide)⟩

/-- The state after the push of OddTargetStops' calls. -/
def oddPushed : State := written .stack oddTargets.pc oddTargets

theorem witness_OddTargetStops_calls :
    namesStackPointer (.imm 1#16) = false ∧ DstWritable .stack oddTargets.pc oddTargets ∧ SourceReady (.imm 1#16) oddPushed ∧
      (sourceValue (.imm 1#16) oddPushed).toNat % 2 = 1 ∧ Readable .word (vectorAddr 127) oddTargets ∧
      (peek .word (vectorAddr 127) oddPushed).toNat % 2 = 1 :=
  ⟨by decide, ⟨by decide, by decide⟩, trivial, by decide, by decide, by decide⟩

theorem witness_OddTargetStops_interrupt :
    Readable .word (vectorAddr oddTargets.params.irqVector[(0 : Fin 48)]) oddTargets ∧
      (peek .word (vectorAddr oddTargets.params.irqVector[(0 : Fin 48)])
        (written .stack oddTargets.pc (oddTargets.clearPend 0))).toNat % 2 = 1 :=
  ⟨by decide, by decide⟩

theorem witness_ReadModifyWriteStackStops : SourceReady .stack ready ∧ Instr.xor ∈ [Instr.add, Instr.addc, Instr.sub, Instr.subb,
    Instr.and, Instr.or, Instr.xor] := by
  simp only [SourceReady]
  exact ⟨by decide, by simp⟩

/-- `r8` at the flags register. -/
def atFlags : State := regs [(8, 0xC000#16)] ready

theorem witness_FlagsDestinationStops :
    (SourceReady .stack ready ∧ SourceReady (.direct .word flagsAddr) (sourceAfter .stack ready) ∧
      operandAddress .readWrite (.direct .word flagsAddr) (sourceAfter .stack ready) = .ok flagsAddr) ∧
      SourceReady (.autoInc .word 0) atFlags ∧ operandAddress .readWrite (.autoInc .word 0) atFlags = .ok flagsAddr := by
  simp only [SourceReady]
  decide

/-- The clause of CMP and TEST, popped destination included. -/
theorem witness_FlagsDestinationStops_compare :
    (SourceReady (.imm 1#16) atFlags ∧ SourceReady (.autoInc .word 0) atFlags ∧
      operandAddress .read (.autoInc .word 0) atFlags = .ok flagsAddr) ∧
      SourceReady .stack (regs [(15, 0xC000#16)] ready) ∧
      operandAddress .read .stack (regs [(15, 0xC000#16)] ready) = .ok flagsAddr := by
  simp only [SourceReady]
  decide

theorem witness_DualModifyFrame :
    (∃ t, exec (.addc (.autoInc .word 0) (.index .word 1 0xFFFE#16)) ready = .next t) ∧
      operandAddress .readWrite (.index .word 1 0xFFFE#16) (sourceAfter (.autoInc .word 0) ready) = .ok 0x08FE#16 :=
  ⟨exists_next (by decide), by decide⟩

theorem witness_SingleModifyFrame :
    (∃ t, exec (.rol 7 (.autoInc .byte 6)) ready = .next t) ∧ operandAddress .readWrite (.autoInc .byte 6) ready = .ok 0x3FFF#16 :=
  ⟨exists_next (by decide), by decide⟩

theorem witness_CompareFrame : ∃ t, exec (.cmp (.autoInc .byte 6) .stack) ready = .next t := exists_next (by decide)

theorem witness_MovFrame :
    (∃ t, exec (.mov (.ind .byte 6) .stack) ready = .next t) ∧
      operandAddress .write .stack (sourceAfter (.ind .byte 6) ready) = .ok 0x0FFC#16 :=
  ⟨exists_next (by decide), by decide⟩

theorem witness_JumpReturnFrame :
    (∃ t, exec (.jc 0x40#7) ready = .next t) ∧ (∃ t, exec (.jcl (.autoInc .word 0)) ready = .next t) ∧ ∃ t, exec .ret ready = .next t :=
  ⟨exists_next (by decide), exists_next (by decide), exists_next (by decide)⟩

theorem witness_CallFrame :
    (∃ t, exec (.cc (.autoInc .word 0)) ready = .next t) ∧ (∃ t, exec (.int 127) ready = .next t) ∧
      operandAddress .write .stack ready = .ok 0x0FFC#16 :=
  ⟨exists_next (by decide), exists_next (by decide), by decide⟩

/-- A three-word instruction at `pc`, no interrupt pending. -/
def coded : State := code [0x09E7#16, 0x0400#16, 0x0402#16] base

theorem witness_StepRunsDecodedInstruction :
    recognise (latchRequests coded) = none ∧
      decodeWords [peek .word coded.pc coded, peek .word (coded.pc + 2#16) coded, peek .word (coded.pc + 4#16) coded] =
        .ok (.mov (.direct .word 0x0400#16) (.direct .word 0x0402#16), []) ∧
      ∀ k : Nat, k + ([] : List Word).length < 3 → Readable .word (coded.pc + BitVec.ofNat 16 (2 * k)) coded := by
  refine ⟨by decide, by decide, fun k hk => ?_⟩
  have : k = 0 ∨ k = 1 ∨ k = 2 := by simp at hk; omega
  rcases this with rfl | rfl | rfl <;> decide

theorem witness_ReservedWordStops :
    let s := code [0xDFFF#16] base
    recognise (latchRequests s) = none ∧ Readable .word s.pc s ∧
      decodeWords [peek .word s.pc s, 0#16, 0#16] = .error (.reserved .unassignedMiscellaneous) := by
  decide

theorem witness_RecognitionRule : recognise interrupted = some 5 := by decide

theorem witness_InterruptEntry :
    (recognise (latchRequests interrupted) = some 5 ∧ DstWritable .stack interrupted.pc interrupted ∧
      Readable .word 0x000A#16 interrupted ∧
      (peek .word 0x000A#16 (written .stack interrupted.pc ((latchRequests interrupted).clearPend 5))).toNat % 2 = 0) ∧
    (let s := words [(0x000A#16, 0x0701#16)] interrupted
     recognise (latchRequests s) = some 5 ∧ DstWritable .stack s.pc s ∧ Readable .word 0x000A#16 s ∧
      (peek .word 0x000A#16 (written .stack s.pc ((latchRequests s).clearPend 5))).toNat % 2 = 1) := by
  simp only [DstWritable]
  decide

theorem witness_InterruptEntryFrame :
    (∃ t, takeInterrupt 5 interrupted = .ok t) ∧ operandAddress .write .stack interrupted = .ok 0x0FFE#16 :=
  ⟨exists_ok (by decide), by decide⟩

theorem witness_RequestsAreKeptWhileDisabled :
    let s := { base with irqInputs := [0x800000000001#48] }
    s.flags.i = false ∧ ∃ t, step s = .next t :=
  ⟨rfl, exists_next (by decide)⟩

theorem witness_StiCliBoundary :
    (∃ t, exec .sti (flagged 0#16 interrupted) = .next t) ∧ (flagged 0#16 interrupted).pend.getLsbD (5 : Fin 48).val = true ∧
      irqEnabled (flagged 0#16 interrupted) 5 = true ∧ ∃ t, exec .cli interrupted = .next t :=
  ⟨exists_next (by decide), by decide, by decide, exists_next (by decide)⟩

theorem witness_RegisterCycleCounts :
    condHolds .c ready.flags = true ∧ condHolds .z ready.flags = false ∧ DstWritable .stack ready.pc ready ∧
      SourceReady (.autoInc .word 0) ready ∧ operandAddress .write .stack stackOnFlags = .ok 0xC000#16 ∧
      (Operand.stack ≠ .reg 15) := by
  simp only [SourceReady, DstWritable]
  decide

/-- A run that is finished, with `I` 0 and with no interrupt pending, and one that ends after a step. -/
theorem witness_FinishedRun :
    finished 0x0500#16 (code [0xCF7F#16] base) = true ∧ finished 0x0500#16 (code [0xCF7F#16] (flagged 0x10#16 base)) = true ∧
      (endState 0x0502#16 3 (code [0x0000#16, 0xCF7F#16] base)).isSome = true := by
  decide

/-- The default open parameters meet what R148 and R321 ask of MEMMAP and IRQ_VECTOR. -/
theorem test_defaultParams_minimal : paramsMinimal defaultParams := by
  refine ⟨fun a h => ?_, by decide, by decide, by decide, by decide, by decide, by decide⟩
  have h' : a.toNat ≤ 0x3FFF := by omega
  simp [kindAt, defaultParams, defaultMemMap, h']

end Sys2Proof.Tests
end

section
/-! SUPPORT. A register and the word of memory at its address: where the word lies, that what a ready register can access a word
access can, and that both read and leave the same bytes (10_state.md R112, R113). -/

namespace Sys2Proof.Machine

/-! The address of a register. -/

/-- The mask of R112 clears the low five bits. -/
theorem toNat_and_bankMask (b : Word) : (b &&& 0xFFE0#16).toNat = (b.toNat / 32) <<< 5 := by
  have mask_eq_shifts : b &&& 0xFFE0#16 = b >>> 5 <<< 5 := by
    ext j hj
    interval_cases j <;> simp
  have hb := b.isLt
  rw [mask_eq_shifts, BitVec.toNat_shiftLeft, BitVec.toNat_ushiftRight, Nat.shiftRight_eq_div_pow, Nat.shiftLeft_eq]
  omega

/-- The register number shifted left by one is twice it: sixteen registers take 32 bytes, so nothing is lost. -/
theorem toNat_regNum_shiftLeft (i : RegNum) : (BitVec.ofNat 16 i.val <<< 1).toNat = 2 * i.val := by
  have hi := i.isLt
  rw [BitVec.toNat_shiftLeft, BitVec.toNat_ofNat, Nat.shiftLeft_eq]
  omega

/-- R112's formula as arithmetic: the base's low five bits are clear and the offset is below 32, so OR-ing them is adding. -/
theorem regAddr_toNat (i : RegNum) (s : State) : (regAddr i s).toNat = s.regbank.toNat / 32 * 32 + 2 * i.val := by
  have offset_lt : 2 * i.val < 2 ^ 5 := by have := i.isLt; omega
  rw [regAddr, BitVec.toNat_or, toNat_and_bankMask, toNat_regNum_shiftLeft, ← Nat.shiftLeft_add_eq_or_of_lt offset_lt,
    Nat.shiftLeft_eq]

/-- A register's address is even, whatever REGBANK holds. -/
theorem regAddr_getLsbD_zero (i : RegNum) (s : State) : (regAddr i s).getLsbD 0 = false := by
  have := regAddr_toNat i s
  rw [BitVec.getLsbD, Nat.testBit_zero, decide_eq_false_iff_not]
  omega

/-! Words that are no control register. -/

theorem isControlWord_eq_false_iff {a : Word} :
    isControlWord a = false ↔ a ≠ flagsAddr ∧ a ≠ regbankAddr ∧ a ≠ intEnableAddr := by
  simp [isControlWord, and_assoc]

/-- Away from the control registers a word read delivers the two bytes of memory (20_memory.md R142). -/
theorem peek_word_of_not_control {a : Word} (h : isControlWord a = false) (s : State) :
    peek .word a s = wordOfBytes (byteAt s a) (byteAt s (a + 1)) := by
  obtain ⟨h1, h2, h3⟩ := isControlWord_eq_false_iff.mp h
  simp only [peek, if_neg h1, if_neg h2, if_neg h3]

/-- Away from the control registers a word write leaves the two bytes in memory (R142). -/
theorem poke_word_of_not_control {a : Word} (h : isControlWord a = false) (v : Word) (s : State) :
    poke .word a v s = (s.putByte a (lowByte v)).putByte (a + 1) (highByte v) := by
  obtain ⟨h1, h2, h3⟩ := isControlWord_eq_false_iff.mp h
  simp only [poke, if_neg h1, if_neg h2, if_neg h3]

/-- An aligned word away from the control registers can be written where both its bytes can (R143, R144). -/
theorem writable_word_iff_of_not_control {a : Word} (hev : a.getLsbD 0 = false) (h : isControlWord a = false) (s : State) :
    Writable .word a s ↔ byteWriteFault s a = none ∧ byteWriteFault s (a + 1) = none := by
  simp only [Writable, writeFault, hev, h, Bool.false_eq_true, if_false, Option.or_eq_none_iff]

/-- The bytes a store may change are those MEMMAP calls read-write memory (R148). -/
theorem byteWriteFault_eq_none_iff {s : State} {a : Word} : byteWriteFault s a = none ↔ isReadWrite s a = true := by
  cases h : kindAt s.params.memMap a <;> simp [byteWriteFault, isReadWrite, h]

/-! A ready register. -/

/-- A register is ready exactly where its word is no control register and both its bytes are read-write memory
(93_implementation_defined.md U14; log 11). -/
theorem regReady_iff {i : RegNum} {s : State} :
    RegReady i s ↔ isControlWord (regAddr i s) = false ∧ isReadWrite s (regAddr i s) = true ∧
      isReadWrite s (regAddr i s + 1) = true := by
  simp [RegReady, regFault, and_assoc]

/-- The word of a ready register can be written. -/
theorem RegReady.writable {i : RegNum} {s : State} (h : RegReady i s) : Writable .word (regAddr i s) s := by
  obtain ⟨hc, hlo, hhi⟩ := regReady_iff.mp h
  exact (writable_word_iff_of_not_control (regAddr_getLsbD_zero i s) hc s).mpr
    ⟨byteWriteFault_eq_none_iff.mpr hlo, byteWriteFault_eq_none_iff.mpr hhi⟩

/-- Reading a ready register is reading its word of memory. -/
theorem RegReady.readReg_eq_load {i : RegNum} {s : State} (h : RegReady i s) :
    readReg i s = load .word (regAddr i s) s := by
  have hload : load .word (regAddr i s) s = .ok (peekReg i s) :=
    load_eq_ok.mpr ⟨readable_of_writable h.writable, peek_word_of_not_control h.not_control s⟩
  rw [hload]
  exact readReg_eq_ok.mpr ⟨h, rfl⟩

/-- Writing a ready register is writing its word of memory. -/
theorem RegReady.writeReg_eq_store {i : RegNum} {s : State} (h : RegReady i s) (v : Word) :
    writeReg i v s = store .word (regAddr i s) v s := by
  have hstore : store .word (regAddr i s) v s = .ok (pokeReg i v s) :=
    store_eq_ok.mpr ⟨h.writable, poke_word_of_not_control h.not_control v s⟩
  rw [hstore]
  exact writeReg_eq_ok.mpr ⟨h, rfl⟩

/-- Settles O16: the address by R112's formula as arithmetic, the accesses by the two equations for a ready register. -/
theorem registerIsItsMemoryWord : Obligations.RegisterIsItsMemoryWord :=
  fun i s => ⟨regAddr_toNat i s, fun h => ⟨h.readReg_eq_load, h.writeReg_eq_store⟩⟩

end Sys2Proof.Machine
end

section
/-! SUPPORT. The stack (40_operands.md R214): what a push leaves at the new top and in `r15`, that a pop takes it back, and so
that RET undoes CALL (42_program_control.md R253, R254). -/

namespace Sys2Proof.Machine

/-! A store, read back and seen from the other bytes. -/

/-- Away from the control registers a word that is stored is read back (20_memory.md R142). -/
theorem peek_poke_word_self {a : Word} (hc : isControlWord a = false) (v : Word) (s : State) (hwf : s.mem.wf) :
    peek .word a (poke .word a v s) = v := by
  have lo : byteAt (poke .word a v s) a = lowByte v := by
    rw [poke_word_of_not_control hc, byteAt_putByte_of_ne _ _ (add_one_ne_self a).symm, byteAt_putByte_self _ _ _ hwf]
  have hi : byteAt (poke .word a v s) (a + 1) = highByte v := by
    rw [poke_word_of_not_control hc, byteAt_putByte_self _ _ _ (putByte_wf _ _ _ hwf)]
  rw [peek_word_of_not_control hc, lo, hi, wordOfBytes_low_high]

/-- A store that neither moves the bank nor shares a byte with a register leaves the register alone. -/
theorem peekReg_poke_of_disjoint {i : RegNum} {w : Width} {a : Word} (v : Word) {s : State} (hb : a ≠ regbankAddr)
    (h : ∀ b ∈ accessBytes w a, b ∉ regBytes i s) : peekReg i (poke w a v s) = peekReg i s := by
  have bytes_kept : ∀ b ∈ regBytes i s, byteAt (poke w a v s) b = byteAt s b := fun b hreg =>
    byteAt_poke_of_ne w a v s (fun e => h b (by cases w <;> simp [accessBytes, e]) hreg)
      (fun hw e => h b (by simp [accessBytes, hw, e]) hreg)
  rw [peekReg, regAddr_congr i (poke_regbank_of_ne w a v s hb), bytes_kept _ (by simp [regBytes, accessBytes]),
    bytes_kept _ (by simp [regBytes, accessBytes]), peekReg]

/-! `pc` plays no part in an operand. -/

@[simp] theorem peek_setPc (w : Width) (a : Word) (s : State) (v : Word) : peek w a (s.setPc v) = peek w a s := by
  cases w <;> rfl

@[simp] theorem sourceValue_setPc (op : Operand) (s : State) (v : Word) :
    sourceValue op (s.setPc v) = sourceValue op s := by
  cases op <;> simp [sourceValue]

@[simp] theorem sourceReady_setPc (op : Operand) (s : State) (v : Word) :
    SourceReady op (s.setPc v) ↔ SourceReady op s := by
  cases op <;> simp [SourceReady, RegReady, Readable]

/-! A taken call and a taken return. -/

/-- A taken call: the push, then the operand, then the transfer (42_program_control.md R254). -/
theorem callOn_eq_ok {cnd : Cond} {op : Operand} {s t : State} (hcnd : condHolds cnd s.flags = true) :
    callOn cnd op s = .ok t ↔ namesStackPointer op = false ∧ DstWritable .stack s.pc s ∧
      SourceReady op (written .stack s.pc s) ∧ (sourceValue op (written .stack s.pc s)).getLsbD 0 = false ∧
      (sourceAfter op (written .stack s.pc s)).setPc (sourceValue op (written .stack s.pc s)) = t := by
  cases hop : namesStackPointer op with
  | true => simp [callOn, hcnd, hop]
  | false =>
    simp only [callOn, hcnd, hop, if_true, Bool.false_eq_true, if_false, bind_eq_ok, push_eq_ok, true_and]
    constructor
    · rintro ⟨_, ⟨hpush, rfl⟩, ⟨v, u⟩, hread, hjump⟩
      obtain ⟨hready, rfl, rfl⟩ := readOperand_eq_ok.mp hread
      exact ⟨hpush, hready, jumpTo_eq_ok.mp hjump⟩
    · rintro ⟨hpush, hready, hjump⟩
      exact ⟨_, ⟨hpush, rfl⟩, _, readOperand_eq_ok.mpr ⟨hready, rfl, rfl⟩, jumpTo_eq_ok.mpr hjump⟩

/-- CALL is the call whose condition always holds (R254). -/
theorem exec_call_eq_next {op : Operand} {s t : State} :
    exec (.call op) s = .next t ↔ callOn .always op s = .ok t := toOutcome_eq_next

/-- RET is the return whose condition always holds (R253). -/
theorem exec_ret_eq_next {s t : State} : exec .ret s = .next t ↔ returnFromStack s = .ok t := toOutcome_eq_next

/-! What a push leaves where the stack word is plain memory and no part of `r15`. -/

section Pushed

variable {s : State} (hc : isControlWord (stackPointer s - 2#16) = false)
include hc

/-- A push to plain memory leaves the flags and the bank alone. -/
theorem written_stack_flags (v : Word) : (written .stack v s).flags = s.flags :=
  poke_flags_of_ne _ _ _ _ (isControlWord_eq_false_iff.mp hc).1

theorem written_stack_regbank (v : Word) : (written .stack v s).regbank = s.regbank :=
  poke_regbank_of_ne _ _ _ _ (isControlWord_eq_false_iff.mp hc).2.1

/-- The word at the new top of the stack is the one pushed. -/
theorem peek_written_stack (v : Word) (hwf : s.mem.wf) :
    peek .word (stackPointer s - 2#16) (written .stack v s) = v :=
  peek_poke_word_self hc v _ (pokeReg_wf _ _ _ hwf)

/-- `r15` is 2 lower: the pushed word does not overwrite it. -/
theorem stackPointer_written_stack (v : Word) (hwf : s.mem.wf)
    (hd : ∀ b ∈ accessBytes .word (stackPointer s - 2#16), b ∉ regBytes spReg s) :
    stackPointer (written .stack v s) = stackPointer s - 2#16 := by
  obtain ⟨-, hbank, -⟩ := isControlWord_eq_false_iff.mp hc
  calc stackPointer (written .stack v s)
      = stackPointer (pokeReg spReg (stackPointer s - 2#16) s) := peekReg_poke_of_disjoint v hbank hd
    _ = stackPointer s - 2#16 := peekReg_pokeReg_self _ _ _ hwf

/-- What was pushed can be popped. -/
theorem sourceReady_written_stack {v : Word} (hwf : s.mem.wf)
    (hd : ∀ b ∈ accessBytes .word (stackPointer s - 2#16), b ∉ regBytes spReg s) (hpush : DstWritable .stack v s) :
    SourceReady .stack (written .stack v s) := by
  obtain ⟨hreg, hwrite⟩ := hpush
  refine ⟨(regFault_congr spReg (written_stack_regbank hc v) (written_params ..)).trans hreg, ?_⟩
  rw [stackPointer_written_stack hc v hwf hd]
  exact (readFault_congr .word _ (written_params ..)).trans (readable_of_writable hwrite)

end Pushed

/-- Settles O42: push and pop by their closed forms; after CALL the state is the pushed one with another `pc`, from which RET
pops the old `pc`, even by the invariant. -/
theorem pushPopCallReturn : Obligations.PushPopCallReturn := by
  refine ⟨fun v s h => push_eq_ok.mpr ⟨h, rfl⟩, fun s h => pop_eq_ok.mpr ⟨h, rfl, rfl⟩, ?_⟩
  intro s u target ⟨hwf, heven⟩ hcall hc hd
  obtain ⟨-, hpush, -, -, rfl⟩ := (callOn_eq_ok rfl).mp (exec_call_eq_next.mp hcall)
  simp only [sourceAfter, sourceValue]
  have hsp : stackPointer ((written .stack s.pc s).setPc target) = stackPointer s - 2#16 :=
    stackPointer_written_stack hc s.pc hwf hd
  have hready : SourceReady .stack ((written .stack s.pc s).setPc target) :=
    (sourceReady_setPc ..).mpr (sourceReady_written_stack hc hwf hd hpush)
  have hvalue : sourceValue .stack ((written .stack s.pc s).setPc target) = s.pc := by
    rw [sourceValue, hsp, peek_setPc, peek_written_stack hc s.pc hwf]
  have hret := exec_ret_eq_next.mpr (returnFromStack_eq_ok.mpr ⟨hready, by rwa [hvalue], rfl⟩)
  refine ⟨load_eq_ok.mpr ⟨hready.2, hvalue⟩, hsp, _, hret, hvalue, ?_, written_stack_flags hc s.pc⟩
  calc stackPointer (pokeReg spReg _ _)
      = stackPointer ((written .stack s.pc s).setPc target) + 2#16 :=
        peekReg_pokeReg_self _ _ _ (written_wf .stack s.pc s hwf)
    _ = stackPointer s := by rw [hsp, BitVec.sub_add_cancel]

end Sys2Proof.Machine
end

section
/-! SUPPORT. Format D (30_encoding.md R172): the fields of its word, and its decoding from the opcode's row of the opcode map. -/

namespace Sys2Proof

theorem opcodeField_dualWord (op : BitVec 4) (f g : BitVec 6) : opcodeField (op ++ f ++ g) = op := by
  apply BitVec.eq_of_toNat_eq
  rw [opcodeField_toNat, dualWord_toNat]
  omega

theorem srcField_dualWord (op : BitVec 4) (f g : BitVec 6) : srcField (op ++ f ++ g) = f := by
  apply BitVec.eq_of_toNat_eq
  rw [srcField_toNat, dualWord_toNat]
  omega

theorem dstField_dualWord (op : BitVec 4) (f g : BitVec 6) : dstField (op ++ f ++ g) = g := by
  apply BitVec.eq_of_toNat_eq
  rw [dstField_toNat, dualWord_toNat]
  omega

/-- Format D's word decodes to its two operands, taken in order from the words that follow (R170, R172). -/
theorem decodeDual_dualWord (mk : Operand → Operand → Instr) (op : BitVec 4) {f g : BitVec 6} {src dst : Operand}
    {ws ws' rest : List Word} (hg : g ≠ immediateField) (hsrc : takeOperand f ws = .ok (src, ws'))
    (hdst : takeOperand g ws' = .ok (dst, rest)) : decodeDual mk (op ++ f ++ g) ws = .ok (mk src dst, rest) := by
  rw [decodeDual, srcField_dualWord, dstField_dualWord, if_neg hg]
  exact Machine.bind_eq_ok.mpr ⟨_, hsrc, Machine.bind_eq_ok.mpr ⟨_, hdst, rfl⟩⟩

/-- An opcode that the opcode map (R188) sends to format D encodes that format's instruction. -/
theorem dualEncoding_of_opcode {op : BitVec 4} {mk : Operand → Operand → Instr}
    (h : ∀ w ws, opcodeField w = op → decodeWords (w :: ws) = decodeDual mk w ws) : Machine.DualEncoding op mk :=
  fun f g _ _ ws _ _ hg hsrc hdst =>
    (h _ ws (opcodeField_dualWord op f g)).trans (decodeDual_dualWord mk op hg hsrc hdst)

end Sys2Proof
end

section
/-! SUPPORT. The dual operand instructions (41_dual_operand.md R233 to R243): the next state of each shape where its operands can
be accessed, the flags of the logic law, and clocks between registers. -/

namespace Sys2Proof.Machine

/-! The shapes: the source is read first, with its side effect, then the destination is accessed (40_operands.md R212). -/

/-- Between registers there is no mode adder and no wait (70_reset_and_hazards.md R360, R361). -/
theorem dualCost_reg_reg (acc : Access) (a b : RegNum) (s : State) : dualCost acc (.reg a) (.reg b) s = 5 := rfl

/-- MOV: it goes through exactly where both operands do. -/
theorem exec_mov_eq_next {src dst : Operand} {s t : State} :
    exec (.mov src dst) s = .next t ↔ SourceReady src s ∧ DstWritable dst (sourceValue src s) (sourceAfter src s) ∧
      written dst (sourceValue src s) (sourceAfter src s) = t := by
  refine toOutcome_eq_next.trans (bind_eq_ok.trans ?_)
  constructor
  · rintro ⟨⟨_, _⟩, hread, hwrite⟩
    obtain ⟨hsrc, rfl, rfl⟩ := readOperand_eq_ok.mp hread
    exact ⟨hsrc, writeDst_eq_ok.mp hwrite⟩
  · rintro ⟨hsrc, hwrite⟩
    exact ⟨_, readOperand_eq_ok.mpr ⟨hsrc, rfl, rfl⟩, writeDst_eq_ok.mpr hwrite⟩

section Shapes

variable {f : Word → AluOp} {src dst : Operand} {s : State} {r : Word} {fl : Flags} (hsrc : SourceReady src s)
  (hf : f (sourceValue src s) s.flags (sourceValue dst (sourceAfter src s)) = (r, fl))
include hsrc hf

/-- An instruction that modifies its destination: the result is written and the flags are those computed. -/
theorem toOutcome_dualModify (hdst : DstModifiable dst r (sourceAfter src s)) :
    toOutcome (dualModify f src dst s) = .next (written dst r ((sourceAfter src s).setFlags fl)) := by
  rw [toOutcome_eq_next, dualModify_eq_ok, modifyDst_eq_ok, sourceAfter_flags, hf]
  exact ⟨hsrc, hdst, rfl⟩

/-- An instruction that only compares: no write, the destination's side effect and the flags computed. -/
theorem toOutcome_dualCompare (hdst : DstComparable dst (sourceAfter src s)) :
    toOutcome (dualCompare f src dst s) = .next ((sourceAfter dst (sourceAfter src s)).setFlags fl) := by
  rw [toOutcome_eq_next, dualCompare_eq_ok, compareDst_eq_ok, sourceAfter_flags, hf]
  exact ⟨hsrc, hdst, rfl⟩

end Shapes

/-- `Z` and `S` as the spec words them: the result is zero, and its bit 15 (10_state.md R118, R121). -/
theorem setZS_eq (f : Flags) (r : Word) : f.setZS r = { f with z := decide (r = 0#16), s := r.getLsbD 15 } := by
  simp [Flags.setZS, BitVec.msb_eq_getLsbD_last, beq_eq_decide]

/-- The logic law, with its flags as the spec words them (41_dual_operand.md R232). -/
theorem logicLaw_eq (r : Word) (f : Flags) :
    logicLaw r f = (r, { f with z := decide (r = 0#16), s := r.getLsbD 15 }) := by
  rw [logicLaw, setZS_eq]

/-- Settles O27: the encoding by the opcode map, the next state by the closed form of MOV. -/
theorem movResult : Obligations.MovResult := by
  refine ⟨dualEncoding_of_opcode fun w ws h => ?_, fun a b s => dualCost_reg_reg .write a b s, ?_⟩
  · simp [decodeWords, h]
  · intro src dst s hsrc hdst
    exact exec_mov_eq_next.mpr ⟨hsrc, hdst, rfl⟩

/-- The opcodes of AND, TEST, OR and XOR in the opcode map (R239 to R242; 30_encoding.md R188). -/
theorem dualEncoding_logic : DualEncoding 0b0110#4 .and ∧ DualEncoding 0b0111#4 .test ∧ DualEncoding 0b1000#4 .or ∧
    DualEncoding 0b1001#4 .xor := by
  refine ⟨?and, ?test, ?or, ?xor⟩
  all_goals exact dualEncoding_of_opcode fun w ws h => by simp [decodeWords, h]

/-- Settles O31: AND, OR and XOR modify and TEST compares, each with the flags of the logic law. -/
theorem andTestOrXorResult : Obligations.AndTestOrXorResult := by
  refine ⟨dualEncoding_logic, ?clocks, ?results⟩
  case clocks =>
    intro mk hmk a b s
    simp only [List.mem_cons, List.not_mem_nil, or_false] at hmk
    obtain rfl | rfl | rfl | rfl := hmk
    all_goals exact dualCost_reg_reg _ a b s
  case results =>
    intro src dst s hsrc
    exact ⟨toOutcome_dualModify hsrc (logicLaw_eq ..), toOutcome_dualCompare hsrc (logicLaw_eq ..),
      toOutcome_dualModify hsrc (logicLaw_eq ..), toOutcome_dualModify hsrc (logicLaw_eq ..)⟩

end Sys2Proof.Machine
end

section
/-! SUPPORT. INT (42_program_control.md R255): the decoding of format V, where the vector's table entry lies, and the call through
it, even and odd. -/

namespace Sys2Proof

/-! Format V (30_encoding.md R176): a vector in the low seven bits. -/

theorem opcodeField_vectorWord (v : BitVec 7) : opcodeField (0b101011110#9 ++ v) = 0b1010#4 := by
  apply BitVec.eq_of_toNat_eq
  rw [opcodeField_toNat, append_toNat]
  simp
  omega

theorem condField_vectorWord (v : BitVec 7) : condField (0b101011110#9 ++ v) = 0b1111#4 := by
  apply BitVec.eq_of_toNat_eq
  rw [condField_toNat, append_toNat]
  simp
  omega

theorem lowField_vectorWord (v : BitVec 7) : lowField (0b101011110#9 ++ v) = v := by
  apply BitVec.eq_of_toNat_eq
  rw [lowField_toNat, append_toNat]
  omega

theorem bitSeven_vectorWord (v : BitVec 7) : (0b101011110#9 ++ v : BitVec 16).getLsbD 7 = false := by
  rw [bitSeven_eq, append_toNat, decide_eq_false_iff_not]
  simp
  omega

/-- Format V's word is opcode 1010 with bit 7 clear and all ones as its condition, so it decodes to the INT of its low field
(R188). -/
theorem decodeWords_vectorWord (v : BitVec 7) (ws : List Word) :
    decodeWords ((0b101011110#9 ++ v) :: ws) = .ok (.int v.toFin, ws) :=
  calc decodeWords ((0b101011110#9 ++ v) :: ws)
      = decodeCall (0b101011110#9 ++ v) ws := by simp [decodeWords, opcodeField_vectorWord]
    _ = .ok (.int v.toFin, ws) := by
      rw [decodeCall, bitSeven_vectorWord, condField_vectorWord, lowField_vectorWord]
      rfl

end Sys2Proof

namespace Sys2Proof.Machine

/-- The entry of vector `v` as the spec words its address (30_encoding.md R184). -/
theorem vectorAddr_eq (v : Fin 128) : vectorAddr v = BitVec.ofNat 16 (2 * v.val) := by
  rw [vectorAddr, ← BitVec.ofNat_mul, Nat.mul_comm]

/-! A control transfer, by the parity of its target (42_program_control.md R257). -/

theorem jumpTo_of_even {t : Word} (h : t.toNat % 2 = 0) (s : State) : jumpTo t s = .ok (s.setPc t) := by
  refine jumpTo_eq_ok.mpr ⟨?_, rfl⟩
  simp [BitVec.getLsbD, h]

theorem jumpTo_of_odd {t : Word} (h : t.toNat % 2 = 1) (s : State) : jumpTo t s = .error (.oddTarget t) := by
  have hbit : t.getLsbD 0 = true := by simp [BitVec.getLsbD, h]
  rw [jumpTo, if_pos hbit]

/-- What a write leaves can be read where it could be read before, though the write may have changed the word there. -/
theorem load_written {w : Width} {a : Word} {s : State} (h : Readable w a s) (op : Operand) (x : Word) :
    load w a (written op x s) = .ok (peek w a (written op x s)) :=
  load_eq_ok.mpr ⟨(readFault_congr w a (written_params op x s)).trans h, rfl⟩

section CallVector

variable {v : Fin 128} {s : State} {t : Word} (hpush : DstWritable .stack s.pc s)
  (hentry : load .word (vectorAddr v) (written .stack s.pc s) = .ok t)
include hpush hentry

/-- Past the push and the table entry, a call through the vector table is the transfer to that entry. -/
theorem callVector_eq_jumpTo : callVector v s = jumpTo t (written .stack s.pc s) := by
  rw [callVector, push_eq_ok.mpr ⟨hpush, rfl⟩]
  exact congrArg (· >>= fun t => jumpTo t (written .stack s.pc s)) hentry

/-- INT through an even entry. -/
theorem exec_int_of_even (heven : t.toNat % 2 = 0) : exec (.int v) s = .next ((written .stack s.pc s).setPc t) :=
  toOutcome_eq_next.mpr ((callVector_eq_jumpTo hpush hentry).trans (jumpTo_of_even heven _))

/-- INT through an odd entry (R257). -/
theorem exec_int_of_odd (hodd : t.toNat % 2 = 1) : exec (.int v) s = .fault (.oddTarget t) :=
  toOutcome_eq_fault.mpr ((callVector_eq_jumpTo hpush hentry).trans (jumpTo_of_odd hodd _))

end CallVector

/-- Settles O40: the encoding by format V, the two outcomes by the parity of the table entry. -/
theorem intResult : Obligations.IntResult := by
  constructor
  case left =>
    intro v ws
    rw [decodeWords_vectorWord, BitVec.toFin_ofNat, Fin.ofNat_val_eq_self]
  case right =>
    intro v s
    rw [← vectorAddr_eq]
    refine ⟨rfl, fun hpush hready => ?_⟩
    have hentry := load_written hready .stack s.pc
    exact ⟨exec_int_of_even hpush hentry, exec_int_of_odd hpush hentry⟩

end Sys2Proof.Machine
end

section
/-! SUPPORT. Format S (30_encoding.md R177, R185): the fields of its word, and its decoding from the sub-opcode's row of the
opcode map. -/

namespace Sys2Proof

section CountWord

variable (op p : BitVec 3) (f : BitVec 6)

theorem opcodeField_countWord : opcodeField (0b1101#4 ++ op ++ p ++ f) = 0b1101#4 := by
  apply BitVec.eq_of_toNat_eq
  rw [opcodeField_toNat, countWord_toNat]
  simp
  omega

theorem subField_countWord : subField (0b1101#4 ++ op ++ p ++ f) = op := by
  apply BitVec.eq_of_toNat_eq
  rw [subField_toNat, countWord_toNat]
  omega

theorem paramField_countWord : paramField (0b1101#4 ++ op ++ p ++ f) = p := by
  apply BitVec.eq_of_toNat_eq
  rw [paramField_toNat, countWord_toNat]
  omega

theorem dstField_countWord : dstField (0b1101#4 ++ op ++ p ++ f) = f := by
  apply BitVec.eq_of_toNat_eq
  rw [dstField_toNat, countWord_toNat]
  omega

end CountWord

/-- A word whose low field is `f` decodes to the instruction of that field's operand, taken from the words that follow (R170). -/
theorem decodeSingle_of_dstField {mk : Operand → Instr} {w : Word} {f : BitVec 6} {dst : Operand} {ws rest : List Word}
    (hw : dstField w = f) (hf : f ≠ immediateField) (hdst : takeOperand f ws = .ok (dst, rest)) :
    decodeSingle mk w ws = .ok (mk dst, rest) := by
  rw [decodeSingle, hw, if_neg hf]
  exact Machine.bind_eq_ok.mpr ⟨_, hdst, rfl⟩

/-- A sub-opcode that the opcode map (R188) gives a count encodes format S with that count. -/
theorem countEncoding_of_subOpcode {op : BitVec 3} {mk : Fin 8 → Operand → Instr}
    (h : ∀ w ws, subField w = op → decodeSingles w ws = decodeSingle (mk (paramField w).toFin) w ws) :
    Machine.CountEncoding op mk := by
  intro n f dst ws rest hf hdst
  calc decodeWords ((0b1101#4 ++ op ++ BitVec.ofNat 3 n.val ++ f) :: ws)
      = decodeSingles (0b1101#4 ++ op ++ BitVec.ofNat 3 n.val ++ f) ws := by simp [decodeWords, opcodeField_countWord]
    _ = decodeSingle (mk n) (0b1101#4 ++ op ++ BitVec.ofNat 3 n.val ++ f) ws := by
      rw [h _ ws (subField_countWord ..), paramField_countWord, BitVec.toFin_ofNat, Fin.ofNat_val_eq_self]
    _ = .ok (mk n dst, rest) := decodeSingle_of_dstField (dstField_countWord ..) hf hdst

end Sys2Proof
end

section
/-! SUPPORT. The single operand instructions (43_single_operand.md R270 to R279): the next state where the destination can be
read and written, and the results of SHR, SHL, ADDI and SUBI as arithmetic. -/

namespace Sys2Proof.Machine

/-- An instruction that reads and writes its destination: the result is written and the flags are those computed (R212, R213). -/
theorem toOutcome_modifyDst {f : AluOp} {dst : Operand} {s : State} {r : Word} {fl : Flags}
    (hf : f s.flags (sourceValue dst s) = (r, fl)) (hdst : DstModifiable dst r s) :
    toOutcome (modifyDst f dst s) = .next (written dst r (s.setFlags fl)) := by
  rw [toOutcome_eq_next, modifyDst_eq_ok, hf]
  exact ⟨hdst, rfl⟩

/-- The shift law, with its flags as the spec words them (R271 to R274). -/
theorem shiftLaw_eq (r : Word) (last : Bool) (f : Flags) :
    shiftLaw r last f = (r, { f with z := decide (r = 0#16), c := last, s := r.getLsbD 15 }) := by
  rw [shiftLaw, setZS_eq]

/-- SHR divides the signed value rounding down; `C` is the last bit moved out (R271). -/
theorem shiftRight_eq (k : Nat) (d : Word) (f : Flags) :
    let r := BitVec.ofInt 16 (d.toInt / 2 ^ k)
    shiftRight k d f =
      (r, { f with z := decide (r = 0#16), c := decide (d.toNat / 2 ^ (k - 1) % 2 = 1), s := r.getLsbD 15 }) := by
  have hr : d.sshiftRight k = BitVec.ofInt 16 (d.toInt / 2 ^ k) := by
    rw [BitVec.sshiftRight, Int.shiftRight_eq_div_pow]
    norm_cast
  rw [shiftRight, hr, BitVec.getLsbD, Nat.testBit_eq_decide_div_mod_eq, shiftLaw_eq]

/-- SHL multiplies modulo 2^16; `C` is the last bit moved out (R272). -/
theorem shiftLeft_eq (k : Nat) (d : Word) (f : Flags) :
    let r := BitVec.ofNat 16 (d.toNat * 2 ^ k)
    shiftLeft k d f =
      (r, { f with z := decide (r = 0#16), c := decide (d.toNat / 2 ^ (16 - k) % 2 = 1), s := r.getLsbD 15 }) := by
  have hr : d <<< k = BitVec.ofNat 16 (d.toNat * 2 ^ k) := by
    apply BitVec.eq_of_toNat_eq
    rw [BitVec.toNat_shiftLeft, Nat.shiftLeft_eq, BitVec.toNat_ofNat]
  rw [shiftLeft, hr, BitVec.getLsbD, Nat.testBit_eq_decide_div_mod_eq, shiftLaw_eq]

/-- ADDI's sum, the count being unsigned, with the flags of the logic law (R275). -/
theorem logicLaw_add_ofNat (k : Nat) (d : Word) (f : Flags) :
    let r := BitVec.ofNat 16 (d.toNat + k)
    logicLaw (d + BitVec.ofNat 16 k) f = (r, { f with z := decide (r = 0#16), s := r.getLsbD 15 }) := by
  have hr : d + BitVec.ofNat 16 k = BitVec.ofNat 16 (d.toNat + k) := by
    rw [BitVec.ofNat_add, BitVec.ofNat_toNat, BitVec.setWidth_eq]
  rw [hr, logicLaw_eq]

/-- SUBI's difference, the count being unsigned, with the flags of the logic law (R276). -/
theorem logicLaw_sub_ofNat (k : Nat) (d : Word) (f : Flags) :
    let r := BitVec.ofInt 16 ((d.toNat : Int) - k)
    logicLaw (d - BitVec.ofNat 16 k) f = (r, { f with z := decide (r = 0#16), s := r.getLsbD 15 }) := by
  have hr : d - BitVec.ofNat 16 k = BitVec.ofInt 16 ((d.toNat : Int) - k) :=
    calc d - BitVec.ofNat 16 k
        = d + -BitVec.ofNat 16 k := BitVec.sub_eq_add_neg ..
      _ = BitVec.ofInt 16 d.toNat + BitVec.ofInt 16 (-k) := by
        rw [BitVec.neg_ofNat_eq_ofInt_neg, BitVec.ofInt_natCast, BitVec.ofNat_toNat, BitVec.setWidth_eq]
      _ = BitVec.ofInt 16 ((d.toNat : Int) - k) := (BitVec.ofInt_add _ _).symm
  rw [hr, logicLaw_eq]

/-- Settles O32: the encodings by the opcode map, each next state by the law of its shift. -/
theorem shrShlResult : Obligations.ShrShlResult := by
  refine ⟨⟨?shr, ?shl⟩, fun n dst s => ?results⟩
  case results =>
    exact ⟨toOutcome_modifyDst (shiftRight_eq (countOf n) _ _), toOutcome_modifyDst (shiftLeft_eq (countOf n) _ _)⟩
  all_goals exact countEncoding_of_subOpcode fun w ws h => by simp [decodeSingles, h]

/-- Settles O34: the encodings by the opcode map; both instructions have the flags of the logic law. -/
theorem addiSubiResult : Obligations.AddiSubiResult := by
  refine ⟨⟨?addi, ?subi⟩, fun n dst s => ?results⟩
  case results =>
    exact ⟨toOutcome_modifyDst (logicLaw_add_ofNat (countOf n) _ _),
      toOutcome_modifyDst (logicLaw_sub_ofNat (countOf n) _ _)⟩
  all_goals exact countEncoding_of_subOpcode fun w ws h => by simp [decodeSingles, h]

end Sys2Proof.Machine
end

section
/-! SUPPORT. STI, CLI, STC and CLC (44_miscellaneous.md R290 to R293): the decoding of format M, the next states and the
clocks. -/

namespace Sys2Proof

/-- Format M (30_encoding.md R177): sub-opcode and parameter are all ones, so the word is the instruction that its low field names
(R188). -/
theorem decodeWords_miscWord {f : BitVec 6} {i : Instr} {ws : List Word}
    (h : ∀ w, paramField w = 0b111#3 → dstField w = f → decodeUnary w ws = .ok (i, ws)) :
    decodeWords ((0b1101#4 ++ 0b111#3 ++ 0b111#3 ++ f) :: ws) = .ok (i, ws) :=
  calc decodeWords ((0b1101#4 ++ 0b111#3 ++ 0b111#3 ++ f) :: ws)
      = decodeSingles (0b1101#4 ++ 0b111#3 ++ 0b111#3 ++ f) ws := by simp only [decodeWords, opcodeField_countWord] <;> rfl
    _ = decodeUnary (0b1101#4 ++ 0b111#3 ++ 0b111#3 ++ f) ws := by simp only [decodeSingles, subField_countWord] <;> rfl
    _ = .ok (i, ws) := h _ (paramField_countWord ..) (dstField_countWord ..)

/-- The four assigned words of format M (R290 to R293). -/
theorem decodeWords_flagInstructions (ws : List Word) :
    decodeWords (0xDFC0#16 :: ws) = .ok (.sti, ws) ∧ decodeWords (0xDFC1#16 :: ws) = .ok (.cli, ws) ∧
      decodeWords (0xDFC2#16 :: ws) = .ok (.stc, ws) ∧ decodeWords (0xDFC3#16 :: ws) = .ok (.clc, ws) := by
  refine ⟨decodeWords_miscWord (f := 0#6) ?sti, decodeWords_miscWord (f := 1#6) ?cli, decodeWords_miscWord (f := 2#6) ?stc,
    decodeWords_miscWord (f := 3#6) ?clc⟩
  all_goals
    intro w hparam hdst
    simp [decodeUnary, hparam, hdst]

end Sys2Proof

namespace Sys2Proof.Machine

/-! Each completes from every state, with one flag given and the state otherwise as it was. -/

theorem exec_sti (s : State) : exec .sti s = .next (s.setFlags { s.flags with i := true }) := rfl
theorem exec_cli (s : State) : exec .cli s = .next (s.setFlags { s.flags with i := false }) := rfl
theorem exec_stc (s : State) : exec .stc s = .next (s.setFlags { s.flags with c := true }) := rfl
theorem exec_clc (s : State) : exec .clc s = .next (s.setFlags { s.flags with c := false }) := rfl

/-- Format M has no operand, so neither mode adder nor wait (70_reset_and_hazards.md R360, R361, R363). -/
theorem cycles_flagInstruction {i : Instr} (hi : i ∈ [Instr.sti, .cli, .stc, .clc]) (s : State) : cycles i s = 3 := by
  simp only [List.mem_cons, List.not_mem_nil, or_false] at hi
  obtain rfl | rfl | rfl | rfl := hi
  all_goals rfl

/-- Settles O41: the encodings by format M, the next states by the four equations of `exec`. -/
theorem flagInstructionResult : Obligations.FlagInstructionResult :=
  ⟨decodeWords_flagInstructions, fun s =>
    ⟨exec_sti s, exec_cli s, exec_stc s, exec_clc s, fun _ hi => cycles_flagInstruction hi s⟩⟩

end Sys2Proof.Machine
end

section
/-! SUPPORT. Decoding against encoding (30_encoding.md R170 to R188): each format's word from its fields, the four encodings the
statements name, and decoding as the inverse of encoding. -/

namespace Sys2Proof

/-! Operand fields (R178 to R180). -/

/-- The operand a field stands for has that field and, if its mode has an extension word, the one given: no two fields for
one operand (R179, R180). -/
theorem operandOfField_encodes (f : BitVec 6) (e : Word) :
    (operandOfField f e).field = f ∧ (operandOfField f e).ext = if extWords f = 0 then [] else [e] := by
  obtain ⟨n⟩ := f
  fin_cases n
  all_goals exact ⟨rfl, rfl⟩

/-- Taking an operand undoes its encoding: the field is the operand's and the words begin with its extension word. -/
theorem takeOperand_eq_ok {f : BitVec 6} {op : Operand} {ws rest : List Word} :
    takeOperand f ws = .ok (op, rest) ↔ op.field = f ∧ op.ext ++ rest = ws := by
  constructor
  · intro h
    unfold takeOperand at h
    split_ifs at h with hext
    · obtain ⟨hfield, hop⟩ := operandOfField_encodes f 0
      cases h
      exact ⟨hfield, by rw [hop, if_pos hext, List.nil_append]⟩
    · cases ws with
      | nil => cases h
      | cons e ws =>
        obtain ⟨hfield, hop⟩ := operandOfField_encodes f e
        cases h
        exact ⟨hfield, by rw [hop, if_neg hext, List.singleton_append]⟩
  · rintro ⟨rfl, rfl⟩
    exact takeOperand_field op rest

/-- Immediate is the one operand that is no destination (R178). -/
theorem destinationOk_of_field_ne {op : Operand} (h : op.field ≠ immediateField) : op.destinationOk = true := by
  cases op with
  | imm v => exact absurd rfl h
  | _ => rfl

/-- `[r15]` is the one operand that is no target of a JccL (R175). -/
theorem jumpTargetOk_of_field_ne {op : Operand} (h : op.field ≠ stackField) : op.jumpTargetOk = true := by
  cases op with
  | stack => exact absurd rfl h
  | _ => rfl

/-- A `cccc` field has no condition or the one whose field it is (42_program_control.md R250). -/
theorem condOfField_eq_some {k : BitVec 4} {cnd : Cond} : condOfField k = some cnd ↔ cnd.field = k := by
  constructor
  · intro h
    unfold condOfField at h
    split at h
    all_goals
      cases h <;> rename_i hk <;> exact BitVec.eq_of_toNat_eq hk.symm
  · rintro rfl
    exact condOfField_field cnd

/-! A word is what its fields make it. -/

section Words

variable {w : Word} {op : BitVec 4}

theorem word_eq_dual (hop : opcodeField w = op) : (op ++ srcField w ++ dstField w : BitVec 16) = w := by
  subst hop
  apply BitVec.eq_of_toNat_eq
  rw [dualWord_toNat, opcodeField_toNat, srcField_toNat, dstField_toNat]
  omega

theorem word_eq_long (hop : opcodeField w = op) (h7 : w.getLsbD 7 = true) (h6 : w.getLsbD 6 = false) :
    (op ++ condField w ++ 0b10#2 ++ dstField w : BitVec 16) = w := by
  subst hop
  rw [bitSeven_eq, decide_eq_true_iff] at h7
  rw [bitSix_eq, decide_eq_false_iff_not] at h6
  apply BitVec.eq_of_toNat_eq
  rw [longWord_toNat, opcodeField_toNat, condField_toNat, dstField_toNat]
  omega

theorem word_eq_jump (hop : opcodeField w = 0b1100#4) (h7 : w.getLsbD 7 = false) :
    (0b1100#4 ++ condField w ++ 0#1 ++ lowField w : BitVec 16) = w := by
  have hop := congrArg BitVec.toNat hop
  rw [opcodeField_toNat] at hop
  rw [bitSeven_eq, decide_eq_false_iff_not] at h7
  simp at hop
  apply BitVec.eq_of_toNat_eq
  rw [jumpWord_toNat, condField_toNat, lowField_toNat]
  omega

theorem word_eq_vector (hop : opcodeField w = 0b1010#4) (h7 : w.getLsbD 7 = false) (hc : condField w = 0xF#4) :
    (0b10101111#8 ++ 0#1 ++ lowField w : BitVec 16) = w := by
  have hop := congrArg BitVec.toNat hop
  have hc := congrArg BitVec.toNat hc
  rw [opcodeField_toNat] at hop
  rw [condField_toNat] at hc
  rw [bitSeven_eq, decide_eq_false_iff_not] at h7
  simp at hop hc
  apply BitVec.eq_of_toNat_eq
  rw [vectorWord_toNat, lowField_toNat]
  omega

theorem word_eq_count (hop : opcodeField w = 0b1101#4) :
    (0b1101#4 ++ subField w ++ paramField w ++ dstField w : BitVec 16) = w := by
  have hop := congrArg BitVec.toNat hop
  rw [opcodeField_toNat] at hop
  simp at hop
  apply BitVec.eq_of_toNat_eq
  rw [countWord_toNat, subField_toNat, paramField_toNat, dstField_toNat]
  omega

end Words

/-- Format U is format S with the sub-opcode 111 (R177). -/
theorem unaryWord_eq_countWord (p : BitVec 3) (f : BitVec 6) :
    (0b1101111#7 ++ p ++ f : BitVec 16) = 0b1101#4 ++ 0b111#3 ++ p ++ f := by
  apply BitVec.eq_of_toNat_eq
  rw [unaryWord_toNat, countWord_toNat]
  rfl

/-! The opcode map's rows that are no format D (R188). -/

theorem decodeWords_opcode_call {w : Word} (h : opcodeField w = 0b1010#4) (ws : List Word) :
    decodeWords (w :: ws) = decodeCall w ws := by simp [decodeWords, h]

theorem decodeWords_opcode_jump {w : Word} (h : opcodeField w = 0b1100#4) (ws : List Word) :
    decodeWords (w :: ws) = decodeJump w ws := by simp [decodeWords, h]

theorem decodeWords_opcode_singles {w : Word} (h : opcodeField w = 0b1101#4) (ws : List Word) :
    decodeWords (w :: ws) = decodeSingles w ws := by simp [decodeWords, h]

theorem decodeSingles_sub_unary {w : Word} (h : subField w = 0b111#3) (ws : List Word) :
    decodeSingles w ws = decodeUnary w ws := by simp [decodeSingles, h]

/-! The encodings of formats J, L, R and U (R173 to R177). -/

section LongWord

variable (op k : BitVec 4) (f : BitVec 6)

theorem opcodeField_longWord : opcodeField (op ++ k ++ 0b10#2 ++ f) = op := by
  apply BitVec.eq_of_toNat_eq
  rw [opcodeField_toNat, longWord_toNat]
  omega

theorem condField_longWord : condField (op ++ k ++ 0b10#2 ++ f) = k := by
  apply BitVec.eq_of_toNat_eq
  rw [condField_toNat, longWord_toNat]
  omega

theorem dstField_longWord : dstField (op ++ k ++ 0b10#2 ++ f) = f := by
  apply BitVec.eq_of_toNat_eq
  rw [dstField_toNat, longWord_toNat]
  omega

theorem bitSeven_longWord : (op ++ k ++ 0b10#2 ++ f : BitVec 16).getLsbD 7 = true := by
  rw [bitSeven_eq, longWord_toNat, decide_eq_true_iff]
  omega

theorem bitSix_longWord : (op ++ k ++ 0b10#2 ++ f : BitVec 16).getLsbD 6 = false := by
  rw [bitSix_eq, longWord_toNat, decide_eq_false_iff_not]
  omega

end LongWord

section JumpWord

variable (k : BitVec 4) (off : BitVec 7)

theorem opcodeField_jumpWord : opcodeField (0b1100#4 ++ k ++ 0#1 ++ off) = 0b1100#4 := by
  apply BitVec.eq_of_toNat_eq
  rw [opcodeField_toNat, jumpWord_toNat]
  simp
  omega

theorem condField_jumpWord : condField (0b1100#4 ++ k ++ 0#1 ++ off) = k := by
  apply BitVec.eq_of_toNat_eq
  rw [condField_toNat, jumpWord_toNat]
  omega

theorem lowField_jumpWord : lowField (0b1100#4 ++ k ++ 0#1 ++ off) = off := by
  apply BitVec.eq_of_toNat_eq
  rw [lowField_toNat, jumpWord_toNat]
  omega

theorem bitSeven_jumpWord : (0b1100#4 ++ k ++ 0#1 ++ off : BitVec 16).getLsbD 7 = false := by
  rw [bitSeven_eq, jumpWord_toNat, decide_eq_false_iff_not]
  omega

end JumpWord

/-- Format J's word decodes to the jump on its condition (R173). -/
theorem decodeWords_jumpWord {k : BitVec 4} {cnd : Cond} (hk : condOfField k = some cnd) (off : BitVec 7) (ws : List Word) :
    decodeWords ((0b1100#4 ++ k ++ 0#1 ++ off) :: ws) = .ok (jumpInstr cnd off, ws) := by
  rw [decodeWords_opcode_jump (opcodeField_jumpWord ..), decodeJump, condField_jumpWord, hk, bitSeven_jumpWord,
    lowField_jumpWord]
  rfl

/-- Format R's word decodes to the return on its condition (R175). -/
theorem decodeWords_returnWord {k : BitVec 4} {cnd : Cond} (hk : condOfField k = some cnd) (ws : List Word) :
    decodeWords ((0b1100#4 ++ k ++ 0b10#2 ++ stackField) :: ws) = .ok (returnInstr cnd, ws) := by
  rw [decodeWords_opcode_jump (opcodeField_longWord ..), decodeJump, condField_longWord, hk, bitSeven_longWord,
    bitSix_longWord, dstField_longWord]
  rfl

/-- The last eight bits of format R's word are those of format L with `[r15]` (R175). -/
theorem returnWord_eq_longWord (k : BitVec 4) :
    (0b1100#4 ++ k ++ 0b10010111#8 : BitVec 16) = 0b1100#4 ++ k ++ 0b10#2 ++ stackField := by
  revert k
  decide

/-- Format L with opcode 1010 encodes the calls (R174). -/
theorem longEncoding_call : Machine.LongEncoding 0b1010#4 callInstr := by
  intro k f cnd t ws rest hk _ ht
  rw [decodeWords_opcode_call (opcodeField_longWord ..), decodeCall, condField_longWord, hk, bitSeven_longWord,
    bitSix_longWord, dstField_longWord, ht]
  rfl

/-- Format L with opcode 1100 encodes the long jumps, but for the operand `[r15]` (R174, R175). -/
theorem longEncoding_jumpLong : Machine.LongEncoding 0b1100#4 jumpLongInstr := by
  intro k f cnd t ws rest hk hf ht
  rw [decodeWords_opcode_jump (opcodeField_longWord ..), decodeJump, condField_longWord, hk, bitSeven_longWord,
    bitSix_longWord, dstField_longWord]
  simp only [if_true, Bool.false_eq_true, if_false, if_neg (hf rfl), ht]
  rfl

/-- A parameter that the opcode map gives a destination encodes format U with it (R177). -/
theorem unaryEncoding_of_param {p : BitVec 3} {mk : Operand → Instr}
    (h : ∀ w ws, paramField w = p → decodeUnary w ws = decodeSingle mk w ws) : Machine.UnaryEncoding p mk := by
  intro f dst ws rest hf hdst
  rw [unaryWord_eq_countWord, decodeWords_opcode_singles (opcodeField_countWord ..),
    decodeSingles_sub_unary (subField_countWord ..), h _ ws (paramField_countWord ..)]
  exact decodeSingle_of_dstField (dstField_countWord ..) hf hdst

end Sys2Proof
end

section
/-! SUPPORT. Decoding is the inverse of encoding on the well-formed instructions (30_encoding.md R170 to R188), over words and over
bytes, with the length it takes. -/

namespace Sys2Proof

open Machine (bind_eq_ok)

/-- A field with a given value is that field. -/
theorem field_eq_of_toNat {k n : Nat} {f : BitVec k} (h : f.toNat = n) : f = BitVec.ofNat k n := by
  rw [← h, BitVec.ofNat_toNat, BitVec.setWidth_eq]

/-! What each decoder accepts is well-formed and encodes to the words decoded. -/

section Decoders

variable {w : Word} {ws rest : List Word} {i : Instr}

/-- Format D (R172). -/
theorem encodes_of_decodeDual {mk : Operand → Operand → Instr} {op : BitVec 4}
    (hwf : ∀ src dst, (mk src dst).wellFormed = dst.destinationOk)
    (henc : ∀ src dst, encode (mk src dst) = encodeDual op src dst) (hop : opcodeField w = op)
    (h : decodeDual mk w ws = .ok (i, rest)) : i.wellFormed = true ∧ encode i ++ rest = w :: ws := by
  unfold decodeDual at h
  split_ifs at h with himm
  obtain ⟨⟨src, ws'⟩, hsrc, h⟩ := bind_eq_ok.mp h
  obtain ⟨⟨dst, ws''⟩, hdst, h⟩ := bind_eq_ok.mp h
  cases h
  obtain ⟨hs, rfl⟩ := takeOperand_eq_ok.mp hsrc
  obtain ⟨hd, rfl⟩ := takeOperand_eq_ok.mp hdst
  refine ⟨by rw [hwf]; exact destinationOk_of_field_ne (hd ▸ himm), ?_⟩
  rw [henc, encodeDual, hs, hd, word_eq_dual hop, List.cons_append, List.append_assoc]

/-- Formats S and U (R177). -/
theorem encodes_of_decodeSingle {mk : Operand → Instr} (h : decodeSingle mk w ws = .ok (i, rest))
    (hwf : ∀ dst, (mk dst).wellFormed = dst.destinationOk)
    (henc : ∀ dst, dst.field = dstField w → encode (mk dst) = w :: dst.ext) :
    i.wellFormed = true ∧ encode i ++ rest = w :: ws := by
  unfold decodeSingle at h
  split_ifs at h with himm
  obtain ⟨⟨dst, ws'⟩, hdst, h⟩ := bind_eq_ok.mp h
  cases h
  obtain ⟨hd, rfl⟩ := takeOperand_eq_ok.mp hdst
  refine ⟨by rw [hwf]; exact destinationOk_of_field_ne (hd ▸ himm), ?_⟩
  rw [henc dst hd, List.cons_append]

/-- Formats L and V with opcode 1010 (R174, R176). -/
theorem encodes_of_decodeCall (hop : opcodeField w = 0b1010#4) (h : decodeCall w ws = .ok (i, rest)) :
    i.wellFormed = true ∧ encode i ++ rest = w :: ws := by
  unfold decodeCall at h
  split at h
  case isTrue h7 =>
    split at h
    case h_1 => cases h
    case h_2 cnd hcnd =>
      split_ifs at h with h6
      obtain ⟨⟨t, ws'⟩, ht, h⟩ := bind_eq_ok.mp h
      cases h
      obtain ⟨hf, rfl⟩ := takeOperand_eq_ok.mp ht
      refine ⟨by cases cnd <;> rfl, ?_⟩
      have henc : encode (callInstr cnd t) = encodeLong 0b1010#4 cnd t := by cases cnd <;> rfl
      rw [henc, encodeLong, condOfField_eq_some.mp hcnd, hf, word_eq_long hop h7 (by simpa using h6), List.cons_append]
  case isFalse h7 =>
    split_ifs at h with hc
    cases h
    refine ⟨rfl, ?_⟩
    have hv : BitVec.ofNat 7 (lowField w).toFin.val = lowField w := by simp
    rw [encode, hv, word_eq_vector hop (by simpa using h7) hc, List.singleton_append]

/-- Formats J, R and L with opcode 1100 (R173 to R175). -/
theorem encodes_of_decodeJump (hop : opcodeField w = 0b1100#4) (h : decodeJump w ws = .ok (i, rest)) :
    i.wellFormed = true ∧ encode i ++ rest = w :: ws := by
  unfold decodeJump at h
  split at h
  case h_1 => cases h
  case h_2 cnd hcnd =>
    have hk := condOfField_eq_some.mp hcnd
    split_ifs at h with h7 h6 hstack
    · cases h
      refine ⟨by cases cnd <;> rfl, ?_⟩
      have henc : encode (returnInstr cnd) = encodeReturn cnd := by cases cnd <;> rfl
      rw [henc, encodeReturn, returnWord_eq_longWord, hk, ← hstack, word_eq_long hop h7 (by simpa using h6),
        List.singleton_append]
    · obtain ⟨⟨t, ws'⟩, ht, h⟩ := bind_eq_ok.mp h
      cases h
      obtain ⟨hf, rfl⟩ := takeOperand_eq_ok.mp ht
      have htarget := jumpTargetOk_of_field_ne (hf ▸ hstack)
      refine ⟨by cases cnd <;> exact htarget, ?_⟩
      have henc : encode (jumpLongInstr cnd t) = encodeLong 0b1100#4 cnd t := by cases cnd <;> rfl
      rw [henc, encodeLong, hk, hf, word_eq_long hop h7 (by simpa using h6), List.cons_append]
    · cases h
      refine ⟨by cases cnd <;> rfl, ?_⟩
      have henc : encode (jumpInstr cnd (lowField w)) = encodeJump cnd (lowField w) := by cases cnd <;> rfl
      rw [henc, encodeJump, hk, word_eq_jump hop (by simpa using h7), List.singleton_append]

/-- The word of format S from its fields, the count as `Instr` holds it (R177, R185). -/
theorem encodeCount_of_fields (hop : opcodeField w = 0b1101#4) {op : BitVec 3} (hsub : subField w = op) (dst : Operand)
    (hd : dst.field = dstField w) : encodeCount op (paramField w).toFin dst = w :: dst.ext := by
  have hn : BitVec.ofNat 3 (paramField w).toFin.val = paramField w := by simp
  rw [encodeCount, hn, hd, ← hsub, word_eq_count hop]

/-- The word of format U from its fields (R177). -/
theorem encodeUnary_of_fields (hop : opcodeField w = 0b1101#4) (hsub : subField w = 0b111#3) {p : BitVec 3}
    (hp : paramField w = p) (dst : Operand) (hd : dst.field = dstField w) : encodeUnary p dst = w :: dst.ext := by
  rw [encodeUnary, hd, ← hp, unaryWord_eq_countWord, ← hsub, word_eq_count hop]

/-- A word of format M is its low field under ten fixed bits (R177). -/
theorem miscWord_of_fields (hop : opcodeField w = 0b1101#4) (hsub : subField w = 0b111#3) (hp : paramField w = 0b111#3)
    {f : BitVec 6} (hd : dstField w = f) : (0b1101#4 ++ 0b111#3 ++ 0b111#3 ++ f : BitVec 16) = w := by
  rw [← hd, ← word_eq_count hop, hsub, hp, dstField_countWord]

/-- Formats U and M (R177). -/
theorem encodes_of_decodeUnary (hop : opcodeField w = 0b1101#4) (hsub : subField w = 0b111#3)
    (h : decodeUnary w ws = .ok (i, rest)) : i.wellFormed = true ∧ encode i ++ rest = w :: ws := by
  unfold decodeUnary at h
  split at h
  case h_1 hp | h_2 hp | h_3 hp =>
    exact encodes_of_decodeSingle h (fun _ => rfl) (encodeUnary_of_fields hop hsub (field_eq_of_toNat hp))
  case h_4 hp =>
    have hword := fun f hd => miscWord_of_fields hop hsub (field_eq_of_toNat hp) (f := f) hd
    split at h
    case h_5 => cases h
    all_goals
      rename_i hd
      cases h
      exact ⟨rfl, congrArg (· :: ws) (hword _ (field_eq_of_toNat hd))⟩
  case h_5 => cases h

/-- Opcode 1101 (R177). -/
theorem encodes_of_decodeSingles (hop : opcodeField w = 0b1101#4) (h : decodeSingles w ws = .ok (i, rest)) :
    i.wellFormed = true ∧ encode i ++ rest = w :: ws := by
  simp only [decodeSingles] at h
  split at h
  case h_1 hs | h_2 hs | h_3 hs | h_4 hs | h_5 hs | h_6 hs =>
    exact encodes_of_decodeSingle h (fun _ => rfl) (encodeCount_of_fields hop (field_eq_of_toNat hs))
  case h_7 hs => exact encodes_of_decodeUnary hop (field_eq_of_toNat hs) h
  case h_8 => cases h

end Decoders

/-- Settles O2: the opcode map's rows one by one (R188), each by what its decoder accepts. -/
theorem encodeOfDecode : Obligations.EncodeOfDecode := by
  intro ws rest i h
  cases ws with
  | nil => cases h
  | cons w ws =>
    simp only [decodeWords] at h
    split at h
    case h_1 hop | h_2 hop | h_3 hop | h_4 hop | h_5 hop | h_6 hop | h_7 hop | h_8 hop | h_9 hop | h_10 hop =>
      exact encodes_of_decodeDual (fun _ _ => rfl) (fun _ _ => rfl) (field_eq_of_toNat hop) h
    case h_11 hop => exact encodes_of_decodeCall (field_eq_of_toNat hop) h
    case h_12 hop => exact encodes_of_decodeJump (field_eq_of_toNat hop) h
    case h_13 hop => exact encodes_of_decodeSingles (field_eq_of_toNat hop) h
    case h_14 => cases h

/-! What the encoder writes decodes to the instruction. -/

theorem decodeWords_encodeDual {op : BitVec 4} {mk : Operand → Operand → Instr} (hmk : Machine.DualEncoding op mk)
    (src : Operand) {dst : Operand} (hdst : dst.destinationOk = true) (ws : List Word) :
    decodeWords (encodeDual op src dst ++ ws) = .ok (mk src dst, ws) := by
  rw [encodeDual, List.cons_append, List.append_assoc]
  exact hmk _ _ _ _ _ _ _ (field_ne_immediate hdst) (takeOperand_field src _) (takeOperand_field dst _)

theorem decodeWords_encodeJump (cnd : Cond) (off : BitVec 7) (ws : List Word) :
    decodeWords (encodeJump cnd off ++ ws) = .ok (jumpInstr cnd off, ws) :=
  decodeWords_jumpWord (condOfField_field cnd) off ws

theorem decodeWords_encodeReturn (cnd : Cond) (ws : List Word) :
    decodeWords (encodeReturn cnd ++ ws) = .ok (returnInstr cnd, ws) := by
  rw [encodeReturn, returnWord_eq_longWord]
  exact decodeWords_returnWord (condOfField_field cnd) ws

theorem decodeWords_encodeJumpLong (cnd : Cond) {t : Operand} (ht : t.jumpTargetOk = true) (ws : List Word) :
    decodeWords (encodeLong 0b1100#4 cnd t ++ ws) = .ok (jumpLongInstr cnd t, ws) :=
  longEncoding_jumpLong _ _ _ _ _ _ (condOfField_field cnd) (fun _ => field_ne_stack ht) (takeOperand_field t ws)

theorem decodeWords_encodeCall (cnd : Cond) (t : Operand) (ws : List Word) :
    decodeWords (encodeLong 0b1010#4 cnd t ++ ws) = .ok (callInstr cnd t, ws) :=
  longEncoding_call _ _ _ _ _ _ (condOfField_field cnd) (fun h => absurd h (by decide)) (takeOperand_field t ws)

theorem decodeWords_encodeCount {op : BitVec 3} {mk : Fin 8 → Operand → Instr} (hmk : Machine.CountEncoding op mk)
    (n : Fin 8) {dst : Operand} (hdst : dst.destinationOk = true) (ws : List Word) :
    decodeWords (encodeCount op n dst ++ ws) = .ok (mk n dst, ws) :=
  hmk _ _ _ _ _ (field_ne_immediate hdst) (takeOperand_field dst ws)

theorem decodeWords_encodeUnary {p : BitVec 3} {mk : Operand → Instr} (hmk : Machine.UnaryEncoding p mk)
    {dst : Operand} (hdst : dst.destinationOk = true) (ws : List Word) :
    decodeWords (encodeUnary p dst ++ ws) = .ok (mk dst, ws) :=
  hmk _ _ _ _ (field_ne_immediate hdst) (takeOperand_field dst ws)

/-- Settles O1: constructor by constructor, each by the encoding of its format. -/
theorem decodeOfEncode : Obligations.DecodeOfEncode := by
  intro i ws hwf
  cases i with
  | mov s d | add s d | addc s d | sub s d | subb s d | cmp s d | and s d | test s d | or s d | xor s d =>
    exact decodeWords_encodeDual (dualEncoding_of_opcode fun w ws h => by simp [decodeWords, h]) s hwf ws
  | jz o | jnz o | jc o | jnc o | js o | jns o | jo o | jno o | ja o | jbe o | jg o | jge o | jl o | jle o | jmp o =>
    exact decodeWords_encodeJump _ o ws
  | jzl t | jnzl t | jcl t | jncl t | jsl t | jnsl t | jol t | jnol t | jal t | jbel t | jgl t | jgel t | jll t | jlel t
  | jmpl t => exact decodeWords_encodeJumpLong _ hwf ws
  | rz | rnz | rc | rnc | rs | rns | ro | rno | ra | rbe | rg | rge | rl | rle | ret => exact decodeWords_encodeReturn _ ws
  | cz t | cnz t | cc t | cnc t | cs t | cns t | co t | cno t | ca t | cbe t | cg t | cge t | cl t | cle t | call t =>
    exact decodeWords_encodeCall _ t ws
  | int v => exact Machine.intResult.1 v ws
  | shr n d | shl n d | ror n d | rol n d | addi n d | subi n d =>
    exact decodeWords_encodeCount (countEncoding_of_subOpcode fun w ws h => by simp [decodeSingles, h]) n hwf ws
  | not d | neg d | cbw d =>
    exact decodeWords_encodeUnary (unaryEncoding_of_param fun w ws h => by simp [decodeUnary, h]) hwf ws
  | sti => exact (decodeWords_flagInstructions ws).1
  | cli => exact (decodeWords_flagInstructions ws).2.1
  | stc => exact (decodeWords_flagInstructions ws).2.2.1
  | clc => exact (decodeWords_flagInstructions ws).2.2.2

end Sys2Proof
end

section
/-! SUPPORT. The round trip over bytes (20_memory.md R142), the length of what decodes (30_encoding.md R180) and words of each format
decoded. -/

namespace Sys2Proof

open Machine

/-! Words as bytes (20_memory.md R142). -/

theorem wordsOfBytes_bytesOfWords (ws : List Word) (bs : List Byte) :
    wordsOfBytes (bytesOfWords ws ++ bs) = ws ++ wordsOfBytes bs := by
  induction ws with
  | nil => rfl
  | cons w ws ih => simp only [bytesOfWords, List.cons_append, wordsOfBytes, wordOfBytes_low_high, ih]

theorem length_bytesOfWords (ws : List Word) : (bytesOfWords ws).length = 2 * ws.length := by
  induction ws with
  | nil => rfl
  | cons w ws ih =>
    simp only [bytesOfWords, List.length_cons, ih]
    omega

/-- Settles O3: the words of the bytes are those encoded, and the bytes left over are counted by the words left over. -/
theorem decodeOfEncodedBytes : Obligations.DecodeOfEncodedBytes := by
  intro i bs hwf
  have taken : 2 * ((encode i ++ wordsOfBytes bs).length - (wordsOfBytes bs).length) = (bytesOfWords (encode i)).length := by
    rw [List.length_append, Nat.add_sub_cancel, length_bytesOfWords]
  simp only [decode, wordsOfBytes_bytesOfWords]
  rw [decodeOfEncode i (wordsOfBytes bs) hwf]
  simp only [bind, Except.bind, taken, List.drop_left, pure, Except.pure]

/-! The length of what decodes. -/

/-- The encoding of every instruction has the length its word says (R180). -/
theorem encodedLength (i : Instr) : Laws.EncodedLength.Statement i := by
  cases i with
  | mov s d | add s d | addc s d | sub s d | subb s d | cmp s d | and s d | test s d | or s d | xor s d =>
    exact Laws.EncodedLength.of_dual _ s d (by decide) rfl
  | jz o | jnz o | jc o | jnc o | js o | jns o | jo o | jno o | ja o | jbe o | jg o | jge o | jl o | jle o | jmp o =>
    exact Laws.EncodedLength.of_jump _ o rfl
  | jzl t | jnzl t | jcl t | jncl t | jsl t | jnsl t | jol t | jnol t | jal t | jbel t | jgl t | jgel t | jll t | jlel t
  | jmpl t | cz t | cnz t | cc t | cnc t | cs t | cns t | co t | cno t | ca t | cbe t | cg t | cge t | cl t | cle t | call t =>
    exact Laws.EncodedLength.of_long _ _ t (by decide) rfl
  | rz | rnz | rc | rnc | rs | rns | ro | rno | ra | rbe | rg | rge | rl | rle | ret | sti | cli | stc | clc =>
    exact ⟨_, _, rfl, by decide⟩
  | int v => exact Laws.EncodedLength.int v
  | shr n d | shl n d | ror n d | rol n d | addi n d | subi n d =>
    exact Laws.EncodedLength.of_count _ n d (by decide) rfl
  | not d | neg d | cbw d => exact Laws.EncodedLength.of_unary _ d (by decide) rfl

/-- Decoding takes the instruction word and as many words after it as that word says (R180). -/
theorem length_of_decodeWords {w : Word} {ws rest : List Word} {i : Instr} (h : decodeWords (w :: ws) = .ok (i, rest)) :
    ws.length = rest.length + extWordsOf w := by
  obtain ⟨w', es, henc, hlen⟩ := encodedLength i
  have hwords := (encodeOfDecode _ _ _ h).2
  rw [henc, List.cons_append] at hwords
  obtain ⟨rfl, rfl⟩ := List.cons.inj hwords
  rw [List.length_append, hlen, Nat.add_comm]

/-- Opcodes 1011, 1110 and 1111 are unassigned (R186 class E-a). -/
theorem opcode_assigned {w : Word} {ws rest : List Word} {i : Instr} (h : decodeWords (w :: ws) = .ok (i, rest)) :
    w.toNat / 4096 ≤ 10 ∨ w.toNat / 4096 = 12 ∨ w.toNat / 4096 = 13 := by
  by_contra hop
  have unassigned : w.toNat / 4096 = 11 ∨ w.toNat / 4096 = 14 ∨ w.toNat / 4096 = 15 := by
    have := w.isLt
    omega
  obtain hop | hop | hop := unassigned
  all_goals simp [decodeWords, opcodeField_toNat, hop] at h

/-- Settles O5: the length that the word says, its fields as arithmetic on the word. -/
theorem instructionLength : Obligations.InstructionLength := by
  intro w ws rest i h
  have hext : ∀ f : BitVec 6, extWords f =
      if f.toNat = 0x1F ∨ f.toNat = 0x27 ∨ f.toNat = 0x2F ∨ (0x30 ≤ f.toNat ∧ f.toNat ≤ 0x3F) then 1 else 0 := by decide
  have hmisc : subField w = 7#3 ∧ paramField w = 7#3 ↔ w.toNat / 64 % 64 = 63 := by
    rw [← BitVec.toNat_inj, ← BitVec.toNat_inj, subField_toNat, paramField_toNat]
    simp
    omega
  have hop := opcode_assigned h
  intro n ext
  rw [length_of_decodeWords h]
  simp only [extWordsOf, hmisc, opcodeField_toNat, bitSeven_eq, decide_eq_true_eq]
  have hsrc : extWords (srcField w) = ext (n / 64 % 64) := by rw [hext, srcField_toNat]
  have hdst : extWords (dstField w) = ext (n % 64) := by rw [hext, dstField_toNat]
  rw [hsrc, hdst]
  generalize ext (n / 64 % 64) = src
  generalize ext (n % 64) = dst
  split_ifs
  all_goals omega

/-- Settles O6: each word evaluated. -/
theorem sampleWordsDecode : Obligations.SampleWordsDecode := by
  refine ⟨?_, ?_, ?_, ?_, ?_, ?_, ?_, ?_, ?_, ?_⟩
  all_goals rfl

end Sys2Proof
end

section
/-! SUPPORT. The reserved instruction words (30_encoding.md R186): what each decoder refuses, and masks as arithmetic on the word. -/

namespace Sys2Proof.Machine

/-- The companion of `bind_eq_ok`: a computation stops where its first part does or the rest does. -/
theorem bind_eq_error {ε α β : Type} {x : Except ε α} {f : α → Except ε β} {e : ε} :
    (x >>= f) = .error e ↔ x = .error e ∨ ∃ a, x = .ok a ∧ f a = .error e := by
  cases x with
  | error e' =>
    constructor
    · exact fun h => .inl (by cases h; rfl)
    · rintro (⟨⟨⟩⟩ | ⟨_, h, -⟩)
      · rfl
      · cases h
  | ok a =>
    constructor
    · exact fun h => .inr ⟨a, rfl, h⟩
    · rintro (h | ⟨_, ⟨⟩, hf⟩)
      · cases h
      · exact hf

end Sys2Proof.Machine

namespace Sys2Proof

open Machine (bind_eq_error)

/-! What each decoder refuses as reserved, as arithmetic on the word. -/

/-- The words are refused as reserved. -/
def Refused {α : Type} (x : Except DecodeError α) : Prop := ∃ c, x = .error (.reserved c)

theorem refused_reserved {α : Type} (c : ReservedClass) : Refused (.error (.reserved c) : Except DecodeError α) := ⟨c, rfl⟩

theorem not_refused_ok {α : Type} (a : α) : ¬ Refused (.ok a : Except DecodeError α) := fun ⟨_, h⟩ => nomatch h

/-- A missing extension word makes words too short, never reserved (R180). -/
theorem takeOperand_eq_error {f : BitVec 6} {ws : List Word} {e : DecodeError} (h : takeOperand f ws = .error e) :
    e = .truncated ∧ ws = [] := by
  unfold takeOperand at h
  split_ifs at h
  cases ws with
  | nil => cases h; exact ⟨rfl, rfl⟩
  | cons _ _ => cases h

/-- Where what follows refuses nothing, taking an operand first refuses nothing. -/
theorem not_refused_takeOperand {α : Type} {f : BitVec 6} {ws : List Word}
    {k : Operand × List Word → Except DecodeError α} (hk : ∀ op rest, ¬ Refused (k (op, rest))) :
    ¬ Refused (takeOperand f ws >>= k) := by
  rintro ⟨c, h⟩
  obtain h | ⟨⟨op, rest⟩, -, h⟩ := bind_eq_error.mp h
  · exact nomatch (takeOperand_eq_error h).1
  · exact hk op rest ⟨c, h⟩

section Reserved

variable (w : Word) (ws : List Word)

theorem dstField_eq_immediate_iff : dstField w = immediateField ↔ w.toNat % 64 = 31 := by
  rw [← BitVec.toNat_inj, dstField_toNat]
  rfl

/-- The condition 1110 is the one not used (R250). -/
theorem condOfField_eq_none_iff : condOfField (condField w) = none ↔ w.toNat / 256 % 16 = 14 := by
  have hk : ∀ k : BitVec 4, condOfField k = none ↔ k.toNat = 14 := by decide
  rw [hk, condField_toNat]

/-- Format D refuses an Immediate destination alone (class E-h). -/
theorem decodeDual_refused_iff (mk : Operand → Operand → Instr) : Refused (decodeDual mk w ws) ↔ w.toNat % 64 = 31 := by
  rw [← dstField_eq_immediate_iff]
  unfold decodeDual
  split_ifs with h
  · exact iff_of_true (refused_reserved _) h
  · exact iff_of_false
      (not_refused_takeOperand fun _ _ => not_refused_takeOperand fun _ _ => not_refused_ok _) h

/-- So do formats S and U. -/
theorem decodeSingle_refused_iff (mk : Operand → Instr) : Refused (decodeSingle mk w ws) ↔ w.toNat % 64 = 31 := by
  rw [← dstField_eq_immediate_iff]
  unfold decodeSingle
  split_ifs with h
  · exact iff_of_true (refused_reserved _) h
  · exact iff_of_false (not_refused_takeOperand fun _ _ => not_refused_ok _) h

/-- Opcode 1010: classes E-f and E-g with bit 7 set, E-e with bit 7 clear. -/
theorem decodeCall_refused_iff : Refused (decodeCall w ws) ↔
    w.toNat / 128 % 2 = 1 ∧ (w.toNat / 256 % 16 = 14 ∨ w.toNat / 64 % 2 = 1) ∨
      w.toNat / 128 % 2 = 0 ∧ w.toNat / 256 % 16 ≠ 15 := by
  have hcond := condOfField_eq_none_iff w
  have hint : condField w = 0xF#4 ↔ w.toNat / 256 % 16 = 15 := by
    rw [← BitVec.toNat_inj, condField_toNat]
    rfl
  simp only [decodeCall, bitSeven_eq, bitSix_eq, hint, decide_eq_true_eq]
  cases hc : condOfField (condField w)
  all_goals
    rw [hc] at hcond
    simp only [reduceCtorEq, true_iff, false_iff] at hcond
  case none =>
    simp only
    split_ifs
    · exact iff_of_true (refused_reserved _) (by omega)
    · exact iff_of_false (not_refused_ok _) (by omega)
    · exact iff_of_true (refused_reserved _) (by omega)
  case some cnd =>
    simp only
    split_ifs
    · exact iff_of_true (refused_reserved _) (by omega)
    · exact iff_of_false (not_refused_takeOperand fun _ _ => not_refused_ok _) (by omega)
    · exact iff_of_false (not_refused_ok _) (by omega)
    · exact iff_of_true (refused_reserved _) (by omega)

/-- Opcode 1100: classes E-f and E-g. -/
theorem decodeJump_refused_iff : Refused (decodeJump w ws) ↔
    w.toNat / 256 % 16 = 14 ∨ w.toNat / 128 % 2 = 1 ∧ w.toNat / 64 % 2 = 1 := by
  have hcond := condOfField_eq_none_iff w
  simp only [decodeJump, bitSeven_eq, bitSix_eq, decide_eq_true_eq]
  cases hc : condOfField (condField w)
  all_goals
    rw [hc] at hcond
    simp only [reduceCtorEq, true_iff, false_iff] at hcond
  case none => exact iff_of_true (refused_reserved _) (.inl hcond)
  case some cnd =>
    simp only
    split_ifs
    · exact iff_of_true (refused_reserved _) (by omega)
    · exact iff_of_false (not_refused_ok _) (by omega)
    · exact iff_of_false (not_refused_takeOperand fun _ _ => not_refused_ok _) (by omega)
    · exact iff_of_false (not_refused_ok _) (by omega)

/-- Sub-opcode 111 of opcode 1101: classes E-c, E-d and E-h. -/
theorem decodeUnary_refused_iff : Refused (decodeUnary w ws) ↔
    (w.toNat / 64 % 8 = 2 ∨ w.toNat / 64 % 8 = 3 ∨ w.toNat / 64 % 8 = 5 ∨ w.toNat / 64 % 8 = 6) ∨
      w.toNat / 64 % 8 = 7 ∧ 4 ≤ w.toNat % 64 ∨
      (w.toNat / 64 % 8 = 0 ∨ w.toNat / 64 % 8 = 1 ∨ w.toNat / 64 % 8 = 4) ∧ w.toNat % 64 = 31 := by
  simp only [decodeUnary, paramField_toNat, dstField_toNat]
  split
  case h_1 h | h_2 h | h_3 h =>
    rw [decodeSingle_refused_iff]
    omega
  case h_4 h =>
    split
    case h_5 h0 h1 h2 h3 => exact iff_of_true (refused_reserved _) (by simp only [imp_false] at h0 h1 h2 h3; omega)
    all_goals exact iff_of_false (not_refused_ok _) (by omega)
  case h_5 h0 h1 h4 h7 => exact iff_of_true (refused_reserved _) (by simp only [imp_false] at h0 h1 h4 h7; omega)

/-- Opcode 1101: class E-b, and the classes of its formats. -/
theorem decodeSingles_refused_iff : Refused (decodeSingles w ws) ↔
    w.toNat / 512 % 8 = 6 ∨ w.toNat / 512 % 8 < 6 ∧ w.toNat % 64 = 31 ∨
      w.toNat / 512 % 8 = 7 ∧ Refused (decodeUnary w ws) := by
  simp only [decodeSingles, subField_toNat]
  split
  case h_1 h | h_2 h | h_3 h | h_4 h | h_5 h | h_6 h => simp [h, decodeSingle_refused_iff]
  case h_7 h => simp [h]
  case h_8 h0 h1 h2 h3 h4 h5 h7 =>
    simp only [imp_false] at h0 h1 h2 h3 h4 h5 h7
    exact iff_of_true (refused_reserved _) (.inl (by omega))

/-- Every opcode: class E-a, and the classes of its formats. -/
theorem decodeWords_refused_iff : Refused (decodeWords (w :: ws)) ↔
    w.toNat / 4096 < 10 ∧ w.toNat % 64 = 31 ∨ w.toNat / 4096 = 10 ∧ Refused (decodeCall w ws) ∨
      w.toNat / 4096 = 12 ∧ Refused (decodeJump w ws) ∨ w.toNat / 4096 = 13 ∧ Refused (decodeSingles w ws) ∨
      (w.toNat / 4096 = 11 ∨ w.toNat / 4096 = 14 ∨ w.toNat / 4096 = 15) := by
  have hw := w.isLt
  simp only [decodeWords, opcodeField_toNat]
  split
  case h_1 h | h_2 h | h_3 h | h_4 h | h_5 h | h_6 h | h_7 h | h_8 h | h_9 h | h_10 h => simp [h, decodeDual_refused_iff]
  case h_11 h | h_12 h | h_13 h => simp [h]
  case h_14 h0 h1 h2 h3 h4 h5 h6 h7 h8 h9 h10 h12 h13 =>
    simp only [imp_false] at h0 h1 h2 h3 h4 h5 h6 h7 h8 h9 h10 h12 h13
    refine iff_of_true (refused_reserved _) (.inr (.inr (.inr (.inr ?_))))
    omega

end Reserved

/-! Masks (R186's table). -/

/-- A word under a mask of `n` bits from bit `k` up keeps that field in its place. -/
theorem toNat_and_fieldMask (w : Word) (k n : Nat) (h : k + n ≤ 16) :
    (w &&& BitVec.ofNat 16 ((2 ^ n - 1) * 2 ^ k)).toNat = w.toNat / 2 ^ k % 2 ^ n * 2 ^ k := by
  have mask_lt : (2 ^ n - 1) * 2 ^ k < 2 ^ 16 :=
    calc (2 ^ n - 1) * 2 ^ k < 2 ^ n * 2 ^ k := by
          have := Nat.two_pow_pos n
          exact Nat.mul_lt_mul_of_pos_right (by omega) (Nat.two_pow_pos k)
      _ = 2 ^ (k + n) := by rw [Nat.pow_add, Nat.mul_comm]
      _ ≤ 2 ^ 16 := Nat.pow_le_pow_right (by decide) h
  rw [BitVec.toNat_and, BitVec.toNat_ofNat, Nat.mod_eq_of_lt mask_lt]
  apply Nat.eq_of_testBit_eq
  intro j
  rw [Nat.testBit_and, Nat.testBit_mul_two_pow, Nat.testBit_mul_two_pow, Nat.testBit_two_pow_sub_one,
    Nat.testBit_mod_two_pow, Nat.testBit_div_two_pow]
  by_cases hj : k ≤ j
  · rw [show j - k + k = j by omega]
    simp only [hj, decide_true, Bool.true_and, Bool.and_comm]
  · simp [hj]

/-- A masked word compared with a field's value in its place. -/
theorem and_fieldMask_eq_iff (w : Word) (k n c : Nat) (h : k + n ≤ 16) (hc : c < 2 ^ n) :
    w &&& BitVec.ofNat 16 ((2 ^ n - 1) * 2 ^ k) = BitVec.ofNat 16 (c * 2 ^ k) ↔ w.toNat / 2 ^ k % 2 ^ n = c := by
  have value_lt : c * 2 ^ k < 2 ^ 16 :=
    calc c * 2 ^ k < 2 ^ n * 2 ^ k := Nat.mul_lt_mul_of_pos_right hc (Nat.two_pow_pos k)
      _ = 2 ^ (k + n) := by rw [Nat.pow_add, Nat.mul_comm]
      _ ≤ 2 ^ 16 := Nat.pow_le_pow_right (by decide) h
  rw [← BitVec.toNat_inj, toNat_and_fieldMask w k n h, BitVec.toNat_ofNat, Nat.mod_eq_of_lt value_lt,
    Nat.mul_left_inj (Nat.two_pow_pos k).ne']

/-- A mask of two fields is a mask of each. -/
theorem and_or_eq_iff {w m n c d : Word} (hm : (c ||| d) &&& m = c) (hn : (c ||| d) &&& n = d) :
    w &&& (m ||| n) = c ||| d ↔ w &&& m = c ∧ w &&& n = d := by
  constructor
  · intro h
    have absorb (a b : Word) : (a ||| b) &&& a = a := by
      ext j
      cases hj : a[j] <;> simp [hj]
    constructor
    · rw [← hm, ← h, BitVec.and_assoc, absorb]
    · rw [← hn, ← h, BitVec.and_assoc, BitVec.or_comm m n, absorb]
  · rintro ⟨rfl, rfl⟩
    exact BitVec.and_or_distrib_left

section Masks

variable (w : Word)

/-- Bits 15..12: the opcode. -/
theorem and_F000_eq_iff (c : Nat) (hc : c < 16) : w &&& 0xF000#16 = BitVec.ofNat 16 (c * 4096) ↔ w.toNat / 4096 = c := by
  have hw := w.isLt
  exact (and_fieldMask_eq_iff w 12 4 c (by decide) hc).trans (by omega)

/-- Bits 15..6 of format U or M: opcode 1101, sub-opcode 111 and the parameter. -/
theorem and_FFC0_eq_iff (p : Nat) (hp : p < 8) : w &&& 0xFFC0#16 = BitVec.ofNat 16 ((888 + p) * 64) ↔
    w.toNat / 4096 = 13 ∧ w.toNat / 512 % 8 = 7 ∧ w.toNat / 64 % 8 = p := by
  have hw := w.isLt
  exact (and_fieldMask_eq_iff w 6 10 (888 + p) (by decide) (by omega)).trans (by omega)

/-- Bits 15..12 of opcode 1010, and bit 7 clear. -/
theorem and_F080_eq_iff : w &&& 0xF080#16 = 0xA000#16 ↔ w.toNat / 4096 = 10 ∧ w.toNat / 128 % 2 = 0 :=
  (and_or_eq_iff (m := 0xF000#16) (n := 0x80#16) (c := 0xA000#16) (d := 0#16) (by decide) (by decide)).trans
    (and_congr (and_F000_eq_iff w 10 (by decide)) (and_fieldMask_eq_iff w 7 1 0 (by decide) (by decide)))

/-- Bits 15..12 of an opcode, and bits 7 and 6 set. -/
theorem and_F0C0_eq_iff (c : Nat) (hc : c < 16)
    (hm : (BitVec.ofNat 16 (c * 4096) ||| 0xC0#16) &&& 0xF000#16 = BitVec.ofNat 16 (c * 4096))
    (hm' : (BitVec.ofNat 16 (c * 4096) ||| 0xC0#16) &&& 0xC0#16 = 0xC0#16) :
    w &&& 0xF0C0#16 = BitVec.ofNat 16 (c * 4096) ||| 0xC0#16 ↔
      w.toNat / 4096 = c ∧ w.toNat / 128 % 2 = 1 ∧ w.toNat / 64 % 2 = 1 :=
  (and_or_eq_iff (m := 0xF000#16) (n := 0xC0#16) hm hm').trans
    (and_congr (and_F000_eq_iff w c hc) ((and_fieldMask_eq_iff w 6 2 3 (by decide) (by decide)).trans (by omega)))

/-- Class E-b: bits 15..9. -/
theorem and_FE00_eq_iff : w &&& 0xFE00#16 = 0xDC00#16 ↔ w.toNat / 4096 = 13 ∧ w.toNat / 512 % 8 = 6 := by
  have hw := w.isLt
  exact (and_fieldMask_eq_iff w 9 7 110 (by decide) (by decide)).trans (by omega)

/-- Class E-g with opcode 1100: bits 15..8. -/
theorem and_FF00_eq_iff : w &&& 0xFF00#16 = 0xCE00#16 ↔ w.toNat / 4096 = 12 ∧ w.toNat / 256 % 16 = 14 := by
  have hw := w.isLt
  exact (and_fieldMask_eq_iff w 8 8 206 (by decide) (by decide)).trans (by omega)

/-- Class E-g with opcode 1010: bits 15..7. -/
theorem and_FF80_eq_iff : w &&& 0xFF80#16 = 0xAE80#16 ↔
    w.toNat / 4096 = 10 ∧ w.toNat / 256 % 16 = 14 ∧ w.toNat / 128 % 2 = 1 := by
  have hw := w.isLt
  exact (and_fieldMask_eq_iff w 7 9 349 (by decide) (by decide)).trans (by omega)

/-- Class E-h: bits 5..0. -/
theorem and_003F_eq_iff : w &&& 0x003F#16 = 0x001F#16 ↔ w.toNat % 64 = 31 :=
  (and_fieldMask_eq_iff w 0 6 31 (by decide) (by decide)).trans (by omega)

/-- Class E-h: the sub-opcodes of format S. -/
theorem countWord_range_iff : 0xD000 ≤ w.toNat ∧ w.toNat < 0xDC00 ↔ w.toNat / 4096 = 13 ∧ w.toNat / 512 % 8 < 6 := by
  omega

end Masks

/-- Settles O4: each class of R186's table as arithmetic on the word's fields, and then opcode by opcode. -/
theorem reservedWordsRefused : Obligations.ReservedWordsRefused := by
  intro w ws
  change Refused (decodeWords (w :: ws)) ↔ _
  have opcode := and_F000_eq_iff w
  have param := and_FFC0_eq_iff w
  have aB : w &&& 0xF000#16 = 0xB000#16 ↔ _ := opcode 11 (by decide)
  have aE : w &&& 0xF000#16 = 0xE000#16 ↔ _ := opcode 14 (by decide)
  have aF : w &&& 0xF000#16 = 0xF000#16 ↔ _ := opcode 15 (by decide)
  have c2 : w &&& 0xFFC0#16 = 0xDE80#16 ↔ _ := param 2 (by decide)
  have c3 : w &&& 0xFFC0#16 = 0xDEC0#16 ↔ _ := param 3 (by decide)
  have c5 : w &&& 0xFFC0#16 = 0xDF40#16 ↔ _ := param 5 (by decide)
  have c6 : w &&& 0xFFC0#16 = 0xDF80#16 ↔ _ := param 6 (by decide)
  have d : w &&& 0xFFC0#16 = 0xDFC0#16 ↔ _ := param 7 (by decide)
  have e : w &&& 0x0F00#16 ≠ 0x0F00#16 ↔ w.toNat / 256 % 16 ≠ 15 :=
    not_congr (and_fieldMask_eq_iff w 8 4 15 (by decide) (by decide))
  have fCall : w &&& 0xF0C0#16 = 0xA0C0#16 ↔ _ := and_F0C0_eq_iff w 10 (by decide) (by decide) (by decide)
  have fJump : w &&& 0xF0C0#16 = 0xC0C0#16 ↔ _ := and_F0C0_eq_iff w 12 (by decide) (by decide) (by decide)
  have hNot : w &&& 0xFFC0#16 = 0xDE00#16 ↔ _ := param 0 (by decide)
  have hNeg : w &&& 0xFFC0#16 = 0xDE40#16 ↔ _ := param 1 (by decide)
  have hCbw : w &&& 0xFFC0#16 = 0xDF00#16 ↔ _ := param 4 (by decide)
  have hDual : w.toNat < 0xA000 ↔ w.toNat / 4096 < 10 := by omega
  rw [decodeWords_refused_iff, decodeCall_refused_iff, decodeJump_refused_iff, decodeSingles_refused_iff,
    decodeUnary_refused_iff, aB, aE, aF, and_FE00_eq_iff, c2, c3, c5, c6, d, and_F080_eq_iff, e, fCall, fJump, and_FF00_eq_iff,
    and_FF80_eq_iff, and_003F_eq_iff, hDual, countWord_range_iff, hNot, hNeg, hCbw]
  have hop : w.toNat / 4096 < 16 := by have := w.isLt; omega
  clear aB aE aF c2 c3 c5 c6 d e fCall fJump hNot hNeg hCbw hDual opcode param
  generalize w.toNat / 4096 = op at *
  interval_cases op
  all_goals simp only [Nat.reduceLT, Nat.reduceEqDiff, true_and, false_and, and_true, and_false, or_true, false_or, or_false]
  -- Left are the opcodes 1010, 1100 and 1101.
  · tauto
  · exact or_comm
  · tauto

end Sys2Proof
end

section
/-! SUPPORT. Memory and the control registers (20_memory.md R142 to R148, 10_state.md R112 to R128): parity of addresses, single
bytes and words, what a store leaves, and which registers, bytes and words can be accessed. -/

namespace Sys2Proof.Machine

/-! Parity (20_memory.md R143). -/

theorem getLsbD_zero_eq_true {a : Word} : a.getLsbD 0 = true ↔ a.toNat % 2 = 1 := by simp [BitVec.getLsbD]

theorem getLsbD_zero_eq_false {a : Word} : a.getLsbD 0 = false ↔ a.toNat % 2 = 0 := by simp [BitVec.getLsbD]

theorem isControlWord_iff {a : Word} : isControlWord a = true ↔ a = flagsAddr ∨ a = regbankAddr ∨ a = intEnableAddr := by
  simp [isControlWord, or_assoc]

/-- The three control registers lie at even addresses (20_memory.md R144). -/
theorem isControlWord_of_odd {a : Word} (h : a.toNat % 2 = 1) : isControlWord a = false := by
  by_contra hc
  obtain rfl | rfl | rfl := isControlWord_iff.mp (Bool.not_eq_false _ ▸ hc)
  all_goals exact absurd h (by decide)

theorem toNat_add_one_of_even {a : Word} (h : a.toNat % 2 = 0) : (a + 1).toNat = a.toNat + 1 := by
  have := a.isLt
  rw [BitVec.toNat_add]
  simp
  omega

theorem toNat_sub_one_of_odd {a : Word} (h : a.toNat % 2 = 1) : (a - 1).toNat = a.toNat - 1 := by
  have := a.isLt
  rw [BitVec.toNat_sub]
  simp
  omega

/-- The bytes of a word that is no control register belong to none (R145). -/
theorem isControlByte_of_even {a : Word} (h : a.toNat % 2 = 0) (hc : isControlWord a = false) : isControlByte a = false := by
  have below_odd : (a - 1).toNat % 2 = 1 := by
    have := a.isLt
    rw [BitVec.toNat_sub]
    simp
    omega
  rw [isControlByte, hc, isControlWord_of_odd below_odd]
  rfl

theorem isControlByte_add_one {a : Word} (h : a.toNat % 2 = 0) (hc : isControlWord a = false) :
    isControlByte (a + 1) = false := by
  have odd : (a + 1).toNat % 2 = 1 := by
    rw [toNat_add_one_of_even h]
    omega
  rw [isControlByte, isControlWord_of_odd odd, BitVec.add_sub_cancel, hc]
  rfl

/-! Bytes of a word, zero-extended (40_operands.md R209). -/

theorem zeroExtend_lowByte (v : Word) : zeroExtend (lowByte v) = v &&& 0x00FF#16 := by
  apply BitVec.eq_of_toNat_eq
  refine Eq.trans ?_ (toNat_and_fieldMask v 0 8 (by decide)).symm
  simp [zeroExtend, lowByte]
  omega

theorem zeroExtend_highByte (v : Word) : zeroExtend (highByte v) = v >>> 8 := by
  apply BitVec.eq_of_toNat_eq
  have := v.isLt
  simp [zeroExtend, highByte, Nat.shiftRight_eq_div_pow]
  omega

/-! Reset (70_reset_and_hazards.md R350; logs 3 to 6, 15). -/

/-- Settles O7: the two fields, evaluated. -/
theorem resetValues : Obligations.ResetValues := ⟨rfl, rfl⟩

/-- Settles O8: the sixteen registers and the other fields, evaluated. -/
theorem resetChoices : Obligations.ResetChoices := by
  refine ⟨?registers, rfl, rfl, rfl, rfl⟩
  decide

/-- Settles O9: the memory by its law, `pc` evaluated. -/
theorem resetMeetsInvariant : Obligations.ResetMeetsInvariant := ⟨reset_wf, rfl⟩

/-! Stores. -/

/-- A byte of an aligned word that can be read can itself be read (20_memory.md R144). -/
theorem readable_bytes_of_word {a : Word} {s : State} (hc : isControlWord a = false) (h : Readable .word a s) :
    Readable .byte a s ∧ Readable .byte (a + 1) s := by
  unfold Readable readFault at h
  simp only [hc, Bool.false_eq_true, if_false] at h
  split_ifs at h with heven
  obtain ⟨hlo, hhi⟩ := Option.or_eq_none_iff.mp h
  have heven := getLsbD_zero_eq_false.mp (Bool.eq_false_iff.mpr heven)
  exact ⟨(if_neg (by rw [isControlByte_of_even heven hc]; decide)).trans hlo,
    (if_neg (by rw [isControlByte_add_one heven hc]; decide)).trans hhi⟩

/-- The two bytes that a word store leaves in plain memory (R142). -/
theorem byteAt_poke_word {a : Word} (hc : isControlWord a = false) (v : Word) (s : State) (hwf : s.mem.wf) :
    byteAt (poke .word a v s) a = lowByte v ∧ byteAt (poke .word a v s) (a + 1) = highByte v := by
  rw [poke_word_of_not_control hc]
  exact ⟨by rw [byteAt_putByte_of_ne _ _ (add_one_ne_self a).symm, byteAt_putByte_self _ _ _ hwf],
    byteAt_putByte_self _ _ _ (putByte_wf _ _ _ hwf)⟩

/-- Settles O14: what goes through by the checks of the store, the bytes by what it leaves in memory. -/
theorem storeThenLoad : Obligations.StoreThenLoad := by
  intro s a v hwf
  constructor
  case left =>
    intro hc hw
    have hr := readable_of_writable hw
    obtain ⟨hlo, hhi⟩ := readable_bytes_of_word hc hr
    obtain ⟨lo, hi⟩ := byteAt_poke_word hc v s hwf
    refine ⟨poke .word a v s, store_eq_ok.mpr ⟨hw, rfl⟩, load_eq_ok.mpr ⟨?_, peek_poke_word_self hc v s hwf⟩,
      load_eq_ok.mpr ⟨?_, ?_⟩, load_eq_ok.mpr ⟨?_, ?_⟩⟩
    · exact (readFault_poke ..).trans hr
    · exact (readFault_poke ..).trans hlo
    · rw [peek, lo, zeroExtend_lowByte]
    · exact (readFault_poke ..).trans hhi
    · rw [peek, hi, zeroExtend_highByte]
  case right =>
    intro hw
    have byte_stored : byteAt (poke .byte a v s) a = lowByte v := byteAt_putByte_self s a (lowByte v) hwf
    refine ⟨poke .byte a v s, store_eq_ok.mpr ⟨hw, rfl⟩, load_eq_ok.mpr ⟨?_, ?_⟩, fun b hb => ?_⟩
    · exact (readFault_poke ..).trans (readable_of_writable hw)
    · rw [peek, byte_stored, zeroExtend_lowByte]
    · exact byteAt_putByte_of_ne s (lowByte v) hb

/-- A word store to a control register changes no memory (R144). -/
theorem poke_word_control_mem {a : Word} (hc : isControlWord a = true) (v : Word) (s : State) :
    (poke .word a v s).mem = s.mem := by
  obtain rfl | rfl | rfl := isControlWord_iff.mp hc
  all_goals rfl

/-- A byte of a control register can neither be read nor written (R145). -/
theorem not_writable_byte_control {a : Word} (hc : isControlWord a = true) (s : State) : ¬ Writable .byte a s := by
  simp [Writable, writeFault, isControlByte, hc]

/-- A store leaves every byte but its own alone. -/
theorem byteAt_poke_of_notMem {w : Width} {a b : Word} (v : Word) (s : State) (h : b ∉ accessBytes w a) :
    byteAt (poke w a v s) b = byteAt s b := by
  refine byteAt_poke_of_ne w a v s (fun e => h ?_) (fun hw e => h ?_)
  · cases w <;> simp [accessBytes, e]
  · simp [accessBytes, hw, e]

/-- A store touches no latch and no parameter. -/
theorem poke_inputs (w : Width) (a v : Word) (s : State) : SameInterruptInputs s (poke w a v s) :=
  ⟨poke_pend .., poke_irqInputs .., poke_params ..⟩

/-- Settles O15: the laws of what a store leaves. -/
theorem storeFrame : Obligations.StoreFrame := by
  intro w a v s t h
  obtain ⟨hw, rfl⟩ := store_eq_ok.mp h
  refine ⟨fun b hb => byteAt_poke_of_notMem v s hb, fun hc => ?_, poke_pc .., poke_inputs .., poke_flags_of_ne w a v s,
    poke_regbank_of_ne w a v s, poke_intEnable_of_ne w a v s⟩
  cases w with
  | word => exact poke_word_control_mem hc v s
  | byte => exact absurd hw (not_writable_byte_control hc s)

/-! Registers (10_state.md R112). -/

theorem isReadWrite_iff {s : State} {a : Word} :
    isReadWrite s a = true ↔ kindAt s.params.memMap a = .ram ∨ kindAt s.params.memMap a = .external := by
  cases h : kindAt s.params.memMap a <;> simp [isReadWrite, h]

/-- A register that is not ready stops every access by the same name (93_implementation_defined.md U14). -/
theorem register_stops {i : RegNum} {s : State} (h : ¬ RegReady i s) :
    readReg i s = .error (.bankNotMemory (regAddr i s)) ∧
      ∀ v : Word, writeReg i v s = .error (.bankNotMemory (regAddr i s)) := by
  have hfault : regFault i s = some (.bankNotMemory (regAddr i s)) := by
    unfold RegReady regFault at h
    simp only at h
    split_ifs at h with hr
    · exact absurd rfl h
    · simp only [regFault, if_neg hr]
  simp [readReg, writeReg, hfault]

/-- Settles O17: a register is ready exactly where its two bytes are plain read-write memory, and else stops. -/
theorem registerBankMustBeMemory : Obligations.RegisterBankMustBeMemory := by
  intro i s
  simp only [regBytes, accessBytes, List.forall_mem_cons, List.not_mem_nil, false_implies, implies_true, and_true,
    List.exists_mem_cons_iff, false_and, exists_false, or_false]
  constructor
  · rintro ⟨hc, hlo, hhi⟩
    exact regReady_iff.mpr ⟨hc, isReadWrite_iff.mpr hlo, isReadWrite_iff.mpr hhi⟩
  · intro h
    refine register_stops fun hready => ?_
    obtain ⟨hc, hlo, hhi⟩ := regReady_iff.mp hready
    rw [isReadWrite_iff] at hlo hhi
    obtain h | ⟨hram, hext⟩ | ⟨hram, hext⟩ := h
    · exact nomatch h.symm.trans hc
    · exact hlo.elim hram hext
    · exact hhi.elim hram hext

/-! The control registers, word by word. -/

/-- A word access to a control register is never refused (20_memory.md R144). -/
theorem readable_control {a : Word} (hc : isControlWord a = true) (s : State) : Readable .word a s := by
  obtain rfl | rfl | rfl := isControlWord_iff.mp hc
  all_goals rfl

theorem writable_control {a : Word} (hc : isControlWord a = true) (s : State) : Writable .word a s := by
  obtain rfl | rfl | rfl := isControlWord_iff.mp hc
  all_goals rfl

/-- The flags as a number (10_state.md R117 to R123). -/
theorem Flags.toWord_eq (f : Flags) :
    f.toWord = BitVec.ofNat 16 (f.z.toNat + 2 * f.c.toNat + 4 * f.o.toNat + 8 * f.s.toNat + 16 * f.i.toNat) := by
  obtain ⟨z, c, o, s, i⟩ := f
  revert z c o s i
  decide

/-- Writing the flags keeps the five bits of the word (R123). -/
theorem Flags.toWord_ofWord (v : Word) : (Flags.ofWord v).toWord = v &&& 0x001F#16 := by
  have bits : ∀ z c o s i : Bool, (⟨z, c, o, s, i⟩ : Flags).toWord =
      BitVec.ofNat 16 (z.toNat + 2 * c.toNat + 4 * o.toNat + 8 * s.toNat + 16 * i.toNat) :=
    fun z c o s i => Flags.toWord_eq ⟨z, c, o, s, i⟩
  apply BitVec.eq_of_toNat_eq
  refine Eq.trans ?_ (toNat_and_fieldMask v 0 5 (by decide)).symm
  rw [Flags.ofWord, bits]
  simp only [BitVec.getLsbD, Nat.testBit_eq_decide_div_mod_eq, BitVec.toNat_ofNat]
  have bit_toNat : ∀ n : Nat, (decide (n % 2 = 1)).toNat = n % 2 := fun n => by
    rcases Nat.mod_two_eq_zero_or_one n with h | h <;> simp [h]
  simp only [bit_toNat]
  omega

/-- Settles O19: both accesses go through; the value by the flags as a number. -/
theorem flagsRegister : Obligations.FlagsRegister := by
  intro s v
  refine ⟨load_eq_ok.mpr ⟨readable_control rfl s, s.flags.toWord_eq⟩, poke .word flagsAddr v s,
    store_eq_ok.mpr ⟨writable_control rfl s, rfl⟩, load_eq_ok.mpr ⟨readable_control rfl _, ?_⟩, rfl, rfl, rfl⟩
  exact Flags.toWord_ofWord v

/-- Settles O20: both accesses go through, and the store changes its one field. -/
theorem interruptEnableRegister : Obligations.InterruptEnableRegister := fun s v =>
  ⟨poke .word intEnableAddr v s, store_eq_ok.mpr ⟨writable_control rfl s, rfl⟩,
    load_eq_ok.mpr ⟨readable_control rfl _, rfl⟩, rfl, rfl, rfl, rfl, rfl, rfl⟩

/-- Settles O22: each of the six bytes belongs to a control register. -/
theorem controlByteAccessStops : Obligations.ControlByteAccessStops := by
  intro a v s ha
  have hc : isControlByte a = true := by
    revert ha
    simp only [List.mem_cons, List.not_mem_nil, or_false]
    rintro (rfl | rfl | rfl | rfl | rfl | rfl)
    all_goals rfl
  simp [load, store, readFault, writeFault, hc]

end Sys2Proof.Machine
end

section
/-! SUPPORT. An operand's address (40_operands.md R203 to R211): the access made there, and the frame of reading and of writing an
operand. -/

namespace Sys2Proof.Machine

/-! The access at an operand's address. -/

/-- Only `[r15]` has another address where it is written than where it is read and written (R207). -/
theorem operandAddress_readWrite {op : Operand} (h : op ≠ .stack) (s : State) :
    operandAddress .readWrite op s = operandAddress .write op s := by
  cases op with
  | stack => exact absurd rfl h
  | _ => rfl

theorem operandAddress_stack_write {a : Word} {s : State} :
    operandAddress .write .stack s = .ok a ↔ RegReady spReg s ∧ stackPointer s - 2#16 = a := by
  rw [operandAddress, bind_eq_ok]
  constructor
  · rintro ⟨_, hread, h⟩
    obtain ⟨hready, rfl⟩ := readReg_eq_ok.mp hread
    exact ⟨hready, Except.ok.inj h⟩
  · rintro ⟨hready, rfl⟩
    exact ⟨_, readReg_eq_ok.mpr ⟨hready, rfl⟩, rfl⟩

/-- Reading an operand is a read at its address, of its width (R203 to R211). -/
theorem source_at_address {op : Operand} {s : State} {a : Word} (h : SourceReady op s)
    (ha : operandAddress .read op s = .ok a) :
    Readable (operandWidth op) a s ∧ sourceValue op s = peek (operandWidth op) a s := by
  cases op with
  | reg r =>
    cases ha
    exact ⟨readable_of_writable (RegReady.writable h), (peek_word_of_not_control (RegReady.not_control h) s).symm⟩
  | imm v => cases ha
  | stack =>
    obtain ⟨-, rfl⟩ := operandAddress_stack_read.mp ha
    exact ⟨h.2, rfl⟩
  | ind w p | autoInc w p =>
    obtain ⟨-, rfl⟩ := readReg_eq_ok.mp ha
    exact ⟨h.2, rfl⟩
  | direct w a =>
    cases ha
    exact ⟨h, rfl⟩
  | index w p off =>
    obtain ⟨-, rfl⟩ := operandAddress_index.mp ha
    exact ⟨h.2, rfl⟩

/-- Writing an operand is a store at its address, of its width; `[r15]` moves its register before it and Auto Increment after it
(R207, R210). -/
theorem written_at_address {op : Operand} {v : Word} {s : State} {a : Word} (h : DstWritable op v s)
    (ha : operandAddress .write op s = .ok a) : Writable (operandWidth op) a s ∧
      (written op v s = poke (operandWidth op) a v s ∨
        (op = .stack ∧ written op v s = poke .word a v (pokeReg spReg a s)) ∨
        ∃ w p, op = .autoInc w p ∧ written op v s = pokeReg (ptrReg p) (a + sizeOf w) (poke w a v s)) := by
  cases op with
  | reg r =>
    cases ha
    exact ⟨RegReady.writable h, .inl (poke_word_of_not_control (RegReady.not_control h) v s).symm⟩
  | imm v => cases ha
  | stack =>
    obtain ⟨-, rfl⟩ := operandAddress_stack_write.mp ha
    exact ⟨h.2, .inr (.inl ⟨rfl, rfl⟩)⟩
  | ind w p =>
    obtain ⟨-, rfl⟩ := readReg_eq_ok.mp ha
    exact ⟨h.2, .inl rfl⟩
  | direct w a =>
    cases ha
    exact ⟨h, .inl rfl⟩
  | autoInc w p =>
    obtain ⟨-, rfl⟩ := readReg_eq_ok.mp ha
    exact ⟨h.2.1, .inr (.inr ⟨w, p, rfl, rfl⟩)⟩
  | index w p off =>
    obtain ⟨-, rfl⟩ := operandAddress_index.mp ha
    exact ⟨h.2, .inl rfl⟩

/-! The frame of a write. -/

/-- A register write leaves every byte but the register's own alone. -/
theorem byteAt_pokeReg_of_notMem {i : RegNum} {b : Word} (v : Word) {s : State} (h : b ∉ regBytes i s) :
    byteAt (pokeReg i v s) b = byteAt s b := by
  simp only [regBytes, accessBytes, List.mem_cons, List.not_mem_nil, or_false, not_or] at h
  exact byteAt_pokeReg_of_ne i v s h.1 h.2

section Written

variable {op : Operand} {v : Word} {s : State} {a : Word} (h : DstWritable op v s)
  (ha : operandAddress .write op s = .ok a)
include h ha

theorem written_flags_of_ne (hne : a ≠ flagsAddr) : (written op v s).flags = s.flags := by
  obtain ⟨-, hw | ⟨-, hw⟩ | ⟨w, p, -, hw⟩⟩ := written_at_address h ha
  all_goals
    rw [hw]
    exact poke_flags_of_ne _ _ _ _ hne

theorem written_regbank_of_ne (hne : a ≠ regbankAddr) : (written op v s).regbank = s.regbank := by
  obtain ⟨-, hw | ⟨-, hw⟩ | ⟨w, p, -, hw⟩⟩ := written_at_address h ha
  all_goals
    rw [hw]
    exact poke_regbank_of_ne _ _ _ _ hne

theorem written_intEnable_of_ne (hne : a ≠ intEnableAddr) : (written op v s).intEnable = s.intEnable := by
  obtain ⟨-, hw | ⟨-, hw⟩ | ⟨w, p, -, hw⟩⟩ := written_at_address h ha
  all_goals
    rw [hw]
    exact poke_intEnable_of_ne _ _ _ _ hne

/-- Writing a destination changes no byte but its own, `r15`'s before the write where the operand is `[r15]`, and those of the
register that Auto Increment moves, in the bank after the write (10_state.md R115; log 19). -/
theorem byteAt_written {b : Word} (hb : b ∉ accessBytes (operandWidth op) a)
    (hs : op = .stack → b ∉ sideEffectBytes op s) (ht : b ∉ sideEffectBytes op (written op v s)) :
    byteAt (written op v s) b = byteAt s b := by
  obtain ⟨-, hw | ⟨rfl, hw⟩ | ⟨w, p, rfl, hw⟩⟩ := written_at_address h ha
  · rw [hw]
    exact byteAt_poke_of_notMem v s hb
  · rw [hw]
    exact (byteAt_poke_of_notMem v _ hb).trans (byteAt_pokeReg_of_notMem a (hs rfl))
  · rw [hw] at ht ⊢
    have hreg : b ∉ regBytes (ptrReg p) (poke w a v s) := ht
    exact (byteAt_pokeReg_of_notMem _ hreg).trans (byteAt_poke_of_notMem v s hb)

end Written

/-! REGBANK through an operand (10_state.md R115, R116). -/

/-- No byte of a control register is read alone (20_memory.md R145). -/
theorem not_readable_byte_control {a : Word} (hc : isControlWord a = true) (s : State) : ¬ Readable .byte a s := by
  simp [Readable, readFault, isControlByte, hc]

/-- What REGBANK reads as: its upper 11 bits, and its lower five by REGBANK_LOW_READ (R116). -/
theorem regbankRead_spec (s : State) : (regbankRead s).toNat / 32 = s.regbank.toNat / 32 ∧
    (s.params.regbankLowRead = true → regbankRead s = s.regbank) ∧
      (s.params.regbankLowRead = false → (regbankRead s).toNat % 32 = 0) := by
  unfold regbankRead
  split_ifs with hlow
  · simp [hlow]
  · rw [toNat_and_bankMask, Nat.shiftLeft_eq]
    simp [hlow]

/-- A register's address in a given bank (R112). -/
theorem regAddr_toNat_of_regbank {t : State} {v : Word} (h : t.regbank = v) (i : RegNum) :
    (regAddr i t).toNat = v.toNat / 32 * 32 + 2 * i.val := by rw [regAddr_toNat, h]

/-- A write through any operand at REGBANK's address: the new bank, and no byte but the moved register's (R115). -/
theorem regbank_written {op : Operand} {v : Word} {s : State} (h : DstWritable op v s)
    (ha : operandAddress .write op s = .ok regbankAddr) : (written op v s).regbank = v ∧
      ∀ b : Word, b ∉ sideEffectBytes op s → b ∉ sideEffectBytes op (written op v s) →
        byteAt (written op v s) b = byteAt s b := by
  have poke_mem (u : State) (b : Word) : byteAt (poke .word regbankAddr v u) b = byteAt u b := by
    rw [byteAt, poke_word_control_mem rfl]
    rfl
  obtain ⟨hwritable, hcases⟩ := written_at_address h ha
  have hword : operandWidth op = .word := by
    cases hw : operandWidth op with
    | word => rfl
    | byte => exact absurd (hw ▸ hwritable) (not_writable_byte_control rfl s)
  obtain hw | ⟨rfl, hw⟩ | ⟨w, p, rfl, hw⟩ := hcases
  · rw [hw, hword]
    exact ⟨rfl, fun b _ _ => poke_mem s b⟩
  · rw [hw]
    exact ⟨rfl, fun b hs _ => (poke_mem _ b).trans (byteAt_pokeReg_of_notMem _ hs)⟩
  · obtain rfl : w = .word := hword
    rw [hw]
    refine ⟨rfl, fun b _ ht => ?_⟩
    have hreg : b ∉ regBytes (ptrReg p) (poke .word regbankAddr v s) := ht
    exact (byteAt_pokeReg_of_notMem _ hreg).trans (poke_mem s b)

/-- Settles O18: the store by the field it changes, the operands by the access at their address. -/
theorem regbankSwitch : Obligations.RegbankSwitch := by
  refine ⟨rfl, ?store, ?written, ?read⟩
  case store =>
    intro s v
    obtain ⟨hhigh, htrue, hfalse⟩ := regbankRead_spec (poke .word regbankAddr v s)
    exact ⟨poke .word regbankAddr v s, _, store_eq_ok.mpr ⟨writable_control rfl s, rfl⟩, poke_word_control_mem rfl v s,
      regAddr_toNat_of_regbank rfl, load_eq_ok.mpr ⟨readable_control rfl _, rfl⟩, hhigh, htrue, hfalse⟩
  case written =>
    intro op s t v ha h
    obtain ⟨hdst, rfl⟩ := writeDst_eq_ok.mp h
    obtain ⟨hbank, hbytes⟩ := regbank_written hdst ha
    exact ⟨hbank, regAddr_toNat_of_regbank hbank, hbytes⟩
  case read =>
    intro op s t u ha h
    obtain ⟨hready, rfl, rfl⟩ := readOperand_eq_ok.mp h
    obtain ⟨hreadable, hvalue⟩ := source_at_address hready ha
    obtain ⟨hhigh, htrue, hfalse⟩ := regbankRead_spec s
    have hread : sourceValue op s = regbankRead s := by
      rw [hvalue]
      cases hw : operandWidth op with
      | word => rfl
      | byte => exact absurd (hw ▸ hreadable) (not_readable_byte_control rfl s)
    rw [hread]
    exact ⟨hhigh, sourceAfter_regbank op s, htrue, hfalse⟩

end Sys2Proof.Machine
end

section
/-! SUPPORT. Why an access stops (20_memory.md R143 to R148): the equations of the checks by width, odd addresses, and MEMMAP; and
the step by what it recognises and fetches (70_reset_and_hazards.md R356). -/

namespace Sys2Proof.Machine

/-! A load or a store stops exactly for its fault. -/

theorem load_eq_error {w : Width} {a : Word} {s : State} {f : Fault} :
    load w a s = .error f ↔ readFault w a s = some f := by
  cases h : readFault w a s <;> simp [load, h]

theorem store_eq_error {w : Width} {a v : Word} {s : State} {f : Fault} :
    store w a v s = .error f ↔ writeFault w a s = some f := by
  cases h : writeFault w a s <;> simp [store, h]

/-! The checks, by width. -/

section Checks

variable {a : Word} (s : State)

theorem readFault_word_of_odd (h : a.toNat % 2 = 1) : readFault .word a s = some (.misalignedWord a) :=
  if_pos (getLsbD_zero_eq_true.mpr h)

theorem writeFault_word_of_odd (h : a.toNat % 2 = 1) : writeFault .word a s = some (.misalignedWord a) :=
  if_pos (getLsbD_zero_eq_true.mpr h)

theorem readFault_word_of_even (h : a.toNat % 2 = 0) (hc : isControlWord a = false) :
    readFault .word a s = (byteReadFault s a).or (byteReadFault s (a + 1)) := by
  simp only [readFault, getLsbD_zero_eq_false.mpr h, hc, Bool.false_eq_true, if_false]

theorem writeFault_word_of_even (h : a.toNat % 2 = 0) (hc : isControlWord a = false) :
    writeFault .word a s = (byteWriteFault s a).or (byteWriteFault s (a + 1)) := by
  simp only [writeFault, getLsbD_zero_eq_false.mpr h, hc, Bool.false_eq_true, if_false]

theorem readFault_byte (hc : isControlByte a = false) : readFault .byte a s = byteReadFault s a := by
  simp only [readFault, hc, Bool.false_eq_true, if_false]

theorem writeFault_byte (hc : isControlByte a = false) : writeFault .byte a s = byteWriteFault s a := by
  simp only [writeFault, hc, Bool.false_eq_true, if_false]

/-- A byte access is refused for what lies at its address, never for its alignment (R143). -/
theorem readFault_byte_ne_misaligned (b : Word) : readFault .byte a s ≠ some (.misalignedWord b) := by
  cases hc : isControlByte a with
  | true => simp [readFault, hc]
  | false =>
    rw [readFault_byte s hc]
    cases hk : kindAt s.params.memMap a <;> simp [byteReadFault, hk]

theorem writeFault_byte_ne_misaligned (b : Word) : writeFault .byte a s ≠ some (.misalignedWord b) := by
  cases hc : isControlByte a with
  | true => simp [writeFault, hc]
  | false =>
    rw [writeFault_byte s hc]
    cases hk : kindAt s.params.memMap a <;> simp [byteWriteFault, hk]

end Checks

/-- Settles O23: a byte access by what MEMMAP says of it, a word access by its two bytes in turn. -/
theorem memoryMapDecidesAccess : Obligations.MemoryMapDecidesAccess := by
  constructor
  case left =>
    intro a v s hc
    have hr := readFault_byte s hc
    have hw := writeFault_byte s hc
    cases hk : kindAt s.params.memMap a
    all_goals simp [load, store, hr, hw, byteReadFault, byteWriteFault, hk]
  case right =>
    intro a v s heven hc stopAt
    have hr := readFault_word_of_even s heven hc
    have hw := writeFault_word_of_even s heven hc
    have stop_read (b : Word) : stopAt false b = byteReadFault s b := by
      cases hk : kindAt s.params.memMap b <;> simp [stopAt, byteReadFault, hk]
    have stop_write (b : Word) : stopAt true b = byteWriteFault s b := by
      cases hk : kindAt s.params.memMap b <;> simp [stopAt, byteWriteFault, hk]
    simp only [stop_read, stop_write]
    refine ⟨fun hlo hhi => ?_, fun hlo hhi => ?_, fun f =>
      ⟨fun hlo => ?_, fun hlo => ?_, fun hlo hhi => ?_, fun hlo hhi => ?_⟩⟩
    · exact ⟨_, load_eq_ok.mpr ⟨by rw [Readable, hr, hlo, hhi]; rfl, rfl⟩⟩
    · exact ⟨_, store_eq_ok.mpr ⟨by rw [Writable, hw, hlo, hhi]; rfl, rfl⟩⟩
    · exact load_eq_error.mpr (by rw [hr, hlo]; rfl)
    · exact store_eq_error.mpr (by rw [hw, hlo]; rfl)
    · exact load_eq_error.mpr (by rw [hr, hlo, hhi]; rfl)
    · exact store_eq_error.mpr (by rw [hw, hlo, hhi]; rfl)

/-! The step. -/

/-- Where an interrupt is recognised the step takes it (R356). -/
theorem step_of_recognised {s : State} {n : Fin 48} (hr : recognise (latchRequests s) = some n) :
    step s = toOutcome (takeInterrupt n (latchRequests s)) := by simp only [step, hr]

/-- Where none is, the step runs the instruction it fetches. -/
theorem step_of_fetched {s u : State} {i : Instr} (hr : recognise (latchRequests s) = none)
    (hf : fetchInstr (latchRequests s) = .ok (i, u)) : step s = exec i u := by simp only [step, hr, hf]

/-- A fetch that stops is the step that stops. -/
theorem step_of_fetch_fault {s : State} {f : Fault} (hr : recognise (latchRequests s) = none)
    (hf : fetchInstr (latchRequests s) = .error f) : step s = .fault f := by simp only [step, hr, hf]

theorem fetchWord_eq_ok {s u : State} {w : Word} : fetchWord s = .ok (w, u) ↔
    Readable .word s.pc s ∧ peek .word s.pc s = w ∧ s.setPc (s.pc + 2#16) = u := by
  simp only [fetchWord, bind_eq_ok, load_eq_ok, pure_eq_ok, Prod.mk.injEq]
  constructor
  · rintro ⟨_, ⟨hr, rfl⟩, rfl, rfl⟩
    exact ⟨hr, rfl, rfl⟩
  · rintro ⟨hr, rfl, rfl⟩
    exact ⟨_, ⟨hr, rfl⟩, rfl, rfl⟩

/-- The first word of an instruction may be refused as any word access is. -/
theorem fetchInstr_of_load_fault {s : State} {f : Fault} (h : load .word s.pc s = .error f) : fetchInstr s = .error f :=
  bind_eq_error.mpr (.inl (bind_eq_error.mpr (.inl h)))

/-- Settles O21: the odd words by the first check of each access, the even addresses as arithmetic. -/
theorem misalignedWordStops : Obligations.MisalignedWordStops := by
  refine ⟨?words, ?fetch, ?stack, ?registers, ?vectors, ?bytes⟩
  case words =>
    exact fun a v s h => ⟨load_eq_error.mpr (readFault_word_of_odd s h), store_eq_error.mpr (writeFault_word_of_odd s h)⟩
  case fetch =>
    intro s hodd hr
    refine step_of_fetch_fault hr (fetchInstr_of_load_fault (load_eq_error.mpr ?_))
    rw [latchRequests_pc]
    exact readFault_word_of_odd _ hodd
  case stack =>
    intro v s hready hodd
    have hread : readReg spReg s = .ok (stackPointer s) := readReg_eq_ok.mpr ⟨hready, rfl⟩
    have hwrite : writeReg spReg (stackPointer s - 2#16) s = .ok (pokeReg spReg (stackPointer s - 2#16) s) :=
      writeReg_eq_ok.mpr ⟨hready, rfl⟩
    have below_odd : (stackPointer s - 2#16).toNat % 2 = 1 := by
      rw [BitVec.toNat_sub]
      simp
      omega
    constructor
    · exact bind_eq_error.mpr (.inr ⟨_, hread, bind_eq_error.mpr (.inl (load_eq_error.mpr (readFault_word_of_odd s hodd)))⟩)
    · exact bind_eq_error.mpr (.inr ⟨_, hread, bind_eq_error.mpr (.inr ⟨_, hwrite,
        store_eq_error.mpr (writeFault_word_of_odd _ below_odd)⟩)⟩)
  case registers => exact fun i s => getLsbD_zero_eq_false.mp (regAddr_getLsbD_zero i s)
  case vectors =>
    intro v
    rw [vectorAddr_eq, BitVec.toNat_ofNat]
    omega
  case bytes =>
    exact fun a b v s => ⟨fun h => readFault_byte_ne_misaligned s b (load_eq_error.mp h),
      fun h => writeFault_byte_ne_misaligned s b (store_eq_error.mp h)⟩

/-- A latched request changes nothing a read delivers. -/
@[simp] theorem peek_latchRequests (w : Width) (a : Word) (s : State) : peek w a (latchRequests s) = peek w a s := by
  unfold latchRequests
  split <;> cases w <;> rfl

/-- A reserved word ends the fetch before any extension word (30_encoding.md R186). -/
theorem fetchInstr_of_refused {s : State} {e : DecodeError} (hr : Readable .word s.pc s)
    (hdec : decodeWords [peek .word s.pc s, 0#16, 0#16] = .error e) : fetchInstr s = .error (.reservedEncoding e) := by
  rw [fetchInstr, fetchWord_eq_ok.mpr ⟨hr, rfl, rfl⟩]
  simp only [bind, Except.bind, hdec]

/-- Settles O53: the word is fetched, and its class is the fault. -/
theorem reservedWordStops : Obligations.ReservedWordStops := by
  intro s c hr hread hdec
  refine step_of_fetch_fault hr (fetchInstr_of_refused ?_ ?_)
  · rw [latchRequests_pc]
    exact (readFault_congr _ _ (latchRequests_params s)).trans hread
  · rw [latchRequests_pc, peek_latchRequests]
    exact hdec

end Sys2Proof.Machine
end

section
/-! SUPPORT. Fetching an instruction (30_encoding.md R170, R180): two words after the instruction word are enough to decode it, and
the fetch takes exactly those of its encoding. -/

namespace Sys2Proof

open Machine (bind_eq_error)

/-! No decoder needs more than two words after the instruction word. -/

/-- An operand takes at most one word of those that follow. -/
theorem takeOperand_cons_ne_truncated {α : Type} {f : BitVec 6} {e : Word} {ws : List Word}
    {k : Operand × List Word → Except DecodeError α}
    (hk : ∀ op rest, rest = e :: ws ∨ rest = ws → k (op, rest) ≠ .error .truncated) :
    (takeOperand f (e :: ws) >>= k) ≠ .error .truncated := by
  intro h
  obtain h | ⟨⟨op, rest⟩, htake, h⟩ := bind_eq_error.mp h
  · exact nomatch (takeOperand_eq_error h).2
  · unfold takeOperand at htake
    split_ifs at htake
    all_goals cases htake
    · exact hk _ _ (.inl rfl) h
    · exact hk _ _ (.inr rfl) h

section Truncated

variable (w e e' : Word) (ws : List Word)

theorem decodeDual_ne_truncated (mk : Operand → Operand → Instr) : decodeDual mk w (e :: e' :: ws) ≠ .error .truncated := by
  unfold decodeDual
  split_ifs
  · nofun
  · refine takeOperand_cons_ne_truncated fun src rest hrest => ?_
    obtain rfl | rfl := hrest
    all_goals exact takeOperand_cons_ne_truncated fun _ _ _ => nofun

theorem decodeSingle_ne_truncated (mk : Operand → Instr) : decodeSingle mk w (e :: ws) ≠ .error .truncated := by
  unfold decodeSingle
  split_ifs
  · nofun
  · exact takeOperand_cons_ne_truncated fun _ _ _ => nofun

theorem decodeCall_ne_truncated : decodeCall w (e :: ws) ≠ .error .truncated := by
  unfold decodeCall
  split
  · split
    · nofun
    · split_ifs
      · nofun
      · exact takeOperand_cons_ne_truncated fun _ _ _ => nofun
  · split_ifs
    all_goals nofun

theorem decodeJump_ne_truncated : decodeJump w (e :: ws) ≠ .error .truncated := by
  unfold decodeJump
  split
  · nofun
  · split_ifs
    · nofun
    · nofun
    · exact takeOperand_cons_ne_truncated fun _ _ _ => nofun
    · nofun

theorem decodeUnary_ne_truncated : decodeUnary w (e :: ws) ≠ .error .truncated := by
  unfold decodeUnary
  split
  case h_4 => split <;> nofun
  case h_5 => nofun
  all_goals exact decodeSingle_ne_truncated w e ws _

theorem decodeSingles_ne_truncated : decodeSingles w (e :: ws) ≠ .error .truncated := by
  simp only [decodeSingles]
  split
  case h_7 => exact decodeUnary_ne_truncated w e ws
  case h_8 => nofun
  all_goals exact decodeSingle_ne_truncated w e ws _

/-- Two words after the instruction word are never too few (R180). -/
theorem decodeWords_ne_truncated : decodeWords (w :: e :: e' :: ws) ≠ .error .truncated := by
  simp only [decodeWords]
  split
  case h_11 => exact decodeCall_ne_truncated w e (e' :: ws)
  case h_12 => exact decodeJump_ne_truncated w e (e' :: ws)
  case h_13 => exact decodeSingles_ne_truncated w e (e' :: ws)
  case h_14 => nofun
  all_goals exact decodeDual_ne_truncated w e e' ws _

end Truncated

/-- A word that decodes with some words after it decodes with any two: being reserved is the word's own (R186). -/
theorem decodeWords_pair_of_ok {w : Word} {ws : List Word} {p : Instr × List Word} (h : decodeWords (w :: ws) = .ok p)
    (e e' : Word) : ∃ q, decodeWords [w, e, e'] = .ok q := by
  cases hq : decodeWords [w, e, e'] with
  | ok q => exact ⟨q, rfl⟩
  | error err =>
    cases err with
    | truncated => exact absurd hq (decodeWords_ne_truncated w e e' [])
    | reserved c =>
      obtain ⟨c', hc'⟩ := ((reservedWordsRefused w [e, e']).trans (reservedWordsRefused w ws).symm).mp ⟨c, hq⟩
      exact nomatch h.symm.trans hc'

end Sys2Proof

namespace Sys2Proof.Machine

/-- Words that lie readable from `pc` on are fetched, `pc` moving past them (R170). -/
theorem fetchWords_of_readable {ws : List Word} {s : State}
    (h : ∀ k (hk : k < ws.length), Readable .word (s.pc + BitVec.ofNat 16 (2 * k)) s ∧
      peek .word (s.pc + BitVec.ofNat 16 (2 * k)) s = ws[k]) :
    fetchWords ws.length s = .ok (ws, s.setPc (s.pc + BitVec.ofNat 16 (2 * ws.length))) := by
  induction ws generalizing s with
  | nil => simp [fetchWords, State.setPc]
  | cons w ws ih =>
    obtain ⟨hr, hw⟩ := h 0 (by simp)
    simp only [Nat.mul_zero, BitVec.add_zero, List.getElem_cons_zero] at hr hw
    have next (k : Nat) : s.pc + 2#16 + BitVec.ofNat 16 (2 * k) = s.pc + BitVec.ofNat 16 (2 * (k + 1)) := by
      rw [BitVec.add_assoc, ← BitVec.ofNat_add, Nat.mul_succ, Nat.add_comm 2]
    have hrest := ih (s := s.setPc (s.pc + 2#16)) fun k hk => by
      have hnext := h (k + 1) (by simpa using hk)
      rw [setPc_pc, next]
      simpa [Readable] using hnext
    rw [setPc_pc, next] at hrest
    rw [List.length_cons, fetchWords, fetchWord_eq_ok.mpr ⟨hr, hw, rfl⟩]
    exact bind_eq_ok.mpr ⟨_, rfl, bind_eq_ok.mpr ⟨_, hrest, rfl⟩⟩

/-- A fetch of an instruction word and the extension words it needs, each readable, is the instruction they encode (R180, R188). -/
theorem fetchInstr_of_readable {w : Word} {es : List Word} {i : Instr} {s : State} (hlen : es.length = extWordsOf w)
    (hdec : decodeWords (w :: es) = .ok (i, []))
    (h : ∀ k (hk : k < (w :: es).length), Readable .word (s.pc + BitVec.ofNat 16 (2 * k)) s ∧
      peek .word (s.pc + BitVec.ofNat 16 (2 * k)) s = (w :: es)[k]) :
    fetchInstr s = .ok (i, s.setPc (s.pc + BitVec.ofNat 16 (2 * (w :: es).length))) := by
  obtain ⟨⟨w', u⟩, hfirst, hrest⟩ := bind_eq_ok.mp (fetchWords_of_readable h)
  obtain ⟨⟨es', u'⟩, hrest, heq⟩ := bind_eq_ok.mp hrest
  cases heq
  obtain ⟨q, hq⟩ := decodeWords_pair_of_ok hdec 0#16 0#16
  rw [fetchInstr, hfirst]
  simp only [bind, Except.bind, hq, ← hlen, hrest, hdec]
  rfl

/-- Settles O52: what decodes is the encoding of `i` and what is left of the three words, so the fetch is that of `i`. -/
theorem stepRunsDecodedInstruction : Obligations.StepRunsDecodedInstruction := by
  intro s i rest hr hdec hread
  obtain ⟨hwf, hwords⟩ := encodeOfDecode _ _ _ hdec
  obtain ⟨w, es, henc, hlen⟩ := encodedLength i
  have hdec' := decodeOfEncode i [] hwf
  rw [henc, List.append_nil] at hdec'
  rw [henc] at hwords
  have hcount : (w :: es).length + rest.length = 3 := by
    rw [← List.length_append, hwords]
    rfl
  have hfetch := fetchInstr_of_readable (s := latchRequests s) hlen hdec' fun k hk => by
    have hmem : (w :: es)[k] = ((w :: es) ++ rest)[k]'(by rw [List.length_append]; omega) :=
      (List.getElem_append_left hk).symm
    simp only [hwords] at hmem
    rw [latchRequests_pc, peek_latchRequests, hmem]
    refine ⟨(readFault_congr _ _ (latchRequests_params s)).trans (hread k (by omega)), ?_⟩
    have hk3 : k < 3 := by omega
    interval_cases k
    all_goals simp
  rw [step_of_fetched hr hfetch, latchRequests_pc, show (w :: es).length = 3 - rest.length by omega]

end Sys2Proof.Machine
end

section
/-! SUPPORT. The flag laws (41_dual_operand.md R230, R231) as arithmetic on the operands, and the conditions (42_program_control.md
R250), by themselves and after a compare. -/

namespace Sys2Proof.Machine

/-! The sign of a word. -/

theorem getLsbD_fifteen (x : Word) : x.getLsbD 15 = decide (32768 ≤ x.toNat) := by
  rw [← BitVec.msb_eq_getLsbD_last x, BitVec.msb_eq_decide]

theorem toInt_eq_ite (x : Word) : x.toInt = if 32768 ≤ x.toNat then (x.toNat : Int) - 65536 else x.toNat := by
  have := x.isLt
  rw [BitVec.toInt_eq_toNat_cond]
  split_ifs
  all_goals omega

/-- An overflow is an exact result outside the signed range (10_state.md R120). -/
theorem not_fitsSigned_iff (x : Int) : (!fitsSigned x) = true ↔ x < -32768 ∨ 32767 < x := by
  simp only [fitsSigned, Bool.not_eq_true', decide_eq_false_iff_not]
  omega

/-! Addition. -/

section Addition

variable (d s : Word) (cin : Bool) (f : Flags)

theorem addLaw_fst_toNat : (addLaw d s cin f).1.toNat = (d.toNat + s.toNat + cin.toNat) % 65536 := by
  rw [addLaw, BitVec.toNat_ofNat]

/-- Overflow of a sum: two operands of one sign, a result of the other (R230). -/
theorem addLaw_overflow_eq : (addLaw d s cin f).2.o =
    (~~~(d ^^^ s) &&& (d ^^^ (addLaw d s cin f).1)).getLsbD 15 := by
  have hd := d.isLt
  have hs := s.isLt
  have hc := Bool.toNat_le cin
  have hr := addLaw_fst_toNat d s cin f
  rw [Bool.eq_iff_iff]
  rw [BitVec.getLsbD_and, BitVec.getLsbD_not, BitVec.getLsbD_xor, BitVec.getLsbD_xor, getLsbD_fifteen, getLsbD_fifteen,
    getLsbD_fifteen, hr]
  refine (not_fitsSigned_iff _).trans ?_
  rw [toInt_eq_ite, toInt_eq_ite]
  by_cases hd' : 32768 ≤ d.toNat
  all_goals by_cases hs' : 32768 ≤ s.toNat
  all_goals simp [hd', hs']
  all_goals omega

end Addition

/-- Settles O24: each part of the law by its definition, the second formula of O by the operands' signs. -/
theorem additionLaw : Obligations.AdditionLaw := by
  intro d s cin f
  refine ⟨addLaw_fst_toNat d s cin f, decide_eq_true_iff, not_fitsSigned_iff _, addLaw_overflow_eq d s cin f, ?_, ?_, rfl⟩
  · exact beq_iff_eq.trans BitVec.toNat_inj.symm
  · exact BitVec.msb_eq_getLsbD_last (_ : Word)

/-! Subtraction. -/

section Subtraction

variable (d s : Word) (bin : Bool) (f : Flags)

theorem subLaw_fst_toNat :
    ((subLaw d s bin f).1.toNat : Int) = ((d.toNat : Int) - s.toNat - bin.toNat) % 65536 := by
  rw [subLaw, BitVec.toNat_ofInt]
  omega

/-- Overflow of a difference: operands of two signs, a result of the subtrahend's (R231). -/
theorem subLaw_overflow_eq : (subLaw d s bin f).2.o =
    ((d ^^^ s) &&& (d ^^^ (subLaw d s bin f).1)).getLsbD 15 := by
  have hd := d.isLt
  have hs := s.isLt
  have hb := Bool.toNat_le bin
  have hr := subLaw_fst_toNat d s bin f
  rw [Bool.eq_iff_iff]
  rw [BitVec.getLsbD_and, BitVec.getLsbD_xor, BitVec.getLsbD_xor, getLsbD_fifteen, getLsbD_fifteen, getLsbD_fifteen]
  refine (not_fitsSigned_iff _).trans ?_
  rw [toInt_eq_ite, toInt_eq_ite]
  by_cases hd' : 32768 ≤ d.toNat
  all_goals by_cases hs' : 32768 ≤ s.toNat
  all_goals simp [hd', hs']
  all_goals omega

theorem subLaw_carry_iff : (subLaw d s bin f).2.c = true ↔ d.toNat < s.toNat + bin.toNat := by
  refine decide_eq_true_iff.trans ?_
  omega

theorem subLaw_zero_iff : (subLaw d s bin f).2.z = true ↔ (subLaw d s bin f).1.toNat = 0 :=
  beq_iff_eq.trans BitVec.toNat_inj.symm

theorem subLaw_sign_eq : (subLaw d s bin f).2.s = (subLaw d s bin f).1.getLsbD 15 := BitVec.msb_eq_getLsbD_last (_ : Word)

end Subtraction

/-- Settles O25: as for the sum. -/
theorem subtractionLaw : Obligations.SubtractionLaw := fun d s bin f =>
  ⟨subLaw_fst_toNat d s bin f, subLaw_carry_iff d s bin f, not_fitsSigned_iff _, subLaw_overflow_eq d s bin f,
    subLaw_zero_iff d s bin f, subLaw_sign_eq d s bin f, rfl⟩

/-! The conditions after a compare. -/

section Compare

variable (d s : Word) (f : Flags)

theorem cmp_zero_iff : (subLaw d s false f).2.z = true ↔ d = s := by
  have hd := d.isLt
  have hs := s.isLt
  have hr := subLaw_fst_toNat d s false f
  rw [subLaw_zero_iff, ← BitVec.toNat_inj]
  simp at hr
  omega

theorem cmp_carry_iff : (subLaw d s false f).2.c = true ↔ d.toNat < s.toNat := subLaw_carry_iff d s false f

/-- After a compare the sign is wrong exactly where the difference overflowed, so together they order the signed values. -/
theorem cmp_sign_ne_overflow_iff : (subLaw d s false f).2.o ≠ (subLaw d s false f).2.s ↔ d.toInt < s.toInt := by
  have hd := d.isLt
  have hs := s.isLt
  have hr := subLaw_fst_toNat d s false f
  have hO : (subLaw d s false f).2.o = true ↔ _ := not_fitsSigned_iff _
  have hS : (subLaw d s false f).2.s = true ↔ 32768 ≤ (subLaw d s false f).1.toNat := by
    rw [subLaw_sign_eq, getLsbD_fifteen, decide_eq_true_iff]
  rw [Ne, Bool.eq_iff_iff, hO, hS, toInt_eq_ite, toInt_eq_ite]
  simp at hr ⊢
  split_ifs
  all_goals omega

end Compare

/-- Words with the condition 1110 are reserved, with either opcode (30_encoding.md R186 class E-g). -/
theorem decodeWords_unusedCondition {w : Word} (ws : List Word)
    (h : w &&& 0xFF00#16 = 0xCE00#16 ∨ w &&& 0xFF80#16 = 0xAE80#16) :
    decodeWords (w :: ws) = .error (.reserved .unusedCondition) := by
  rw [and_FF00_eq_iff, and_FF80_eq_iff] at h
  obtain ⟨hop, hcond⟩ | ⟨hop, hcond, h7⟩ := h
  · have hop : opcodeField w = 0b1100#4 := field_eq_of_toNat (by rw [opcodeField_toNat, hop])
    rw [decodeWords_opcode_jump hop, decodeJump, (condOfField_eq_none_iff w).mpr hcond]
  · have hop : opcodeField w = 0b1010#4 := field_eq_of_toNat (by rw [opcodeField_toNat, hop])
    have h7 : w.getLsbD 7 = true := by rw [bitSeven_eq, h7]; rfl
    rw [decodeWords_opcode_call hop, decodeCall, if_pos h7, (condOfField_eq_none_iff w).mpr hcond]

/-- Settles O26: the table evaluated, its reserved row by the decoders, the meanings after a compare by its flags. -/
theorem conditions : Obligations.Conditions := by
  refine ⟨?table, fun w ws h => decodeWords_unusedCondition ws h, ?compare⟩
  case table => decide
  case compare =>
    intro d s f g
    have hz : g.z = true ↔ d = s := cmp_zero_iff d s f
    have hc : g.c = true ↔ d.toNat < s.toNat := cmp_carry_iff d s f
    have hl : g.o ≠ g.s ↔ d.toInt < s.toInt := cmp_sign_ne_overflow_iff d s f
    have hge : g.o = g.s ↔ ¬ d.toInt < s.toInt := by rw [← hl, not_not]
    have unsigned : d = s ↔ d.toNat = s.toNat := BitVec.toNat_inj.symm
    have signed : d = s ↔ d.toInt = s.toInt := BitVec.toInt_inj.symm
    simp only [condHolds, Bool.and_eq_true, Bool.or_eq_true, Bool.not_eq_true', ← Bool.not_eq_true, beq_iff_eq, bne_iff_ne, hz,
      hc, hl, hge]
    refine ⟨?a, ?be, trivial, not_lt, ?g, not_lt, trivial, ?le, trivial, trivial⟩
    case a | be =>
      rw [unsigned]
      omega
    case g | le =>
      rw [signed]
      omega

end Sys2Proof.Machine
end

section
/-! SUPPORT. The results of ADD, ADDC, SUB, SUBB and CMP (41_dual_operand.md R234 to R238) and of ROR, ROL, NOT, NEG and CBW
(43_single_operand.md R273 to R279), each by its law in the spec's words. -/

namespace Sys2Proof.Machine

/-! The laws, with their flags as the spec words them. -/

theorem not_fitsSigned_eq (x : Int) : (!fitsSigned x) = decide (x < -32768 ∨ 32767 < x) := by
  rw [Bool.eq_iff_iff, not_fitsSigned_iff, decide_eq_true_iff]

/-- The addition law of `r`, the sum (R230). -/
theorem addLaw_eq (d v : Word) (cin : Bool) (f : Flags) {r : Word} (hr : d + v + BitVec.ofNat 16 cin.toNat = r) :
    addLaw d v cin f = (r, { f with
      z := decide (r = 0#16)
      c := decide (2 ^ 16 ≤ d.toNat + v.toNat + cin.toNat)
      o := decide (d.toInt + v.toInt + cin.toNat < -32768 ∨ 32767 < d.toInt + v.toInt + cin.toNat)
      s := r.getLsbD 15 }) := by
  have hsum : BitVec.ofNat 16 (d.toNat + v.toNat + cin.toNat) = r := by
    simp only [BitVec.ofNat_add, BitVec.ofNat_toNat, BitVec.setWidth_eq, hr]
  simp only [addLaw, hsum, setZS_eq, not_fitsSigned_eq]

/-- The subtraction law of `r`, the difference (R231). -/
theorem subLaw_eq (d v : Word) (bin : Bool) (f : Flags) {r : Word} (hr : d - v - BitVec.ofNat 16 bin.toNat = r) :
    subLaw d v bin f = (r, { f with
      z := decide (r = 0#16)
      c := decide (d.toNat < v.toNat + bin.toNat)
      o := decide (d.toInt - v.toInt - bin.toNat < -32768 ∨ 32767 < d.toInt - v.toInt - bin.toNat)
      s := r.getLsbD 15 }) := by
  have hdiff : BitVec.ofInt 16 ((d.toNat : Int) - v.toNat - bin.toNat) = r := by
    apply BitVec.eq_of_toNat_eq
    rw [← hr, BitVec.toNat_ofInt, BitVec.toNat_sub, BitVec.toNat_sub, BitVec.toNat_ofNat]
    have := d.isLt
    have := v.isLt
    have := Bool.toNat_le bin
    omega
  have hborrow : ((d.toNat : Int) - v.toNat - bin.toNat < 0) = (d.toNat < v.toNat + bin.toNat) := by
    rw [eq_iff_iff]
    omega
  simp only [subLaw, hdiff, setZS_eq, not_fitsSigned_eq, hborrow]

/-- Settles O28: both instructions modify their destination by the addition law. -/
theorem addAddcResult : Obligations.AddAddcResult := by
  intro src dst s hsrc v u d flagsOf cin
  exact ⟨toOutcome_dualModify hsrc (addLaw_eq d v false s.flags (BitVec.add_zero _)),
    toOutcome_dualModify hsrc (addLaw_eq d v s.flags.c s.flags rfl)⟩

/-- Settles O29: both instructions modify their destination by the subtraction law. -/
theorem subSubbResult : Obligations.SubSubbResult := by
  intro src dst s hsrc v u d flagsOf bin
  exact ⟨toOutcome_dualModify hsrc (subLaw_eq d v false s.flags (BitVec.sub_zero _)),
    toOutcome_dualModify hsrc (subLaw_eq d v s.flags.c s.flags rfl)⟩

/-- Settles O30: CMP compares by the subtraction law, whose zero flag says that the operands are equal. -/
theorem cmpResult : Obligations.CmpResult := by
  intro src dst s hsrc hdst v u d
  have hflags : subLaw d v false s.flags = (d - v, { s.flags with
      z := decide (d = v)
      c := decide (d.toNat < v.toNat)
      o := decide (d.toInt - v.toInt < -32768 ∨ 32767 < d.toInt - v.toInt)
      s := (d - v).getLsbD 15 }) := by
    rw [subLaw_eq d v false s.flags (BitVec.sub_zero _)]
    simp [BitVec.sub_eq_iff_eq_add]
  exact toOutcome_dualCompare hsrc hflags hdst

/-! Rotates (43_single_operand.md R273, R274). -/

section Rotate

variable {k : Nat} (hk : k ≤ 16) (d : Word)
include hk

/-- A word's low bits shifted to the top. -/
theorem shiftLeft_toNat_of_le : (d <<< (16 - k)).toNat = d.toNat % 2 ^ k * 2 ^ (16 - k) := by
  rw [BitVec.toNat_shiftLeft, Nat.shiftLeft_eq, ← Nat.mul_mod_mul_right, ← Nat.pow_add, Nat.add_sub_cancel' hk]

/-- The two parts of a rotated word do not overlap, so OR-ing them is adding. -/
theorem rotate_toNat : ((d >>> k) ||| (d <<< (16 - k))).toNat = d.toNat / 2 ^ k + d.toNat % 2 ^ k * 2 ^ (16 - k) := by
  have high_lt : d.toNat / 2 ^ k < 2 ^ (16 - k) := by
    rw [Nat.div_lt_iff_lt_mul (Nat.two_pow_pos k), ← Nat.pow_add, Nat.sub_add_cancel hk]
    exact d.isLt
  rw [BitVec.toNat_or, shiftLeft_toNat_of_le hk, BitVec.toNat_ushiftRight, Nat.shiftRight_eq_div_pow, Nat.or_comm,
    ← Nat.shiftLeft_eq, ← Nat.shiftLeft_add_eq_or_of_lt high_lt, Nat.add_comm]

end Rotate

/-- ROR: the low `k` bits come in at the top, the last of them as bit 15 (R273). -/
theorem rotateRight_eq {k : Nat} (h0 : 0 < k) (hk : k ≤ 16) (d : Word) (f : Flags) :
    let r := BitVec.ofNat 16 (d.toNat / 2 ^ k + d.toNat % 2 ^ k * 2 ^ (16 - k))
    rotateRight k d f = (r, { f with z := decide (r = 0#16), c := r.getLsbD 15, s := r.getLsbD 15 }) := by
  intro r
  have hr : (d >>> k) ||| (d <<< (16 - k)) = r := by
    apply BitVec.eq_of_toNat_eq
    rw [BitVec.toNat_ofNat, ← rotate_toNat hk, Nat.mod_eq_of_lt (BitVec.isLt _)]
  have hlast : d.getLsbD (k - 1) = r.getLsbD 15 := by
    rw [← hr, BitVec.getLsbD_or, BitVec.getLsbD_ushiftRight, BitVec.getLsbD_shiftLeft,
      BitVec.getLsbD_of_ge d (k + 15) (by omega), show 15 - (16 - k) = k - 1 by omega]
    simp
    omega
  rw [rotateRight, hr, hlast, shiftLaw_eq]

/-- ROL: the high `k` bits come in at the bottom, the last of them as bit 0 (R274). -/
theorem rotateLeft_eq {k : Nat} (h0 : 0 < k) (hk : k ≤ 16) (d : Word) (f : Flags) :
    let r := BitVec.ofNat 16 (d.toNat * 2 ^ k % 2 ^ 16 + d.toNat / 2 ^ (16 - k))
    rotateLeft k d f = (r, { f with z := decide (r = 0#16), c := r.getLsbD 0, s := r.getLsbD 15 }) := by
  intro r
  have hr : (d <<< k) ||| (d >>> (16 - k)) = r := by
    have hrot := rotate_toNat (Nat.sub_le 16 k) d
    have hshift := shiftLeft_toNat_of_le (Nat.sub_le 16 k) d
    rw [Nat.sub_sub_self hk] at hrot hshift
    rw [BitVec.toNat_shiftLeft, Nat.shiftLeft_eq] at hshift
    apply BitVec.eq_of_toNat_eq
    rw [BitVec.or_comm, BitVec.toNat_ofNat, hshift, Nat.add_comm, ← hrot, Nat.mod_eq_of_lt (BitVec.isLt _)]
  have hlast : d.getLsbD (16 - k) = r.getLsbD 0 := by
    rw [← hr, BitVec.getLsbD_or, BitVec.getLsbD_ushiftRight, BitVec.getLsbD_shiftLeft]
    simp [h0]
  rw [rotateLeft, hr, hlast, shiftLaw_eq]

/-- Settles O33: the encodings by the opcode map, each next state by the law of its rotate. -/
theorem rorRolResult : Obligations.RorRolResult := by
  refine ⟨⟨?ror, ?rol⟩, fun n dst s => ?results⟩
  case results =>
    have hk : countOf n ≤ 16 := by have := n.isLt; rw [countOf]; omega
    exact ⟨toOutcome_modifyDst (rotateRight_eq n.val.succ_pos hk _ _),
      toOutcome_modifyDst (rotateLeft_eq n.val.succ_pos hk _ _)⟩
  all_goals exact countEncoding_of_subOpcode fun w ws h => by simp [decodeSingles, h]

/-! NOT, NEG and CBW (R277 to R279). -/

theorem not_eq (d : Word) : ~~~d = BitVec.ofNat 16 (65535 - d.toNat) := by
  apply BitVec.eq_of_toNat_eq
  rw [BitVec.toNat_not, BitVec.toNat_ofNat]
  omega

/-- NEG is the subtraction from zero: a borrow from every operand but zero, an overflow of the least one alone (R278, D9). -/
theorem subLaw_zero_eq (d : Word) (f : Flags) :
    let r := BitVec.ofNat 16 (65536 - d.toNat)
    subLaw 0#16 d false f = (r, { f with
      z := decide (d = 0#16), c := decide (d ≠ 0#16), o := decide (d = 0x8000#16), s := r.getLsbD 15 }) := by
  intro r
  have hd := d.isLt
  have hr : 0#16 - d - BitVec.ofNat 16 false.toNat = r := by
    apply BitVec.eq_of_toNat_eq
    simp [r]
  have hzero : r = 0#16 ↔ d = 0#16 := by
    rw [← BitVec.toNat_inj, ← BitVec.toNat_inj]
    simp [r]
    omega
  have hborrow : (0#16).toNat < d.toNat + false.toNat ↔ d ≠ 0#16 := by
    rw [Ne, ← BitVec.toNat_inj]
    simp
    omega
  have hoverflow : ((0#16).toInt - d.toInt - (false.toNat : Nat) < -32768 ∨
      32767 < (0#16).toInt - d.toInt - (false.toNat : Nat)) ↔ d = 0x8000#16 := by
    rw [← BitVec.toNat_inj, toInt_eq_ite d]
    simp
    split_ifs <;> omega
  rw [subLaw_eq 0#16 d false f hr]
  simp only [hzero, hborrow, hoverflow]

/-- CBW's result, and its sign: bit 7 of the operand (R279). -/
theorem signExtendByte_eq (d : Word) : signExtendByte d =
    BitVec.ofNat 16 (if d.toNat % 256 < 128 then d.toNat % 256 else 0xFF00 + d.toNat % 256) := by
  have hmsb : (d.extractLsb' 0 8).msb = decide (128 ≤ d.toNat % 256) := by
    rw [BitVec.msb_eq_decide]
    simp
  apply BitVec.eq_of_toNat_eq
  rw [signExtendByte, BitVec.toNat_signExtend, hmsb]
  simp
  split_ifs <;> omega

theorem signExtendByte_sign (d : Word) : (signExtendByte d).getLsbD 15 = d.getLsbD 7 := by
  rw [signExtendByte, BitVec.getLsbD_signExtend, BitVec.msb_eq_getLsbD_last]
  simp

/-- Settles O35: the encodings by the opcode map, each next state by its law. -/
theorem notNegCbwResult : Obligations.NotNegCbwResult := by
  refine ⟨⟨?not, ?neg, ?cbw⟩, fun dst s => ⟨?notResult, ?negResult, ?cbwResult⟩⟩
  case notResult => exact toOutcome_modifyDst (by rw [not_eq, logicLaw_eq])
  case negResult => exact toOutcome_modifyDst (subLaw_zero_eq _ _)
  case cbwResult =>
    refine toOutcome_modifyDst ?_
    rw [logicLaw_eq, signExtendByte_sign, signExtendByte_eq]
  all_goals exact unaryEncoding_of_param fun w ws h => by simp [decodeUnary, h]

end Sys2Proof.Machine
end

section
/-! SUPPORT. Program control (42_program_control.md R251 to R257): the four families of instruction as one meaning each, their next
states taken and not taken, and the parity of every target. -/

namespace Sys2Proof.Machine

/-! Fifteen instructions, one meaning. -/

theorem exec_jumpInstr (cnd : Cond) (off : BitVec 7) (s : State) :
    exec (jumpInstr cnd off) s = .next (jumpRelative cnd off s) := by
  cases cnd <;> rfl

theorem exec_jumpLongInstr (cnd : Cond) (t : Operand) (s : State) :
    exec (jumpLongInstr cnd t) s = toOutcome (jumpLong cnd t s) := by
  cases cnd <;> rfl

/-- A return is the long jump through `[r15]` (R253). -/
theorem exec_returnInstr (cnd : Cond) (s : State) :
    exec (returnInstr cnd) s = toOutcome (jumpLong cnd .stack s) := by
  cases cnd <;> rfl

theorem exec_callInstr (cnd : Cond) (t : Operand) (s : State) :
    exec (callInstr cnd t) s = toOutcome (callOn cnd t s) := by
  cases cnd <;> rfl

theorem cycles_jumpInstr (cnd : Cond) (off : BitVec 7) (s : State) : cycles (jumpInstr cnd off) s = 3 := by
  cases cnd <;> rfl

theorem cycles_jumpLongInstr (cnd : Cond) (t : Operand) (s : State) :
    cycles (jumpLongInstr cnd t) s = takenCost cnd (4 + operandCost .read t s) s := by
  cases cnd <;> rfl

theorem cycles_returnInstr (cnd : Cond) (s : State) :
    cycles (returnInstr cnd) s = takenCost cnd (4 + operandCost .read .stack s) s := by
  cases cnd <;> rfl

theorem cycles_callInstr (cnd : Cond) (t : Operand) (s : State) : cycles (callInstr cnd t) s = callCost cnd t s := by
  cases cnd <;> rfl

/-! Relative jumps (R251). -/

/-- The target as arithmetic: twice the signed offset from the next instruction (D3). -/
theorem relativeTarget_eq (off : BitVec 7) (pc : Word) :
    relativeTarget off pc = BitVec.ofInt 16 (pc.toNat + 2 * off.toInt) := by
  rw [BitVec.ofInt_add, BitVec.ofInt_mul, BitVec.ofInt_natCast, BitVec.ofNat_toNat, BitVec.setWidth_eq]
  rfl

theorem relativeTarget_even {pc : Word} (h : pc.toNat % 2 = 0) (off : BitVec 7) : (relativeTarget off pc).toNat % 2 = 0 := by
  rw [relativeTarget_eq, BitVec.toNat_ofInt]
  omega

/-- A relative jump moves `pc` or leaves it. -/
theorem jumpRelative_eq (cnd : Cond) (off : BitVec 7) (s : State) :
    jumpRelative cnd off s = s.setPc (if condHolds cnd s.flags then relativeTarget off s.pc else s.pc) := by
  rw [jumpRelative]
  split_ifs <;> rfl

theorem jumpRelative_pc_even {s : State} (h : s.pc.toNat % 2 = 0) (cnd : Cond) (off : BitVec 7) :
    (jumpRelative cnd off s).pc.toNat % 2 = 0 := by
  rw [jumpRelative_eq, setPc_pc]
  split_ifs
  · exact relativeTarget_even h off
  · exact h

/-- Settles O36: the encoding by format J, the next state by the one meaning of the fifteen. -/
theorem relativeJumpResult : Obligations.RelativeJumpResult := by
  refine ⟨fun k cnd off ws hk => decodeWords_jumpWord hk off ws, fun cnd off s => ?_⟩
  have heven := fun h : s.pc.toNat % 2 = 0 => jumpRelative_pc_even h cnd off
  rw [jumpRelative_eq, setPc_pc] at heven
  rw [exec_jumpInstr, jumpRelative_eq, ← relativeTarget_eq]
  exact ⟨rfl, heven, cycles_jumpInstr cnd off s⟩

/-! Long jumps and returns (R252, R253). -/

theorem jumpLong_not_taken {cnd : Cond} {s : State} (hc : condHolds cnd s.flags = false) (t : Operand) :
    jumpLong cnd t s = .ok s := by
  rw [jumpLong, hc]
  rfl

/-- Taken, the operand is read and the transfer is to its value. -/
theorem jumpLong_taken {cnd : Cond} {t : Operand} {s : State} (hc : condHolds cnd s.flags = true) (hr : SourceReady t s) :
    jumpLong cnd t s = jumpTo (sourceValue t s) (sourceAfter t s) := by
  rw [jumpLong, if_pos hc, readOperand_eq_ok.mpr ⟨hr, rfl, rfl⟩]
  rfl

theorem toOutcome_jumpTo_of_even {t : Word} (h : t.toNat % 2 = 0) (s : State) : toOutcome (jumpTo t s) = .next (s.setPc t) := by
  rw [jumpTo_of_even h]
  rfl

theorem toOutcome_jumpTo_of_odd {t : Word} (h : t.toNat % 2 = 1) (s : State) :
    toOutcome (jumpTo t s) = .fault (.oddTarget t) := by
  rw [jumpTo_of_odd h]
  rfl

/-- Settles O37: the encoding by format L, taken and not taken by the one meaning of the fifteen. -/
theorem longJumpResult : Obligations.LongJumpResult := by
  refine ⟨longEncoding_jumpLong, fun cnd target s => ⟨fun hc => ?_, fun hc hr heven => ?_⟩⟩
  · rw [exec_jumpLongInstr, jumpLong_not_taken hc]
    rfl
  · rw [exec_jumpLongInstr, jumpLong_taken hc hr, toOutcome_jumpTo_of_even heven]

/-- Where `[r15]` can be located, its cost is its mode's and the wait of its address (70_reset_and_hazards.md R361, R363). -/
theorem operandCost_stack {s : State} (h : RegReady spReg s) :
    operandCost .read .stack s = 2 + if isInternalRegister s (stackPointer s) then 1 else 0 := by
  rw [operandCost, registerWait, operandAddress_stack_read.mpr ⟨h, rfl⟩]
  rfl

/-- Settles O38: as for the long jumps; the encoding takes format R before format L. -/
theorem returnResult : Obligations.ReturnResult := by
  refine ⟨fun k cnd ws hk => ?_, fun cnd s => ⟨fun hc => ?_, fun hc hr hread => ?_, fun hc hr => ?_, ?_⟩⟩
  · rw [returnWord_eq_longWord]
    exact decodeWords_returnWord hk ws
  · rw [exec_returnInstr, jumpLong_not_taken hc]
    rfl
  · have hready : SourceReady .stack s := ⟨hr, hread⟩
    rw [exec_returnInstr, jumpLong_taken hc hready]
    exact ⟨fun heven => toOutcome_jumpTo_of_even heven _, fun hodd => toOutcome_jumpTo_of_odd hodd _⟩
  · rw [cycles_returnInstr, takenCost, if_pos hc, operandCost_stack hr]
    split_ifs <;> rfl
  · rw [exec_returnInstr, exec_jumpLongInstr]

/-! Calls (R254). -/

theorem callOn_not_taken {cnd : Cond} {s : State} (hc : condHolds cnd s.flags = false) (t : Operand) :
    callOn cnd t s = .ok s := by
  rw [callOn, hc]
  rfl

/-- An operand that names `r15` stops a taken call before the push (U16). -/
theorem callOn_names_stack {cnd : Cond} {t : Operand} {s : State} (hc : condHolds cnd s.flags = true)
    (ht : namesStackPointer t = true) : callOn cnd t s = .error .callThroughStackPointer := by
  rw [callOn, if_pos hc, if_pos ht]

/-- Taken, `pc` is pushed, then the operand is read and the transfer is to its value (D8, D23). -/
theorem callOn_taken {cnd : Cond} {t : Operand} {s : State} (hc : condHolds cnd s.flags = true)
    (ht : namesStackPointer t = false) (hpush : DstWritable .stack s.pc s) (hr : SourceReady t (written .stack s.pc s)) :
    callOn cnd t s = jumpTo (sourceValue t (written .stack s.pc s)) (sourceAfter t (written .stack s.pc s)) := by
  have hread := readOperand_eq_ok.mpr ⟨hr, rfl, rfl⟩
  rw [callOn, if_pos hc, ht, push_eq_ok.mpr ⟨hpush, rfl⟩]
  exact congrArg (· >>= fun p => jumpTo p.1 p.2) hread

/-- Settles O39: the encoding by format L; not taken, stopped by `r15`, and taken by the one meaning of the fifteen. -/
theorem callResult : Obligations.CallResult := by
  refine ⟨longEncoding_call, fun cnd target s => ⟨fun hc => ⟨?_, ?_⟩, fun hc =>
    ⟨fun htarget => ?_, fun ht hpush hr => ?_, ?_⟩⟩⟩
  · rw [exec_callInstr, callOn_not_taken hc]
    rfl
  · rw [cycles_callInstr, callCost, takenCost, hc]
    rfl
  · have hnames : namesStackPointer target = true := by
      obtain rfl | rfl | ⟨w, off, rfl⟩ := htarget
      all_goals rfl
    rw [exec_callInstr, callOn_names_stack hc hnames]
    rfl
  · rw [exec_callInstr, callOn_taken hc ht hpush hr]
    exact ⟨fun heven => toOutcome_jumpTo_of_even heven _, fun hodd => toOutcome_jumpTo_of_odd hodd _⟩
  · rintro r v (rfl | rfl)
    all_goals
      rw [cycles_callInstr, callCost, takenCost, if_pos hc]
      rfl

/-! Interrupt entry (60_exceptions.md R326). -/

/-- The vector table lies below the control registers. -/
theorem vectorAddr_ne_flags (v : Fin 128) : vectorAddr v ≠ flagsAddr := by
  intro h
  have h := congrArg BitVec.toNat h
  have hv := v.isLt
  rw [vectorAddr_eq, BitVec.toNat_ofNat, flagsAddr] at h
  simp at h
  omega

theorem peek_setFlags_of_ne {a : Word} (h : a ≠ flagsAddr) (w : Width) (s : State) (f : Flags) :
    peek w a (s.setFlags f) = peek w a s := by
  cases w with
  | byte => rfl
  | word =>
    simp only [peek, if_neg h]
    rfl

/-- Past the push, interrupt entry is the transfer to the word of the vector table that the push left (R326, D12). -/
theorem takeInterrupt_eq_jumpTo {n : Fin 48} {s : State} (hpush : DstWritable .stack s.pc s)
    (hentry : Readable .word (vectorAddr s.params.irqVector[n]) s) : takeInterrupt n s =
      jumpTo (peek .word (vectorAddr s.params.irqVector[n]) (written .stack s.pc (s.clearPend n))) (entered n s) := by
  have hload : load .word (vectorAddr s.params.irqVector[n]) (entered n s) =
      .ok (peek .word (vectorAddr s.params.irqVector[n]) (written .stack s.pc (s.clearPend n))) := by
    refine load_eq_ok.mpr ⟨(readFault_congr .word _ ?_).trans hentry, peek_setFlags_of_ne (vectorAddr_ne_flags _) _ _ _⟩
    simp [entered]
  have hpushed : push s.pc (s.clearPend n) = .ok (written .stack s.pc (s.clearPend n)) := push_eq_ok.mpr ⟨hpush, rfl⟩
  have hparams : (entered n s).params = s.params := by simp [entered]
  rw [takeInterrupt, hpushed]
  change (load .word (vectorAddr (entered n s).params.irqVector[n]) (entered n s) >>= fun t => jumpTo t (entered n s)) = _
  rw [hparams, hload]
  rfl

/-- Settles O43: each transfer is a transfer to its target, which is odd; a relative target has the parity of `pc`. -/
theorem oddTargetStops : Obligations.OddTargetStops := by
  refine ⟨?longJump, ?ret, ?call, ?int, ?interrupt, ?relative⟩
  case longJump =>
    intro cnd t s hc hr hodd
    rw [exec_jumpLongInstr, jumpLong_taken hc hr, toOutcome_jumpTo_of_odd hodd]
  case ret =>
    intro cnd s hc hr hodd
    rw [exec_returnInstr, jumpLong_taken hc hr, toOutcome_jumpTo_of_odd hodd]
  case call =>
    intro cnd t s hc ht hpush hr hodd
    rw [exec_callInstr, callOn_taken hc ht hpush hr, toOutcome_jumpTo_of_odd hodd]
  case int => exact fun v s hpush hr hodd => exec_int_of_odd hpush (load_written hr .stack s.pc) hodd
  case interrupt =>
    intro n s hpush hr hodd
    exact ⟨_, (takeInterrupt_eq_jumpTo hpush hr).trans (jumpTo_of_odd hodd _)⟩
  case relative =>
    intro cnd off s t heven h
    rw [exec_jumpInstr] at h
    cases h
    exact jumpRelative_pc_even heven cnd off

end Sys2Proof.Machine
end

section
/-! SUPPORT. The instructions by shape: which modify a destination, which compare, and where [r15] or the flags register as their
destination stops them (40_operands.md R207, 10_state.md R123). -/

namespace Sys2Proof.Machine

/-! Which instructions have which shape, and which flags they keep. -/

/-- Where a constructor differs from each of the three logic instructions it is none of them. -/
theorem not_mem_logic {mk : Operand → Operand → Instr}
    (h : ∀ mk' ∈ [Instr.and, Instr.or, Instr.xor], mk (.imm 0) (.imm 0) ≠ mk' (.imm 0) (.imm 0)) :
    mk ∉ [Instr.and, Instr.or, Instr.xor] :=
  fun hmem => h mk hmem rfl

/-- The seven instructions with a source that modify their destination: none writes `I`; AND, OR and XOR keep `C` and `O`
(41_dual_operand.md R232 to R242). -/
theorem exec_dualModify {mk : Operand → Operand → Instr}
    (hmk : mk ∈ [Instr.add, Instr.addc, Instr.sub, Instr.subb, Instr.and, Instr.or, Instr.xor]) :
    ∃ f : Word → AluOp, (∀ src dst s, exec (mk src dst) s = toOutcome (dualModify f src dst s)) ∧
      (∀ v fl d, (f v fl d).2.i = fl.i) ∧
      (mk ∈ [Instr.and, Instr.or, Instr.xor] → ∀ v fl d, (f v fl d).2.c = fl.c ∧ (f v fl d).2.o = fl.o) := by
  simp only [List.mem_cons, List.not_mem_nil, or_false] at hmk
  obtain rfl | rfl | rfl | rfl | rfl | rfl | rfl := hmk
  case inl | inr.inl | inr.inr.inl | inr.inr.inr.inl =>
    exact ⟨_, fun _ _ _ => rfl, fun _ _ _ => rfl, fun h => absurd h (not_mem_logic (by decide))⟩
  all_goals exact ⟨_, fun _ _ _ => rfl, fun _ _ _ => rfl, fun _ _ _ _ => ⟨rfl, rfl⟩⟩

/-- CMP and TEST compare: neither writes `I`; TEST keeps `C` and `O` (R238, R240). -/
theorem exec_dualCompare {mk : Operand → Operand → Instr} (hmk : mk ∈ [Instr.cmp, Instr.test]) :
    ∃ f : Word → AluOp, (∀ src dst s, exec (mk src dst) s = toOutcome (dualCompare f src dst s)) ∧
      (∀ v fl d, (f v fl d).2.i = fl.i) ∧
      (mk = Instr.test → ∀ v fl d, (f v fl d).2.c = fl.c ∧ (f v fl d).2.o = fl.o) := by
  simp only [List.mem_cons, List.not_mem_nil, or_false] at hmk
  obtain rfl | rfl := hmk
  · exact ⟨_, fun _ _ _ => rfl, fun _ _ _ => rfl, fun h => nomatch congrFun (congrFun h (.imm 0)) (.imm 0)⟩
  · exact ⟨_, fun _ _ _ => rfl, fun _ _ _ => rfl, fun _ _ _ _ => ⟨rfl, rfl⟩⟩

/-- The nine single operand instructions: none writes `I`; all but NEG keep `O`, and ADDI, SUBI, NOT and CBW keep `C`
(43_single_operand.md R271 to R279). -/
theorem exec_singleModify {i : Instr} {n : Fin 8} {dst : Operand}
    (hi : i ∈ [.shr n dst, .shl n dst, .ror n dst, .rol n dst, .addi n dst, .subi n dst, .not dst, .neg dst, .cbw dst]) :
    ∃ f : AluOp, (∀ s, exec i s = toOutcome (modifyDst f dst s)) ∧ (∀ fl d, (f fl d).2.i = fl.i) ∧
      (i ≠ .neg dst → ∀ fl d, (f fl d).2.o = fl.o) ∧
      (i ∈ [.addi n dst, .subi n dst, .not dst, .cbw dst] → ∀ fl d, (f fl d).2.c = fl.c) := by
  simp only [List.mem_cons, List.not_mem_nil, or_false] at hi
  obtain rfl | rfl | rfl | rfl | rfl | rfl | rfl | rfl | rfl := hi
  case inl | inr.inl | inr.inr.inl | inr.inr.inr.inl =>
    exact ⟨_, fun _ => rfl, fun _ _ => rfl, fun _ _ _ => rfl, fun h => by simp at h⟩
  case inr.inr.inr.inr.inr.inr.inr.inl =>
    exact ⟨_, fun _ => rfl, fun _ _ => rfl, fun h => absurd rfl h, fun h => by simp at h⟩
  all_goals exact ⟨_, fun _ => rfl, fun _ _ => rfl, fun _ _ _ => rfl, fun _ _ _ => rfl⟩

/-- The same of the constructors, by format: S and U (30_encoding.md R177). -/
theorem exec_countModify {mk : Fin 8 → Operand → Instr}
    (hmk : mk ∈ [Instr.shr, Instr.shl, Instr.ror, Instr.rol, Instr.addi, Instr.subi]) (n : Fin 8) (dst : Operand) :
    ∃ f : AluOp, ∀ s, exec (mk n dst) s = toOutcome (modifyDst f dst s) := by
  simp only [List.mem_cons, List.not_mem_nil, or_false] at hmk
  obtain rfl | rfl | rfl | rfl | rfl | rfl := hmk
  all_goals exact ⟨_, fun _ => rfl⟩

theorem exec_unaryModify {mk : Operand → Instr} (hmk : mk ∈ [Instr.not, Instr.neg, Instr.cbw]) (dst : Operand) :
    ∃ f : AluOp, ∀ s, exec (mk dst) s = toOutcome (modifyDst f dst s) := by
  simp only [List.mem_cons, List.not_mem_nil, or_false] at hmk
  obtain rfl | rfl | rfl := hmk
  all_goals exact ⟨_, fun _ => rfl⟩

/-! Past a source that can be read, a dual operand instruction is what it does to its destination. -/

theorem dualModify_eq {f : Word → AluOp} {src dst : Operand} {s : State} (hsrc : SourceReady src s) :
    dualModify f src dst s = modifyDst (f (sourceValue src s)) dst (sourceAfter src s) := by
  rw [dualModify, readOperand_eq_ok.mpr ⟨hsrc, rfl, rfl⟩]
  rfl

theorem dualCompare_eq {f : Word → AluOp} {src dst : Operand} {s : State} (hsrc : SourceReady src s) :
    dualCompare f src dst s = compareDst (f (sourceValue src s)) dst (sourceAfter src s) := by
  rw [dualCompare, readOperand_eq_ok.mpr ⟨hsrc, rfl, rfl⟩]
  rfl

/-! `[r15]` read and written (R207). -/

theorem modifyDst_stack (f : AluOp) (s : State) : modifyDst f .stack s = .error .readModifyWriteStack := rfl

/-- Settles O44: the location of the destination stops, whatever the instruction computes. -/
theorem readModifyWriteStackStops : Obligations.ReadModifyWriteStackStops := by
  refine ⟨fun src s hsrc mk hmk => ?dual, fun n s mk hmk => ?count, fun s mk hmk => ?unary⟩
  case dual =>
    obtain ⟨f, hexec, -⟩ := exec_dualModify hmk
    rw [hexec, dualModify_eq hsrc, modifyDst_stack]
    rfl
  case count =>
    obtain ⟨f, hexec⟩ := exec_countModify hmk n .stack
    rw [hexec, modifyDst_stack]
    rfl
  case unary =>
    obtain ⟨f, hexec⟩ := exec_unaryModify hmk .stack
    rw [hexec, modifyDst_stack]
    rfl

/-! The flags register as the destination (10_state.md R123). -/

/-- A destination in memory that can be read is located at its address, the state as it was. -/
theorem locate_at_address {acc : Access} {op : Operand} {s : State} {a : Word}
    (hacc : acc = .read ∨ acc = .readWrite ∧ op ≠ .stack) (hreg : ∀ r, op ≠ .reg r) (h : SourceReady op s)
    (ha : operandAddress acc op s = .ok a) : ∃ q, locate acc op s = .ok (⟨.mem (operandWidth op) a, q⟩, s) := by
  cases op with
  | reg r => exact absurd rfl (hreg r)
  | imm v => cases ha
  | stack =>
    obtain rfl | ⟨-, hne⟩ := hacc
    · obtain ⟨hsp, rfl⟩ := operandAddress_stack_read.mp ha
      exact ⟨_, locate_eq_ok.mpr ⟨hsp, rfl, rfl⟩⟩
    · exact absurd rfl hne
  | ind w p | autoInc w p =>
    obtain ⟨hp, rfl⟩ := readReg_eq_ok.mp ha
    exact ⟨_, locate_eq_ok.mpr ⟨hp, rfl, rfl⟩⟩
  | direct w a' =>
    cases ha
    exact ⟨_, locate_eq_ok.mpr ⟨rfl, rfl⟩⟩
  | index w p off =>
    obtain ⟨hp, rfl⟩ := operandAddress_index.mp ha
    exact ⟨_, locate_eq_ok.mpr ⟨hp, rfl, rfl⟩⟩

/-- A register whose bank can be accessed does not lie on the flags register (R112). -/
theorem not_reg_of_address {acc : Access} {op : Operand} {s : State} {a : Word} (hc : isControlWord a = true)
    (h : SourceReady op s) (ha : operandAddress acc op s = .ok a) (r : RegNum) : op ≠ .reg r := by
  rintro rfl
  cases ha
  exact nomatch hc.symm.trans (RegReady.not_control h)

/-- The address of a destination that is read, or read and written, is the one at which it is read. -/
theorem operandAddress_read {acc : Access} {op : Operand} (hacc : acc ≠ .write) (s : State) :
    operandAddress acc op s = operandAddress .read op s := by
  cases acc with
  | write => exact absurd rfl hacc
  | read => rfl
  | readWrite => cases op <;> rfl

section FlagsDestination

variable {op : Operand} {s : State} (h : SourceReady op s)
include h

/-- Located at the flags register, a destination is a word that can be read. -/
theorem locate_flags {acc : Access} (hacc : acc = .read ∨ acc = .readWrite ∧ op ≠ .stack)
    (ha : operandAddress acc op s = .ok flagsAddr) :
    ∃ q, locate acc op s = .ok (⟨.mem .word flagsAddr, q⟩, s) := by
  have hne : acc ≠ .write := by obtain rfl | ⟨rfl, -⟩ := hacc <;> decide
  obtain ⟨hread, -⟩ := source_at_address h (operandAddress_read hne s ▸ ha)
  obtain ⟨q, hq⟩ := locate_at_address hacc (not_reg_of_address rfl h ha) h ha
  cases hw : operandWidth op with
  | word => exact ⟨q, hw ▸ hq⟩
  | byte => exact absurd (hw ▸ hread) (not_readable_byte_flags s)

theorem modifyDst_flags_stops (f : AluOp) (hop : op ≠ .stack) (ha : operandAddress .readWrite op s = .ok flagsAddr) :
    modifyDst f op s = .error .flagsDestination := by
  obtain ⟨q, hq⟩ := locate_flags h (.inr ⟨rfl, hop⟩) ha
  rw [modifyDst, hq]
  rfl

theorem compareDst_flags_stops (f : AluOp) (ha : operandAddress .read op s = .ok flagsAddr) :
    compareDst f op s = .error .flagsDestination := by
  obtain ⟨q, hq⟩ := locate_flags h (.inl rfl) ha
  rw [compareDst, hq]
  rfl

end FlagsDestination

/-- Settles O45: the three shapes, each stopped after its destination is read. -/
theorem flagsDestinationStops : Obligations.FlagsDestinationStops := by
  refine ⟨?dual, ?compare, ?single⟩
  case dual =>
    intro src dst s hop hsrc hdst ha mk hmk
    obtain ⟨f, hexec, -⟩ := exec_dualModify hmk
    rw [hexec, dualModify_eq hsrc, modifyDst_flags_stops hdst _ hop ha]
    rfl
  case compare =>
    intro src dst s hsrc hdst ha mk hmk
    obtain ⟨f, hexec, -⟩ := exec_dualCompare hmk
    rw [hexec, dualCompare_eq hsrc, compareDst_flags_stops hdst _ ha]
    rfl
  case single =>
    intro dst s hop hdst ha
    have hstop (f : AluOp) : modifyDst f dst s = .error .flagsDestination := modifyDst_flags_stops hdst f hop ha
    constructor
    · intro n mk hmk
      obtain ⟨f, hexec⟩ := exec_countModify hmk n dst
      rw [hexec, hstop]
      rfl
    · intro mk hmk
      obtain ⟨f, hexec⟩ := exec_unaryModify hmk dst
      rw [hexec, hstop]
      rfl

end Sys2Proof.Machine
end

section
/-! SUPPORT. The frames of the instructions and of interrupt entry: what each shape leaves as it was (41_dual_operand.md R232, R243;
42_program_control.md R251 to R255; 43_single_operand.md R270; 60_exceptions.md R326). -/

namespace Sys2Proof.Machine

/-! The pieces: latches and parameters along a chain of updates, side effects in a bank, destinations under other flags. -/

theorem SameInterruptInputs.trans {s t u : State} (h : SameInterruptInputs s t) (h' : SameInterruptInputs t u) :
    SameInterruptInputs s u := by
  obtain ⟨hp, hi, hq⟩ := h
  obtain ⟨hp', hi', hq'⟩ := h'
  exact ⟨hp'.trans hp, hi'.trans hi, hq'.trans hq⟩

/-- The bytes an operand moves depend on the bank alone. -/
theorem sideEffectBytes_congr {s t : State} (op : Operand) (h : t.regbank = s.regbank) :
    sideEffectBytes op t = sideEffectBytes op s := by
  cases op <;> simp only [sideEffectBytes, regBytes, regAddr_congr _ h]

theorem operandAddress_setFlags (acc : Access) (op : Operand) (s : State) (f : Flags) :
    operandAddress acc op (s.setFlags f) = operandAddress acc op s := by
  cases op <;> rfl

/-- Flags play no part in whether a destination can be written. -/
theorem dstWritable_setFlags {op : Operand} {v : Word} {s : State} (h : DstWritable op v s) (f : Flags) :
    DstWritable op v (s.setFlags f) := by
  cases op with
  | autoInc w p =>
    obtain ⟨hp, hw, hp'⟩ := h
    exact ⟨hp, hw, (regFault_congr _ (poke_setFlags_regbank ..) (by simp)).trans hp'⟩
  | _ => exact h

/-- A destination that can be written has an address. -/
theorem operandAddress_of_writable {op : Operand} {v : Word} {s : State} (h : DstWritable op v s) :
    ∃ a, operandAddress .write op s = .ok a := by
  cases op with
  | reg r => exact ⟨_, rfl⟩
  | imm v => exact h.elim
  | stack => exact ⟨_, operandAddress_stack_write.mpr ⟨h.1, rfl⟩⟩
  | ind w p | autoInc w p => exact ⟨_, readReg_eq_ok.mpr ⟨h.1, rfl⟩⟩
  | direct w a => exact ⟨_, rfl⟩
  | index w p off => exact ⟨_, operandAddress_index.mpr ⟨h.1, rfl⟩⟩

/-! Shapes that modify or compare a destination. -/

section Modify

variable {f : AluOp} {op : Operand} {s t : State} (h : modifyDst f op s = .ok t)
include h

theorem modifyDst_pc : t.pc = s.pc := by
  obtain ⟨-, rfl⟩ := modifyDst_eq_ok.mp h
  exact written_pc ..

theorem modifyDst_inputs : SameInterruptInputs s t := by
  obtain ⟨-, rfl⟩ := modifyDst_eq_ok.mp h
  exact written_inputs op _ _

theorem modifyDst_wf (hwf : s.mem.wf) : t.mem.wf := by
  obtain ⟨-, rfl⟩ := modifyDst_eq_ok.mp h
  exact written_wf _ _ _ hwf

/-- The flags are those computed: the flags register is not the destination (10_state.md R123). -/
theorem modifyDst_flags : t.flags = (f s.flags (sourceValue op s)).2 := by
  obtain ⟨⟨hop, -, hdst, hne⟩, rfl⟩ := modifyDst_eq_ok.mp h
  obtain ⟨a, ha⟩ := operandAddress_of_writable hdst
  rw [operandAddress_readWrite hop, ha] at hne
  exact written_flags_of_ne (dstWritable_setFlags hdst _) ((operandAddress_setFlags ..).trans ha) fun e => hne (congrArg _ e)

variable {a : Word} (ha : operandAddress .readWrite op s = .ok a)
include ha

theorem modifyDst_regbank_of_ne (hne : a ≠ regbankAddr) : t.regbank = s.regbank := by
  obtain ⟨⟨hop, -, hdst, -⟩, rfl⟩ := modifyDst_eq_ok.mp h
  rw [operandAddress_readWrite hop] at ha
  exact written_regbank_of_ne (dstWritable_setFlags hdst _) ((operandAddress_setFlags ..).trans ha) hne

theorem modifyDst_intEnable_of_ne (hne : a ≠ intEnableAddr) : t.intEnable = s.intEnable := by
  obtain ⟨⟨hop, -, hdst, -⟩, rfl⟩ := modifyDst_eq_ok.mp h
  rw [operandAddress_readWrite hop] at ha
  exact written_intEnable_of_ne (dstWritable_setFlags hdst _) ((operandAddress_setFlags ..).trans ha) hne

theorem byteAt_modifyDst {b : Word} (hb : b ∉ accessBytes (operandWidth op) a) (ht : b ∉ sideEffectBytes op t) :
    byteAt t b = byteAt s b := by
  obtain ⟨⟨hop, -, hdst, -⟩, rfl⟩ := modifyDst_eq_ok.mp h
  rw [operandAddress_readWrite hop] at ha
  exact byteAt_written (dstWritable_setFlags hdst _) ((operandAddress_setFlags ..).trans ha) hb (fun e => absurd e hop) ht

end Modify

/-- Settles O46: the frame of reading the source, then that of modifying the destination. -/
theorem dualModifyFrame : Obligations.DualModifyFrame := by
  intro src dst s t mk hmk hnext a ha
  obtain ⟨f, hexec, hI, hCO⟩ := exec_dualModify hmk
  rw [hexec, toOutcome_eq_next, dualModify_eq_ok] at hnext
  obtain ⟨-, h⟩ := hnext
  have hflags := modifyDst_flags h
  rw [sourceAfter_flags] at hflags
  refine ⟨fun b hb hsrc hdst => (byteAt_modifyDst h ha hb hdst).trans (byteAt_sourceAfter src s hsrc),
    (modifyDst_pc h).trans (sourceAfter_pc src s), by rw [hflags, hI], (sourceAfter_inputs src s).trans (modifyDst_inputs h),
    fun hne => (modifyDst_regbank_of_ne h ha hne).trans (sourceAfter_regbank src s),
    fun hne => (modifyDst_intEnable_of_ne h ha hne).trans (sourceAfter_intEnable src s), fun hlogic => ?_⟩
  rw [hflags]
  exact hCO hlogic _ _ _

/-- Settles O47: the frame of modifying the destination. -/
theorem singleModifyFrame : Obligations.SingleModifyFrame := by
  intro n dst s t i hi hnext a ha
  obtain ⟨f, hexec, hI, hO, hC⟩ := exec_singleModify hi
  rw [hexec, toOutcome_eq_next] at hnext
  have hflags := modifyDst_flags hnext
  refine ⟨fun b hb hdst => byteAt_modifyDst hnext ha hb hdst, modifyDst_pc hnext, by rw [hflags, hI], modifyDst_inputs hnext,
    modifyDst_regbank_of_ne hnext ha, modifyDst_intEnable_of_ne hnext ha, fun hneg => ?_, fun hkeep => ?_⟩
  · rw [hflags, hO hneg]
  · rw [hflags, hC hkeep]

/-- Settles O48: reading both operands, and then other flags. -/
theorem compareFrame : Obligations.CompareFrame := by
  intro src dst s t mk hmk hnext
  obtain ⟨f, hexec, hI, hCO⟩ := exec_dualCompare hmk
  rw [hexec, toOutcome_eq_next, dualCompare_eq_ok, compareDst_eq_ok, sourceAfter_flags] at hnext
  obtain ⟨-, -, rfl⟩ := hnext
  have hbank := sourceAfter_regbank src s
  refine ⟨fun b hsrc hdst => ?_, (sourceAfter_pc dst _).trans (sourceAfter_pc src s), hI _ _ _,
    (sourceAfter_regbank dst _).trans hbank, (sourceAfter_intEnable dst _).trans (sourceAfter_intEnable src s),
    (sourceAfter_inputs src s).trans (sourceAfter_inputs dst _), fun htest => hCO htest _ _ _⟩
  rw [← sideEffectBytes_congr dst hbank] at hdst
  exact (byteAt_sourceAfter dst _ hdst).trans (byteAt_sourceAfter src s hsrc)

/-- Settles O49: the frame of reading the source, then that of writing the destination. -/
theorem movFrame : Obligations.MovFrame := by
  intro src dst s t hnext a ha
  obtain ⟨-, hdst, rfl⟩ := exec_mov_eq_next.mp hnext
  refine ⟨fun b hb hsrc hs ht => ?_, (written_pc ..).trans (sourceAfter_pc src s),
    (sourceAfter_inputs src s).trans (written_inputs ..),
    fun hne => (written_flags_of_ne hdst ha hne).trans (sourceAfter_flags src s),
    fun hne => (written_regbank_of_ne hdst ha hne).trans (sourceAfter_regbank src s),
    fun hne => (written_intEnable_of_ne hdst ha hne).trans (sourceAfter_intEnable src s)⟩
  rw [← sideEffectBytes_congr dst (sourceAfter_regbank src s)] at hs
  exact (byteAt_written hdst ha hb (fun _ => hs) ht).trans (byteAt_sourceAfter src s hsrc)

/-! Program control. -/

/-- A long jump or a return: not taken it changes nothing, taken it reads its operand and moves `pc` (42_program_control.md R252,
R253). -/
theorem jumpLong_eq_ok {cnd : Cond} {op : Operand} {s t : State} (h : jumpLong cnd op s = .ok t) :
    t = s ∨ (sourceValue op s).getLsbD 0 = false ∧ t = (sourceAfter op s).setPc (sourceValue op s) := by
  rw [jumpLong] at h
  split_ifs at h
  · obtain ⟨⟨v, u⟩, hread, hjump⟩ := bind_eq_ok.mp h
    obtain ⟨-, rfl, rfl⟩ := readOperand_eq_ok.mp hread
    obtain ⟨heven, rfl⟩ := jumpTo_eq_ok.mp hjump
    exact .inr ⟨heven, rfl⟩
  · exact .inl (Except.ok.inj h).symm

/-- The frame of a long jump or a return. -/
theorem jumpLong_frame {cnd : Cond} {op : Operand} {s t : State} (h : jumpLong cnd op s = .ok t) :
    (∀ b : Word, b ∉ sideEffectBytes op s → byteAt t b = byteAt s b) ∧ t.flags = s.flags ∧ t.regbank = s.regbank ∧
      t.intEnable = s.intEnable ∧ SameInterruptInputs s t := by
  obtain rfl | ⟨-, rfl⟩ := jumpLong_eq_ok h
  · exact ⟨fun _ _ => rfl, rfl, rfl, rfl, rfl, rfl, rfl⟩
  · exact ⟨fun b hb => byteAt_sourceAfter op s hb, sourceAfter_flags op s, sourceAfter_regbank op s, sourceAfter_intEnable op s,
      sourceAfter_inputs op s⟩

/-- A relative jump changes `pc` alone (R251). -/
theorem jumpRelative_frame (cnd : Cond) (off : BitVec 7) (s : State) : ∃ v, jumpRelative cnd off s = s.setPc v :=
  ⟨_, jumpRelative_eq cnd off s⟩

theorem jumpLongInstr_ne_jumpInstr (cnd cnd' : Cond) (off : BitVec 7) (t : Operand) :
    jumpLongInstr cnd' t ≠ jumpInstr cnd off := by
  cases cnd <;> cases cnd' <;> nofun

theorem returnInstr_ne_jumpInstr (cnd cnd' : Cond) (off : BitVec 7) : returnInstr cnd' ≠ jumpInstr cnd off := by
  cases cnd <;> cases cnd' <;> nofun

/-- Settles O50: a relative jump changes `pc` alone, the others what their operand does. -/
theorem jumpReturnFrame : Obligations.JumpReturnFrame := by
  rintro cnd off target s t i (rfl | rfl | ⟨rfl, rfl⟩) hnext
  · rw [exec_jumpInstr] at hnext
    obtain ⟨v, hv⟩ := jumpRelative_frame cnd off s
    cases hnext
    rw [hv]
    exact ⟨fun _ _ => rfl, fun _ => rfl, rfl, rfl, rfl, rfl, rfl, rfl⟩
  · rw [exec_jumpLongInstr, toOutcome_eq_next] at hnext
    obtain ⟨hbytes, hrest⟩ := jumpLong_frame hnext
    exact ⟨hbytes, fun e => absurd e (jumpLongInstr_ne_jumpInstr cnd cnd off target), hrest⟩
  · rw [exec_returnInstr, toOutcome_eq_next] at hnext
    obtain ⟨hbytes, hrest⟩ := jumpLong_frame hnext
    exact ⟨hbytes, fun e => absurd e (returnInstr_ne_jumpInstr cnd cnd off), hrest⟩

/-- A call: not taken it changes nothing, taken it pushes `pc`, reads its operand and moves `pc` (R254). -/
theorem callOn_cases {cnd : Cond} {op : Operand} {s t : State} (h : callOn cnd op s = .ok t) :
    t = s ∨ DstWritable .stack s.pc s ∧ (sourceValue op (written .stack s.pc s)).getLsbD 0 = false ∧
      t = (sourceAfter op (written .stack s.pc s)).setPc (sourceValue op (written .stack s.pc s)) := by
  cases hc : condHolds cnd s.flags with
  | false =>
    rw [callOn_not_taken hc] at h
    exact .inl (Except.ok.inj h).symm
  | true =>
    obtain ⟨-, hpush, -, heven, rfl⟩ := (callOn_eq_ok hc).mp h
    exact .inr ⟨hpush, heven, rfl⟩

/-- A push changes no byte but those of its word and of `r15` (40_operands.md R214). -/
theorem byteAt_pushed {v : Word} {s : State} {a b : Word} (ha : operandAddress .write .stack s = .ok a)
    (hb : b ∉ accessBytes .word a) (hsp : b ∉ regBytes spReg s) : byteAt (written .stack v s) b = byteAt s b := by
  obtain ⟨-, rfl⟩ := operandAddress_stack_write.mp ha
  exact (byteAt_poke_of_notMem v _ hb).trans (byteAt_pokeReg_of_notMem _ hsp)

/-- The frame of a push, an operand read after it, and a transfer: calls, and INT, whose target moves nothing (R254, R255). -/
theorem push_transfer_frame {op : Operand} {s : State} {a : Word} (v : Word) (hpush : DstWritable .stack s.pc s)
    (ha : operandAddress .write .stack s = .ok a) :
    let t := (sourceAfter op (written .stack s.pc s)).setPc v
    (∀ b : Word, b ∉ accessBytes .word a → b ∉ regBytes spReg s → b ∉ sideEffectBytes op t → byteAt t b = byteAt s b) ∧
      SameInterruptInputs s t ∧ (a ≠ flagsAddr → t.flags = s.flags) ∧ (a ≠ regbankAddr → t.regbank = s.regbank) ∧
      (a ≠ intEnableAddr → t.intEnable = s.intEnable) := by
  intro t
  refine ⟨fun b hb hsp ht => ?_, (written_inputs ..).trans (sourceAfter_inputs op _),
    fun hne => (sourceAfter_flags op _).trans (written_flags_of_ne hpush ha hne),
    fun hne => (sourceAfter_regbank op _).trans (written_regbank_of_ne hpush ha hne),
    fun hne => (sourceAfter_intEnable op _).trans (written_intEnable_of_ne hpush ha hne)⟩
  have hbank : t.regbank = (written .stack s.pc s).regbank := sourceAfter_regbank op _
  rw [sideEffectBytes_congr op hbank] at ht
  exact (byteAt_sourceAfter op _ ht).trans (byteAt_pushed ha hb hsp)

/-- Settles O51: not taken, nothing; taken, the frame of the push and the operand. -/
theorem callFrame : Obligations.CallFrame := by
  rintro cnd target v s t i (rfl | ⟨rfl, rfl⟩) hnext a ha
  · rw [exec_callInstr, toOutcome_eq_next] at hnext
    obtain rfl | ⟨hpush, -, rfl⟩ := callOn_cases hnext
    · exact ⟨fun _ _ _ _ => rfl, ⟨rfl, rfl, rfl⟩, fun _ => rfl, fun _ => rfl, fun _ => rfl⟩
    · exact push_transfer_frame _ hpush ha
  · obtain ⟨hpush, -, -, rfl⟩ := callVector_eq_ok.mp (toOutcome_eq_next.mp hnext)
    exact push_transfer_frame (op := .imm 0#16) _ hpush ha

end Sys2Proof.Machine
end

section
/-! SUPPORT. The invariant (10_state.md R127): the ten shapes of instruction, what each keeps whatever its operands, and from that
what every step keeps. -/

namespace Sys2Proof.Machine

/-- The instructions by their shape (41_dual_operand.md to 44_miscellaneous.md). -/
inductive Shape : Instr → Prop
  | mov (src dst : Operand) : Shape (.mov src dst)
  | modify {mk : Operand → Operand → Instr} (src dst : Operand)
      (hmk : mk ∈ [Instr.add, Instr.addc, Instr.sub, Instr.subb, Instr.and, Instr.or, Instr.xor]) : Shape (mk src dst)
  | compare {mk : Operand → Operand → Instr} (src dst : Operand) (hmk : mk ∈ [Instr.cmp, Instr.test]) : Shape (mk src dst)
  | single {i : Instr} (n : Fin 8) (dst : Operand)
      (hi : i ∈ [.shr n dst, .shl n dst, .ror n dst, .rol n dst, .addi n dst, .subi n dst, .not dst, .neg dst, .cbw dst]) :
      Shape i
  | jump (cnd : Cond) (off : BitVec 7) : Shape (jumpInstr cnd off)
  | jumpLong (cnd : Cond) (target : Operand) : Shape (jumpLongInstr cnd target)
  | ret (cnd : Cond) : Shape (returnInstr cnd)
  | call (cnd : Cond) (target : Operand) : Shape (callInstr cnd target)
  | int (v : Fin 128) : Shape (.int v)
  | flag {i : Instr} (hi : i ∈ [Instr.sti, .cli, .stc, .clc]) : Shape i

/-- Every instruction has one of the shapes. -/
theorem Shape.of (i : Instr) : Shape i := by
  cases i with
  | mov a b => exact .mov a b
  | add a b | addc a b | sub a b | subb a b | and a b | or a b | xor a b => exact .modify a b (by simp)
  | cmp a b | test a b => exact .compare a b (by simp)
  | shr n d | shl n d | ror n d | rol n d | addi n d | subi n d => exact .single n d (by simp)
  | not d | neg d | cbw d => exact .single 0 d (by simp)
  | jz off => exact .jump .z off
  | jnz off => exact .jump .nz off
  | jc off => exact .jump .c off
  | jnc off => exact .jump .nc off
  | js off => exact .jump .s off
  | jns off => exact .jump .ns off
  | jo off => exact .jump .o off
  | jno off => exact .jump .no off
  | ja off => exact .jump .a off
  | jbe off => exact .jump .be off
  | jg off => exact .jump .g off
  | jge off => exact .jump .ge off
  | jl off => exact .jump .l off
  | jle off => exact .jump .le off
  | jmp off => exact .jump .always off
  | jzl t => exact .jumpLong .z t
  | jnzl t => exact .jumpLong .nz t
  | jcl t => exact .jumpLong .c t
  | jncl t => exact .jumpLong .nc t
  | jsl t => exact .jumpLong .s t
  | jnsl t => exact .jumpLong .ns t
  | jol t => exact .jumpLong .o t
  | jnol t => exact .jumpLong .no t
  | jal t => exact .jumpLong .a t
  | jbel t => exact .jumpLong .be t
  | jgl t => exact .jumpLong .g t
  | jgel t => exact .jumpLong .ge t
  | jll t => exact .jumpLong .l t
  | jlel t => exact .jumpLong .le t
  | jmpl t => exact .jumpLong .always t
  | rz => exact .ret .z
  | rnz => exact .ret .nz
  | rc => exact .ret .c
  | rnc => exact .ret .nc
  | rs => exact .ret .s
  | rns => exact .ret .ns
  | ro => exact .ret .o
  | rno => exact .ret .no
  | ra => exact .ret .a
  | rbe => exact .ret .be
  | rg => exact .ret .g
  | rge => exact .ret .ge
  | rl => exact .ret .l
  | rle => exact .ret .le
  | ret => exact .ret .always
  | cz t => exact .call .z t
  | cnz t => exact .call .nz t
  | cc t => exact .call .c t
  | cnc t => exact .call .nc t
  | cs t => exact .call .s t
  | cns t => exact .call .ns t
  | co t => exact .call .o t
  | cno t => exact .call .no t
  | ca t => exact .call .a t
  | cbe t => exact .call .be t
  | cg t => exact .call .g t
  | cge t => exact .call .ge t
  | cl t => exact .call .l t
  | cle t => exact .call .le t
  | call t => exact .call .always t
  | int v => exact .int v
  | sti | cli | stc | clc => exact .flag (by simp)

/-! What every update that an instruction is made of keeps. -/

/-- From `s` to `t` the latches, the requests to come and the parameters stay, and both parts of the invariant are kept. -/
structure Preserves (s t : State) : Prop where
  inputs : SameInterruptInputs s t
  wf : s.mem.wf → t.mem.wf
  even : s.pc.getLsbD 0 = false → t.pc.getLsbD 0 = false

theorem Preserves.refl (s : State) : Preserves s s := ⟨⟨rfl, rfl, rfl⟩, id, id⟩

theorem Preserves.trans {s t u : State} (h : Preserves s t) (h' : Preserves t u) : Preserves s u :=
  ⟨h.inputs.trans h'.inputs, h'.wf ∘ h.wf, h'.even ∘ h.even⟩

theorem preserves_setFlags (s : State) (f : Flags) : Preserves s (s.setFlags f) := ⟨⟨rfl, rfl, rfl⟩, id, id⟩

theorem preserves_setPc {v : Word} (s : State) (h : s.pc.getLsbD 0 = false → v.getLsbD 0 = false) : Preserves s (s.setPc v) :=
  ⟨⟨rfl, rfl, rfl⟩, id, h⟩

theorem preserves_sourceAfter (op : Operand) (s : State) : Preserves s (sourceAfter op s) :=
  ⟨sourceAfter_inputs op s, sourceAfter_wf op s, fun h => by rwa [sourceAfter_pc]⟩

theorem preserves_written (op : Operand) (v : Word) (s : State) : Preserves s (written op v s) :=
  ⟨written_inputs op v s, written_wf op v s, fun h => by rwa [written_pc]⟩

theorem preserves_modifyDst {f : AluOp} {op : Operand} {s t : State} (h : modifyDst f op s = .ok t) : Preserves s t :=
  ⟨modifyDst_inputs h, modifyDst_wf h, fun heven => by rwa [modifyDst_pc h]⟩

theorem preserves_jumpRelative (cnd : Cond) (off : BitVec 7) (s : State) : Preserves s (jumpRelative cnd off s) := by
  rw [jumpRelative_eq]
  refine preserves_setPc s fun h => ?_
  rw [getLsbD_zero_eq_false] at h ⊢
  have heven := jumpRelative_pc_even h cnd off
  rwa [jumpRelative_eq] at heven

theorem preserves_jumpLong {cnd : Cond} {op : Operand} {s t : State} (h : jumpLong cnd op s = .ok t) : Preserves s t := by
  obtain rfl | ⟨heven, rfl⟩ := jumpLong_eq_ok h
  · exact .refl _
  · exact (preserves_sourceAfter op s).trans (preserves_setPc _ fun _ => heven)

/-- Every instruction is made of such updates. -/
theorem exec_preserves {i : Instr} {s t : State} (h : exec i s = .next t) : Preserves s t := by
  cases Shape.of i with
  | mov src dst =>
    obtain ⟨-, -, rfl⟩ := exec_mov_eq_next.mp h
    exact (preserves_sourceAfter src s).trans (preserves_written dst _ _)
  | modify src dst hmk =>
    obtain ⟨f, hexec, -⟩ := exec_dualModify hmk
    rw [hexec, toOutcome_eq_next, dualModify_eq_ok] at h
    exact (preserves_sourceAfter src s).trans (preserves_modifyDst h.2)
  | compare src dst hmk =>
    obtain ⟨f, hexec, -⟩ := exec_dualCompare hmk
    rw [hexec, toOutcome_eq_next, dualCompare_eq_ok, compareDst_eq_ok] at h
    obtain ⟨-, -, rfl⟩ := h
    exact ((preserves_sourceAfter src s).trans (preserves_sourceAfter dst _)).trans (preserves_setFlags _ _)
  | single n dst hi =>
    obtain ⟨f, hexec, -⟩ := exec_singleModify hi
    rw [hexec, toOutcome_eq_next] at h
    exact preserves_modifyDst h
  | jump cnd off =>
    rw [exec_jumpInstr] at h
    cases h
    exact preserves_jumpRelative cnd off s
  | jumpLong cnd target =>
    rw [exec_jumpLongInstr, toOutcome_eq_next] at h
    exact preserves_jumpLong h
  | ret cnd =>
    rw [exec_returnInstr, toOutcome_eq_next] at h
    exact preserves_jumpLong h
  | call cnd target =>
    rw [exec_callInstr, toOutcome_eq_next] at h
    obtain rfl | ⟨-, heven, rfl⟩ := callOn_cases h
    · exact .refl _
    · exact ((preserves_written .stack _ s).trans (preserves_sourceAfter target _)).trans (preserves_setPc _ fun _ => heven)
  | int v =>
    obtain ⟨-, -, heven, rfl⟩ := callVector_eq_ok.mp (toOutcome_eq_next.mp h)
    exact (preserves_written .stack _ s).trans (preserves_setPc _ fun _ => heven)
  | flag hi =>
    simp only [List.mem_cons, List.not_mem_nil, or_false] at hi
    obtain rfl | rfl | rfl | rfl := hi
    all_goals
      cases h
      exact preserves_setFlags s _

/-- Settles O12: part of what every instruction keeps. -/
theorem instructionsKeepLatches : Obligations.InstructionsKeepLatches := fun _ _ _ h => (exec_preserves h).inputs

/-! From instructions to steps: latching a request and fetching keep the invariant, and so does interrupt entry. -/

/-- The fetch moves `pc` by whole words (30_encoding.md R170). -/
theorem even_add_two_mul {a : Word} (h : a.getLsbD 0 = false) (k : Nat) :
    (a + BitVec.ofNat 16 (2 * k)).getLsbD 0 = false := by
  rw [getLsbD_zero_eq_false] at h ⊢
  rw [BitVec.toNat_add, BitVec.toNat_ofNat]
  omega

/-- A fetch that goes through keeps what instructions keep. -/
theorem preserves_fetchInstr {i : Instr} {s u : State} (h : fetchInstr s = .ok (i, u)) : Preserves s u := by
  obtain ⟨ws, rest, -, -, rfl⟩ := fetchInstr_eq_ok h
  exact preserves_setPc s fun heven => even_add_two_mul heven _

/-- Interrupt entry ends at an even address, its memory that of the push (60_exceptions.md R326). -/
theorem takeInterrupt_keepsInvariant {n : Fin 48} {s t : State} (hwf : s.mem.wf) (h : takeInterrupt n s = .ok t) :
    MachineInv t := by
  obtain ⟨-, -, heven, rfl⟩ := takeInterrupt_eq_ok.mp h
  exact ⟨written_wf .stack s.pc (s.clearPend n) hwf, heven⟩

/-- Settles O10: an interrupt entry, or a fetch and an instruction, after the requests are latched. -/
theorem stepKeepsInvariant : Obligations.StepKeepsInvariant := by
  rintro s t ⟨hwf, heven⟩ hstep
  rw [← latchRequests_mem] at hwf
  rw [← latchRequests_pc] at heven
  obtain ⟨n, -, hentry⟩ | ⟨-, i, u, hfetch, hexec⟩ := step_eq_next.mp hstep
  · exact takeInterrupt_keepsInvariant hwf hentry
  · have h := (preserves_fetchInstr hfetch).trans (exec_preserves hexec)
    exact ⟨h.wf hwf, h.even heven⟩

/-- Settles O11: neither kind of step touches a parameter. -/
theorem stepKeepsParameters : Obligations.StepKeepsParameters := by
  intro s t hstep
  rw [← latchRequests_params s]
  obtain ⟨n, -, hentry⟩ | ⟨-, i, u, hfetch, hexec⟩ := step_eq_next.mp hstep
  · obtain ⟨-, -, -, rfl⟩ := takeInterrupt_eq_ok.mp hentry
    exact written_params .stack _ ((latchRequests s).clearPend n)
  · obtain ⟨-, -, hparams⟩ := ((preserves_fetchInstr hfetch).trans (exec_preserves hexec)).inputs
    exact hparams

/-! The flag `I` (10_state.md R123, 60_exceptions.md R323). -/

/-- Where a destination that can be written does not lie on the flags register, writing it keeps the flags. -/
theorem written_flags_or {op : Operand} {v : Word} {s : State} (h : DstWritable op v s) :
    operandAddress .write op s = .ok flagsAddr ∨ (written op v s).flags = s.flags := by
  obtain ⟨a, ha⟩ := operandAddress_of_writable h
  by_cases hne : a = flagsAddr
  · exact .inl (hne ▸ ha)
  · exact .inr (written_flags_of_ne h ha hne)

/-- Settles O13: the shapes that compute flags compute no other `I`, and those that write memory reach the flags by their
address alone. -/
theorem interruptFlagWriters : Obligations.InterruptFlagWriters := by
  intro i s t h hI
  cases Shape.of i with
  | mov src dst =>
    obtain ⟨-, hdst, rfl⟩ := exec_mov_eq_next.mp h
    obtain ha | hflags := written_flags_or hdst
    · exact .inr (.inr (.inl ⟨src, dst, rfl, ha⟩))
    · exact absurd (by rw [hflags, sourceAfter_flags]) hI
  | modify src dst hmk =>
    obtain ⟨f, hexec, hkeep, -⟩ := exec_dualModify hmk
    rw [hexec, toOutcome_eq_next, dualModify_eq_ok] at h
    exact absurd (by rw [modifyDst_flags h.2, hkeep, sourceAfter_flags]) hI
  | compare src dst hmk =>
    obtain ⟨f, hexec, hkeep, -⟩ := exec_dualCompare hmk
    rw [hexec, toOutcome_eq_next, dualCompare_eq_ok, compareDst_eq_ok, sourceAfter_flags] at h
    obtain ⟨-, -, rfl⟩ := h
    exact absurd (hkeep _ _ _) hI
  | single n dst hi =>
    obtain ⟨f, hexec, hkeep, -⟩ := exec_singleModify hi
    rw [hexec, toOutcome_eq_next] at h
    exact absurd (by rw [modifyDst_flags h, hkeep]) hI
  | jump cnd off =>
    rw [exec_jumpInstr, jumpRelative_eq] at h
    cases h
    exact absurd rfl hI
  | jumpLong cnd target =>
    rw [exec_jumpLongInstr, toOutcome_eq_next] at h
    obtain ⟨-, hflags, -⟩ := jumpLong_frame h
    exact absurd (congrArg _ hflags) hI
  | ret cnd =>
    rw [exec_returnInstr, toOutcome_eq_next] at h
    obtain ⟨-, hflags, -⟩ := jumpLong_frame h
    exact absurd (congrArg _ hflags) hI
  | call cnd target =>
    rw [exec_callInstr, toOutcome_eq_next] at h
    obtain rfl | ⟨hpush, -, rfl⟩ := callOn_cases h
    · exact absurd rfl hI
    · obtain ha | hflags := written_flags_or hpush
      · exact .inr (.inr (.inr ⟨.inl ⟨cnd, target, rfl⟩, ha⟩))
      · exact absurd (by rw [setPc_flags, sourceAfter_flags, hflags]) hI
  | int v =>
    obtain ⟨hpush, -, -, rfl⟩ := callVector_eq_ok.mp (toOutcome_eq_next.mp h)
    obtain ha | hflags := written_flags_or hpush
    · exact .inr (.inr (.inr ⟨.inr ⟨v, rfl⟩, ha⟩))
    · exact absurd (by rw [setPc_flags, hflags]) hI
  | flag hi =>
    simp only [List.mem_cons, List.not_mem_nil, or_false] at hi
    obtain rfl | rfl | rfl | rfl := hi
    · exact .inl rfl
    · exact .inr (.inl rfl)
    all_goals
      cases h
      exact absurd rfl hI

end Sys2Proof.Machine
end

section
/-! SUPPORT. Hardware interrupts (60_exceptions.md R324 to R326, 44_miscellaneous.md R290, R291): recognition, latches, entry. -/

namespace Sys2Proof.Machine

/-! Recognition (R325). -/

theorem chooseIrq_isSome {e : List (Fin 48)} : (chooseIrq e).isSome = true ↔ ∃ n, n ∈ e := by
  cases e with
  | nil => simp [chooseIrq]
  | cons n e =>
    cases e with
    | nil => simp [chooseIrq]
    | cons m e =>
      refine iff_of_true ?_ ⟨n, List.mem_cons_self⟩
      rw [chooseIrq]
      split_ifs <;> rfl

theorem mem_readySources {s : State} {n : Fin 48} :
    n ∈ readySources s ↔ s.pend.getLsbD n.val = true ∧ irqEnabled s n = true := by
  simp [readySources]

/-- Some source is recognised exactly where `I` is 1 and some source is ready. -/
theorem recognise_isSome {s : State} : (recognise s).isSome = true ↔
    s.flags.i = true ∧ ∃ n : Fin 48, s.pend.getLsbD n.val = true ∧ irqEnabled s n = true := by
  rw [recognise]
  split_ifs with hi
  · simp only [hi, chooseIrq_isSome, mem_readySources, true_and]
  · simp [hi]

theorem recognise_of_disabled {s : State} (h : s.flags.i = false) : recognise s = none := by
  rw [recognise, h]
  rfl

/-- Settles O54: the choice is of a ready source, and there is one where there is a ready source. -/
theorem recognitionRule : Obligations.RecognitionRule :=
  fun _ => ⟨recognise_isSome, fun _ h => (recognise_eq_some h).2⟩

/-! Latches (R324). -/

/-- At a boundary the requests of the next member of the list join the latches. -/
theorem latchRequests_pend_getLsbD (s : State) (k : Nat) : (latchRequests s).pend.getLsbD k = true ↔
    s.pend.getLsbD k = true ∨ ∃ req, s.irqInputs.head? = some req ∧ req.getLsbD k = true := by
  rw [latchRequests]
  cases s.irqInputs with
  | nil => simp
  | cons req rest => simp

/-- Settles O57: with `I` 0 the step is an instruction, which leaves the latches as the boundary made them. -/
theorem requestsAreKeptWhileDisabled : Obligations.RequestsAreKeptWhileDisabled := by
  intro s t hI hstep n
  have hnone : recognise (latchRequests s) = none := recognise_of_disabled (by rw [latchRequests_flags, hI])
  obtain ⟨m, hm, -⟩ | ⟨-, i, u, hfetch, hexec⟩ := step_eq_next.mp hstep
  · exact nomatch hnone.symm.trans hm
  · obtain ⟨hpend, -⟩ := ((preserves_fetchInstr hfetch).trans (exec_preserves hexec)).inputs
    rw [hpend, latchRequests_pend_getLsbD]

/-- Settles O58: the boundary after STI keeps the source ready, that after CLI finds `I` 0. -/
theorem stiCliBoundary : Obligations.StiCliBoundary := by
  refine ⟨fun s t n hsti hpend henabled => ?_, fun s t hcli => ?_⟩
  · cases hsti
    have hsome : (recognise (latchRequests (s.setFlags { s.flags with i := true }))).isSome = true := by
      refine recognise_isSome.mpr ⟨by simp, n, (latchRequests_pend_getLsbD _ _).mpr (.inl hpend), ?_⟩
      simpa [irqEnabled] using henabled
    obtain ⟨m, hm⟩ := Option.isSome_iff_exists.mp hsome
    exact ⟨m, hm, step_of_recognised hm⟩
  · cases hcli
    exact recognise_of_disabled (by simp)

/-! Interrupt entry (R326). -/

/-- Latching requests plays no part in whether `pc` can be pushed. -/
theorem dstWritable_stack_latchRequests {v : Word} {s : State} :
    DstWritable .stack v (latchRequests s) ↔ DstWritable .stack v s := by
  rw [latchRequests]
  split <;> exact Iff.rfl

/-- Settles O55: the step is the entry, and past the push and the load the entry is a transfer. -/
theorem interruptEntry : Obligations.InterruptEntry := by
  intro s n hn u entry target hpush hentry
  have hvector : vectorAddr (latchRequests s).params.irqVector[n] = entry := by
    rw [latchRequests_params, vectorAddr_eq]
  have hpush' : DstWritable .stack (latchRequests s).pc (latchRequests s) := by
    rw [latchRequests_pc]
    exact dstWritable_stack_latchRequests.mpr hpush
  have hentry' : Readable .word (vectorAddr (latchRequests s).params.irqVector[n]) (latchRequests s) := by
    rw [hvector]
    exact (readFault_congr _ _ (latchRequests_params s)).trans hentry
  have hstep := step_of_recognised hn
  rw [takeInterrupt_eq_jumpTo hpush' hentry', hvector, entered, latchRequests_pc] at hstep
  rw [hstep]
  exact ⟨fun heven => toOutcome_jumpTo_of_even heven _, fun hodd => toOutcome_jumpTo_of_odd hodd _⟩

/-- Clearing a latch clears that one. -/
theorem clearPend_getLsbD (s : State) (n m : Fin 48) :
    (s.clearPend n).pend.getLsbD m.val = (s.pend.getLsbD m.val && decide (m ≠ n)) := by
  have hone : (1#48 <<< n.val).getLsbD m.val = decide (m = n) := by
    rw [BitVec.getLsbD_shiftLeft, BitVec.getLsbD_one, Bool.eq_iff_iff]
    simp [Fin.ext_iff]
    omega
  rw [clearPend_pend, BitVec.getLsbD_and, BitVec.getLsbD_not, hone]
  simp

/-- Settles O56: the frame of the push, then other flags and another `pc`. -/
theorem interruptEntryFrame : Obligations.InterruptEntryFrame := by
  intro n s t h a ha
  obtain ⟨hpush, -, -, rfl⟩ := takeInterrupt_eq_ok.mp h
  obtain ⟨hpend, hinputs, hparams⟩ := written_inputs .stack s.pc (s.clearPend n)
  refine ⟨fun b hb hsp => byteAt_pushed (s := s.clearPend n) ha hb hsp, fun m => ?_, hparams, hinputs, rfl, fun hne => ?_,
    written_regbank_of_ne hpush ha, written_intEnable_of_ne hpush ha⟩
  · exact (congrArg (·.getLsbD m.val) hpend).trans (clearPend_getLsbD s n m)
  · rw [setPc_flags, entered, setFlags_flags, written_flags_of_ne hpush ha hne]
    rfl

end Sys2Proof.Machine
end

section
/-! SUPPORT. Time and the end of a run (70_reset_and_hazards.md R356 to R364): the cost of each instruction, and the first finished
state. -/

namespace Sys2Proof.Machine

/-! Clocks (R360 to R364). -/

theorem isInternalRegister_iff {s : State} {a : Word} : isInternalRegister s a = true ↔
    a = 0xC000#16 ∨ a = 0xC00E#16 ∨ a = 0xC024#16 ∨ a = 0xC002#16 ∨ kindAt s.params.memMap a = .control := by
  simp [isInternalRegister, flagsAddr, intEnableAddr, gpioAddr, regbankAddr, or_assoc]

/-- An operand in memory waits where its address is an internal register (R363). -/
theorem registerWait_at_address {acc : Access} {op : Operand} {s : State} {a : Word} (hreg : ∀ r, op ≠ .reg r)
    (ha : operandAddress acc op s = .ok a) : registerWait acc op s = if isInternalRegister s a then 1 else 0 := by
  cases op with
  | reg r => exact absurd rfl (hreg r)
  | imm v => cases ha
  | stack | ind w p | direct w a' | autoInc w p | index w p off => rw [registerWait, ha]

/-- The destination's address is taken after the source's side effect (R360). -/
theorem dualCost_eq {src : Operand} {s : State} (h : SourceReady src s) (acc : Access) (dst : Operand) :
    dualCost acc src dst s =
      5 + modeAdder src + registerWait .read src s + modeAdder dst + registerWait acc dst (sourceAfter src s) := by
  simp only [dualCost, readOperand_eq_ok.mpr ⟨h, rfl, rfl⟩, operandCost]
  omega

/-- A taken call's operand is taken after the push (R254). -/
theorem callCost_taken {cnd : Cond} {s : State} (hc : condHolds cnd s.flags = true) (hpush : DstWritable .stack s.pc s)
    (target : Operand) :
    callCost cnd target s = 7 + modeAdder target + registerWait .read target (written .stack s.pc s) := by
  simp only [callCost, push_eq_ok.mpr ⟨hpush, rfl⟩, takenCost, hc, operandCost]
  exact (Nat.add_assoc ..).symm

theorem takenCost_not_taken {cnd : Cond} {s : State} (hc : condHolds cnd s.flags = false) (k : Nat) :
    takenCost cnd k s = 4 := by
  rw [takenCost, hc]
  rfl

/-- A step has a cost exactly where it runs an instruction to a next state (log 22). -/
theorem exists_stepCost {s : State} :
    (∃ c, stepCost s = some c) ↔ recognise (latchRequests s) = none ∧ ∃ t, step s = .next t := by
  cases hr : recognise (latchRequests s) with
  | some n => simp [stepCost, hr]
  | none =>
    cases hf : fetchInstr (latchRequests s) with
    | error f => simp [stepCost, hr, hf, step_of_fetch_fault hr hf]
    | ok p =>
      obtain ⟨i, u⟩ := p
      rw [step_of_fetched hr hf]
      cases he : exec i u <;> simp [stepCost, hr, hf, he]

/-- Settles O59: the cost of each shape, its operands' costs by their address. -/
theorem registerCycleCounts : Obligations.RegisterCycleCounts := by
  refine ⟨?adder, fun _ _ _ _ => ⟨rfl, rfl⟩, ?wait, ?dual, ?single, ?control, fun _ => exists_stepCost⟩
  case adder => exact fun _ _ _ _ _ _ _ => ⟨rfl, rfl, rfl, rfl, rfl, rfl, rfl⟩
  case wait =>
    intro acc op s a hreg ha
    rw [registerWait_at_address hreg ha]
    exact if_congr isInternalRegister_iff rfl rfl
  case dual =>
    intro src dst s hsrc
    refine ⟨dualCost_eq hsrc .write dst, fun mk hmk => ?_, fun mk hmk => ?_⟩
    all_goals
      simp only [List.mem_cons, List.not_mem_nil, or_false] at hmk
    · obtain rfl | rfl := hmk
      all_goals exact dualCost_eq hsrc .read dst
    · obtain rfl | rfl | rfl | rfl | rfl | rfl | rfl := hmk
      all_goals exact dualCost_eq hsrc .readWrite dst
  case single =>
    intro n dst s
    refine ⟨fun mk hmk => ?_, fun mk hmk => ?_, fun mk hmk => ?_⟩
    all_goals
      simp only [List.mem_cons, List.not_mem_nil, or_false] at hmk
    · obtain rfl | rfl | rfl | rfl := hmk
      all_goals rfl
    · obtain rfl | rfl := hmk
      all_goals rfl
    · obtain rfl | rfl | rfl := hmk
      all_goals rfl
  case control =>
    intro cnd off v target s
    refine ⟨cycles_jumpInstr cnd off s, rfl, fun i hi => cycles_flagInstruction hi s, fun hc => ⟨?_, ?_, fun hpush => ?_⟩,
      fun hc => ⟨?_, ?_, ?_⟩⟩
    · rw [cycles_jumpLongInstr, takenCost, if_pos hc]
      exact (Nat.add_assoc ..).symm
    · rw [cycles_returnInstr, takenCost, if_pos hc]
      exact (Nat.add_assoc 4 2 _).symm
    · rw [cycles_callInstr, callCost_taken hc hpush]
    · rw [cycles_returnInstr, takenCost_not_taken hc]
    · rw [cycles_callInstr, callCost, takenCost_not_taken hc]
    · rw [cycles_jumpLongInstr, takenCost_not_taken hc]

/-! The finished state (R357). -/

theorem decodeWords_selfJump (ws : List Word) : decodeWords (0xCF7F#16 :: ws) = .ok (.jmp 0b1111111#7, ws) :=
  decodeWords_jumpWord (k := 0b1111#4) (cnd := .always) rfl 0b1111111#7 ws

theorem finished_iff {stop : Word} {s : State} : finished stop s = true ↔
    s.pc = stop ∧ load .word stop s = .ok 0xCF7F#16 ∧ (s.flags.i = false ∨ (latchRequests s).pend = 0#48) := by
  rw [finished]
  cases load .word stop s with
  | error f => simp
  | ok w => simp [selfJump, and_comm, and_left_comm (b := s.pc = stop)]

/-- With no latch set no source is recognised. -/
theorem recognise_of_no_pending {s : State} (h : s.pend = 0#48) : recognise s = none := by
  cases hr : recognise s with
  | none => rfl
  | some n =>
    obtain ⟨-, hpend, -⟩ := recognise_eq_some hr
    simp [h] at hpend

/-- The jump to itself comes back to its own address. -/
theorem relativeTarget_self (pc : Word) : relativeTarget 0b1111111#7 (pc + 2#16) = pc := by
  have hback : 2#16 + 2#16 * (0b1111111#7).signExtend 16 = 0#16 := by decide
  rw [relativeTarget, BitVec.add_assoc, hback, BitVec.add_zero]

/-- A finished state runs the jump to itself, and only that boundary's requests are new. -/
theorem step_of_finished {stop : Word} {s : State} (h : finished stop s = true) : step s = .next (latchRequests s) := by
  obtain ⟨rfl, hload, hquiet⟩ := finished_iff.mp h
  obtain ⟨hread, hpeek⟩ := load_eq_ok.mp hload
  have hnone : recognise (latchRequests s) = none := by
    obtain hI | hpend := hquiet
    · exact recognise_of_disabled ((latchRequests_flags s).symm ▸ hI)
    · exact recognise_of_no_pending hpend
  have hfetch := fetchInstr_of_readable (s := latchRequests s) (es := []) rfl (decodeWords_selfJump []) fun k hk => by
    obtain rfl : k = 0 := by simpa using hk
    rw [latchRequests_pc, peek_latchRequests]
    simpa [hpeek] using (readFault_congr .word s.pc (latchRequests_params s)).trans hread
  rw [step_of_fetched hnone hfetch]
  calc exec (jumpInstr .always 0b1111111#7) ((latchRequests s).setPc ((latchRequests s).pc + 2#16))
    _ = .next ((latchRequests s).setPc (relativeTarget 0b1111111#7 ((latchRequests s).pc + 2#16))) := rfl
    _ = .next (latchRequests s) := by
      rw [relativeTarget_self]
      rfl

/-! The end state (R357). -/

theorem run_succ {k : Nat} {s t : State} : run (k + 1) s = some t ↔ ∃ v, step s = .next v ∧ run k v = some t := by
  rw [run]
  cases step s <;> simp

/-- `t` is reached after `j` steps, no state before it finished. -/
def FirstArrival (stop : Word) (s : State) (j : Nat) (t : State) : Prop :=
  run j s = some t ∧ ∀ i < j, ∀ u, run i s = some u → finished stop u = false

theorem firstArrival_zero {stop : Word} {s t : State} : FirstArrival stop s 0 t ↔ s = t := by
  simp [FirstArrival, run]

theorem firstArrival_succ {stop : Word} {s t : State} {j : Nat} : FirstArrival stop s (j + 1) t ↔
    finished stop s = false ∧ ∃ v, step s = .next v ∧ FirstArrival stop v j t := by
  constructor
  · rintro ⟨hrun, hbefore⟩
    obtain ⟨v, hv, hrun⟩ := run_succ.mp hrun
    exact ⟨hbefore 0 j.succ_pos s rfl, v, hv, hrun,
      fun i hi u hu => hbefore (i + 1) (Nat.succ_lt_succ hi) u (run_succ.mpr ⟨v, hv, hu⟩)⟩
  · rintro ⟨hfirst, v, hv, hrun, hbefore⟩
    refine ⟨run_succ.mpr ⟨v, hv, hrun⟩, fun i hi u hu => ?_⟩
    cases i with
    | zero =>
      cases hu
      exact hfirst
    | succ i =>
      obtain ⟨v', hv', hu⟩ := run_succ.mp hu
      cases hv.symm.trans hv'
      exact hbefore i (Nat.lt_of_succ_lt_succ hi) u hu

theorem endState_of_finished {stop : Word} {s : State} (h : finished stop s = true) (k : Nat) :
    endState stop k s = some s := by
  cases k <;> simp [endState, h]

theorem endState_succ {stop : Word} {s t : State} {k : Nat} (h : finished stop s = false) :
    endState stop (k + 1) s = some t ↔ ∃ v, step s = .next v ∧ endState stop k v = some t := by
  rw [endState, h]
  cases step s <;> simp

/-- The end state is the first arrival at a finished state: from a finished state at once, from any other through the next. -/
theorem endState_eq_some {stop : Word} {k : Nat} {s t : State} :
    endState stop k s = some t ↔ finished stop t = true ∧ ∃ j ≤ k, FirstArrival stop s j t := by
  induction k generalizing s with
  | zero =>
    simp only [Nat.le_zero, exists_eq_left, firstArrival_zero]
    rw [endState]
    split_ifs with hf
    · exact ⟨fun h => ⟨Option.some.inj h ▸ hf, Option.some.inj h⟩, fun h => congrArg some h.2⟩
    · exact iff_of_false nofun fun h => hf (h.2 ▸ h.1)
  | succ k ih =>
    cases hf : finished stop s with
    | true =>
      rw [endState_of_finished hf]
      constructor
      · rintro ⟨⟩
        exact ⟨hf, 0, Nat.zero_le _, firstArrival_zero.mpr rfl⟩
      · rintro ⟨-, j, -, hj⟩
        cases j with
        | zero => rw [firstArrival_zero.mp hj]
        | succ j => exact nomatch hf.symm.trans (firstArrival_succ.mp hj).1
    | false =>
      rw [endState_succ hf]
      constructor
      · rintro ⟨v, hv, hend⟩
        obtain ⟨ht, j, hj, harrival⟩ := ih.mp hend
        exact ⟨ht, j + 1, Nat.succ_le_succ hj, firstArrival_succ.mpr ⟨hf, v, hv, harrival⟩⟩
      · rintro ⟨ht, j, hj, harrival⟩
        cases j with
        | zero =>
          obtain rfl := firstArrival_zero.mp harrival
          exact nomatch hf.symm.trans ht
        | succ j =>
          obtain ⟨-, v, hv, harrival⟩ := firstArrival_succ.mp harrival
          exact ⟨v, hv, ih.mpr ⟨ht, j, Nat.le_of_succ_le_succ hj, harrival⟩⟩

/-- Settles O60: the designated word, the finished state, the step from it, and the first arrival. -/
theorem finishedRun : Obligations.FinishedRun :=
  ⟨decodeWords_selfJump, fun _ _ => finished_iff, fun _ _ => step_of_finished, fun _ _ _ _ => endState_eq_some⟩

end Sys2Proof.Machine
end
